-- ==== Sys2Proof/Word.lean ====
section
/-! DEFINITION. The word types of the asysbus CAN link core (spec/00_scope.md R8, R16). -/

namespace Sys2Proof

/-- One byte of a payload buffer (00_scope.md R11). -/
abbrev Byte := BitVec 8

/-- The identifier word, `ID_W` = 32 bits (30_encoding.md R70). -/
abbrev IdWord := BitVec 32

/-- A timestamp or a duration in milliseconds, `TIME_W` = 32 bits, unsigned (00_scope.md R8, R13). -/
abbrev Time := BitVec 32

/-- A length field, `LEN_W` = 4 bits, whose legal values are 0..8 (00_scope.md R8). -/
abbrev LenField := BitVec 4

/-- A pin number, `PIN_W` = 8 bits (00_scope.md R8). -/
abbrev PinNum := BitVec 8

/-- A payload buffer: `PAYLOAD_BYTES` = 8 bytes, index 0..7 (00_scope.md R8, 20_memory.md R50). -/
abbrev Payload := Vector Byte 8

end Sys2Proof
end

