-- ==== Sys2Proof/Syntax.lean ====
section
/-! DEFINITION. The syntax: one constructor per row of spec/opcode_table.json, the operand ports of the command interface
(spec/30_encoding.md R80, R82) and what the host can present there. -/

namespace Sys2Proof

/-- The operations of the block (00_scope.md R7, 30_encoding.md R81, R82) and the identifier word's four formats
(30_encoding.md R73, R74). An operand's type has the width R82 gives its port. -/
inductive Instr where
  /-- ENCODE (40_address_codec.md R100); `port` is a two's complement byte. -/
  | encode (type : BitVec 8) (target source : BitVec 32) (port : BitVec 8)
  /-- DECODE (40_address_codec.md R102). -/
  | decode (id : IdWord)
  /-- DF_CHECK (41_duplicate_filter.md R120). -/
  | dfCheck (id : IdWord) (length : LenField) (payload : Payload)
  /-- SLEEP (42_power_controller.md R136). -/
  | sleep
  /-- WAKE (42_power_controller.md R138). -/
  | wake
  /-- IS_SLEEPING (42_power_controller.md R140). -/
  | isSleeping
  /-- MAYBE_AUTOSLEEP (42_power_controller.md R141). -/
  | maybeAutosleep
  /-- SET_AUTOSLEEP (42_power_controller.md R143). -/
  | setAutosleep (enabled : Bool) (keepAwakeDuration : Time)
  /-- SET_STBY_PIN (42_power_controller.md R145). -/
  | setStbyPin (useControllerPin : Bool) (pinNumber : PinNum)
  /-- SEND (43_link_driver.md R160). -/
  | send (type : BitVec 8) (target source : BitVec 32) (port : BitVec 8) (length : LenField) (payload : Payload)
  /-- RECEIVE (43_link_driver.md R166). -/
  | receive
  /-- ID.BROADCAST: a group format word of type 0 (30_encoding.md R74), every bit of it named. -/
  | idBroadcast (marker zero30 zero27 : BitVec 1) (target : BitVec 16) (source : BitVec 11)
  /-- ID.MULTICAST: a group format word of type 1 (30_encoding.md R74). -/
  | idMulticast (marker zero30 zero27 : BitVec 1) (target : BitVec 16) (source : BitVec 11)
  /-- ID.RESERVED: a group format word of type 2 (30_encoding.md R74, R83). -/
  | idReserved (marker zero30 zero27 : BitVec 1) (target : BitVec 16) (source : BitVec 11)
  /-- ID.UNICAST: a unicast format word, type 3 (30_encoding.md R73). -/
  | idUnicast (marker zero30 : BitVec 1) (port : BitVec 5) (zero22 : BitVec 1) (target source : BitVec 11)
deriving DecidableEq, Repr, Inhabited

/-- The operand ports of the command interface (30_encoding.md R82). Operations that name the same operand share its port:
a command presents all ports and its operation reads its own (log 14). -/
structure Ports where
  type : BitVec 8
  target : BitVec 32
  source : BitVec 32
  port : BitVec 8
  id : IdWord
  length : LenField
  payload : Payload
  enabled : Bool
  keepAwakeDuration : Time
  useControllerPin : Bool
  pinNumber : PinNum
deriving DecidableEq, Repr, Inhabited

/-- Every operand port at zero. -/
def Ports.zero : Ports :=
  ⟨0, 0, 0, 0, 0, 0, Vector.replicate 8 0, false, 0, false, 0⟩

/-- What can stand on the block's input: a command, that is a 4-bit code with its operand ports (30_encoding.md R80), or an
identifier word (30_encoding.md R70), the two encodings of the block. -/
inductive Presented where
  | command (op : BitVec 4) (ports : Ports)
  | idWord (w : IdWord)
deriving DecidableEq, Repr, Inhabited

/-- What the host does to the block: present an item, or assert the block's one reset (70_reset_and_hazards.md R230). -/
inductive HostItem where
  | present (p : Presented)
  | reset
deriving DecidableEq, Repr, Inhabited

end Sys2Proof
end

