-- ==== Sys2Proof/WellFormed.lean ====
section
/-! DEFINITION. Which instructions are within the contract: a length operand is 0..8 (spec/00_scope.md R8, spec/30_encoding.md
R82, spec/20_memory.md R53). Every other operand may hold any value of its width: ENCODE and SEND check theirs themselves. -/

namespace Sys2Proof

/-- A length operand inside the contract "`length: 0..8`" (20_memory.md R53). -/
def lengthInContract (length : LenField) : Bool := decide (length.toNat ≤ 8)

/-- The well-formed instructions. -/
def WellFormed : Instr → Bool
  | .dfCheck _ length _ => lengthInContract length
  | .send _ _ _ _ length _ => lengthInContract length
  | .encode _ _ _ _ => true
  | .decode _ => true
  | .sleep => true
  | .wake => true
  | .isSleeping => true
  | .maybeAutosleep => true
  | .setAutosleep _ _ => true
  | .setStbyPin _ _ => true
  | .receive => true
  | .idBroadcast _ _ _ _ _ => true
  | .idMulticast _ _ _ _ _ => true
  | .idReserved _ _ _ _ _ => true
  | .idUnicast _ _ _ _ _ _ => true

end Sys2Proof
end

