-- ==== Sys2Proof/Decode.lean ====
section
/-! DEFINITION. Decoding what stands on the block's input, and its inverse. The opcode table row by row, the command codes
(spec/30_encoding.md R80, R81, R86) and the identifier word's formats (spec/30_encoding.md R70 to R74). -/

namespace Sys2Proof

/-- Why the decoder answers no instruction. -/
inductive DecodeReject where
  /-- A reserved command code, 0x0 or 0xC..0xF (30_encoding.md R86). -/
  | reservedCode (op : BitVec 4)
deriving DecidableEq, Repr

/-- One row of spec/opcode_table.json: a word of `bits` bits belongs to the row when its bits under `mask` are `pattern`. -/
structure OpcodeRow where
  mnemonic : String
  bits : Nat
  mask : Nat
  pattern : Nat
deriving DecidableEq, Repr

/-- The command rows (30_encoding.md R81). -/
def commandRows : List OpcodeRow :=
  [⟨"ENCODE", 4, 0xF, 0x1⟩, ⟨"DECODE", 4, 0xF, 0x2⟩, ⟨"DF_CHECK", 4, 0xF, 0x3⟩, ⟨"SLEEP", 4, 0xF, 0x4⟩,
   ⟨"WAKE", 4, 0xF, 0x5⟩, ⟨"IS_SLEEPING", 4, 0xF, 0x6⟩, ⟨"MAYBE_AUTOSLEEP", 4, 0xF, 0x7⟩,
   ⟨"SET_AUTOSLEEP", 4, 0xF, 0x8⟩, ⟨"SET_STBY_PIN", 4, 0xF, 0x9⟩, ⟨"SEND", 4, 0xF, 0xA⟩, ⟨"RECEIVE", 4, 0xF, 0xB⟩]

/-- The identifier format rows (30_encoding.md R72 to R74): the type bits 29:28 alone tell them apart. -/
def idFormatRows : List OpcodeRow :=
  [⟨"ID.BROADCAST", 32, 0x30000000, 0x00000000⟩, ⟨"ID.MULTICAST", 32, 0x30000000, 0x10000000⟩,
   ⟨"ID.RESERVED", 32, 0x30000000, 0x20000000⟩, ⟨"ID.UNICAST", 32, 0x30000000, 0x30000000⟩]

/-- A word belongs to a row. -/
def OpcodeRow.accepts (r : OpcodeRow) (w : Nat) : Bool := w &&& r.mask == r.pattern

/-- The instruction a command code selects, its operands taken from its own ports (30_encoding.md R81, R82); the reserved
codes 0x0 and 0xC..0xF select none (R86). -/
def decodeCommand (op : BitVec 4) (p : Ports) : Except DecodeReject Instr :=
  match op.toNat with
  | 0x1 => .ok (.encode p.type p.target p.source p.port)
  | 0x2 => .ok (.decode p.id)
  | 0x3 => .ok (.dfCheck p.id p.length p.payload)
  | 0x4 => .ok .sleep
  | 0x5 => .ok .wake
  | 0x6 => .ok .isSleeping
  | 0x7 => .ok .maybeAutosleep
  | 0x8 => .ok (.setAutosleep p.enabled p.keepAwakeDuration)
  | 0x9 => .ok (.setStbyPin p.useControllerPin p.pinNumber)
  | 0xA => .ok (.send p.type p.target p.source p.port p.length p.payload)
  | 0xB => .ok .receive
  | _ => .error (.reservedCode op)

/-- The format an identifier word is in, by its type bits 29:28, with every bit of the word in a field of its own
(30_encoding.md R71 to R74). No word is refused (R84). -/
def decodeIdWord (w : IdWord) : Instr :=
  match (w.extractLsb' 28 2).toNat with
  | 0 => .idBroadcast (w.extractLsb' 31 1) (w.extractLsb' 30 1) (w.extractLsb' 27 1) (w.extractLsb' 11 16) (w.extractLsb' 0 11)
  | 1 => .idMulticast (w.extractLsb' 31 1) (w.extractLsb' 30 1) (w.extractLsb' 27 1) (w.extractLsb' 11 16) (w.extractLsb' 0 11)
  | 2 => .idReserved (w.extractLsb' 31 1) (w.extractLsb' 30 1) (w.extractLsb' 27 1) (w.extractLsb' 11 16) (w.extractLsb' 0 11)
  | _ => .idUnicast (w.extractLsb' 31 1) (w.extractLsb' 30 1) (w.extractLsb' 23 5) (w.extractLsb' 22 1)
      (w.extractLsb' 11 11) (w.extractLsb' 0 11)

/-- The decoder: total, and it rejects the reserved command codes by name (30_encoding.md R86). -/
def decode : Presented → Except DecodeReject Instr
  | .command op p => decodeCommand op p
  | .idWord w => .ok (decodeIdWord w)

/-- A group format word from its fields: marker, zero, type, zero, 16-bit target, source (30_encoding.md R74). -/
def groupWord (type : BitVec 2) (marker zero30 zero27 : BitVec 1) (target : BitVec 16) (source : BitVec 11) : IdWord :=
  marker ++ zero30 ++ type ++ zero27 ++ target ++ source

/-- A unicast format word from its fields: marker, zero, type 3, port, zero, 11-bit target, source (30_encoding.md R73). -/
def unicastWord (marker zero30 : BitVec 1) (port : BitVec 5) (zero22 : BitVec 1) (target source : BitVec 11) : IdWord :=
  marker ++ zero30 ++ 3#2 ++ port ++ zero22 ++ target ++ source

/-- The encoder: what the host presents for an instruction, the ports its operation does not read at zero (30_encoding.md
R81, R82), and an identifier word's bits in their places (R73, R74). -/
def encode : Instr → Presented
  | .encode type target source port =>
      .command 0x1#4 { Ports.zero with type := type, target := target, source := source, port := port }
  | .decode id => .command 0x2#4 { Ports.zero with id := id }
  | .dfCheck id length payload => .command 0x3#4 { Ports.zero with id := id, length := length, payload := payload }
  | .sleep => .command 0x4#4 Ports.zero
  | .wake => .command 0x5#4 Ports.zero
  | .isSleeping => .command 0x6#4 Ports.zero
  | .maybeAutosleep => .command 0x7#4 Ports.zero
  | .setAutosleep enabled keep => .command 0x8#4 { Ports.zero with enabled := enabled, keepAwakeDuration := keep }
  | .setStbyPin useControllerPin pinNumber =>
      .command 0x9#4 { Ports.zero with useControllerPin := useControllerPin, pinNumber := pinNumber }
  | .send type target source port length payload =>
      .command 0xA#4 { Ports.zero with
        type := type, target := target, source := source, port := port, length := length, payload := payload }
  | .receive => .command 0xB#4 Ports.zero
  | .idBroadcast marker zero30 zero27 target source => .idWord (groupWord 0#2 marker zero30 zero27 target source)
  | .idMulticast marker zero30 zero27 target source => .idWord (groupWord 1#2 marker zero30 zero27 target source)
  | .idReserved marker zero30 zero27 target source => .idWord (groupWord 2#2 marker zero30 zero27 target source)
  | .idUnicast marker zero30 port zero22 target source => .idWord (unicastWord marker zero30 port zero22 target source)

/-- A word of the opcode table's numbering as an item of the input: a word of at most 8 bits is a command code on `op[3:0]`
with every operand port zero, a longer one is an identifier word (log 14). -/
def tableItem (nbits w : Nat) : Presented :=
  if nbits ≤ 8 then .command (BitVec.ofNat 4 w) Ports.zero else .idWord (BitVec.ofNat 32 w)

/-- The instruction the decoder reads from a word of the opcode table. -/
def decodeTableWord (nbits w : Nat) : Option Instr :=
  match decode (tableItem nbits w) with
  | .ok i => some i
  | .error _ => none

end Sys2Proof
end

