-- ==== Sys2Proof/Config.lean ====
section
/-! DEFINITION. What an implementation fixes and what the spec leaves free: the value types on the block's wires, the static
configuration (spec/00_scope.md R8), the environment's turns, and the free values, each a constant without a body. -/

namespace Sys2Proof

/-- The message types in the order of their codes 0..3 (30_encoding.md R72). -/
inductive MsgType where
  | broadcast | multicast | reserved | unicast
deriving DecidableEq, Repr, Inhabited

/-- An AddressMeta (00_scope.md R16): a value on wires. `port` is two's complement, -1 for absent (30_encoding.md R79). -/
structure AddressMeta where
  type : MsgType
  target : BitVec 16
  source : BitVec 11
  port : BitVec 8
deriving DecidableEq, Repr, Inhabited

/-- A Frame as `P.readFrame` returns it (00_scope.md R16, 60_exceptions.md R202): the length is 0..8 by the premise on the
peripheral that R202 states, so it is held in that range. -/
structure Frame where
  identifier : IdWord
  length : Fin 9
  payload : Payload
deriving DecidableEq, Repr, Inhabited

/-- A Packet (00_scope.md R16); `addr` is its `meta`. Only the first `length` bytes are meaningful. -/
structure Packet where
  addr : AddressMeta
  length : LenField
  payload : Payload
deriving DecidableEq, Repr, Inhabited

/-- The LastFrameRecord (10_state.md section 3), as the type of `DF_RESET_RECORD` (00_scope.md R8). -/
structure LastFrameRecord where
  identifier : IdWord
  length : LenField
  payload : Payload
  timestamp : Time
deriving DecidableEq, Repr, Inhabited

/-- The static configuration (00_scope.md R8, 10_state.md R28, R33, R34): constant for the life of the instance. -/
structure Cfg where
  /-- `DUP_FILTER_ENABLED` -/
  dupFilterEnabled : Bool
  /-- `DUP_WINDOW_MS` -/
  dupWindowMs : Time
  /-- `WAKEUP_HS_ENABLED` -/
  wakeupHsEnabled : Bool
  /-- `WAKEUP_HS_DELAY` -/
  wakeupHsDelay : Time
  /-- `HS_ID` -/
  hsId : IdWord
  /-- `HS_EXT` -/
  hsExt : Bool
  /-- `HS_BYTE` -/
  hsByte : Byte
  /-- `STBY_LEVEL`; true is level 1 -/
  stbyLevel : Bool
  /-- `DF_RESET_RECORD` -/
  dfReset : LastFrameRecord
  /-- `PERIPH_SELF_WAKE` -/
  periphSelfWake : Bool
  /-- `SHARED_ACTIVITY` -/
  sharedActivity : Bool
deriving DecidableEq, Repr, Inhabited

/-- The two pin spaces: the peripheral's pins and the host's (20_memory.md R51). -/
inductive PinSpace where
  | ctrl | host
deriving DecidableEq, Repr, Inhabited

/-- The direction of a pin (10_state.md R40). -/
inductive PinDir where
  | input | output
deriving DecidableEq, Repr, Inhabited

/-- A pin: its direction, and the level it drives when it is an output (10_state.md R40). -/
structure Pin where
  direction : PinDir
  level : Bool
deriving DecidableEq, Repr, Inhabited

/-- One step the environment may take between two steps of the block (20_memory.md R58). -/
inductive EnvEvent where
  /-- The clock advances (60_exceptions.md R198); an advance past its last 32-bit value leaves the time premise, and the step it
  happens in is refused (00_scope.md R13, U6; log 10). -/
  | advance (ms : Nat)
  /-- The interrupt line takes a level, true is 1, inactive (60_exceptions.md R186, R187). -/
  | setLine (level : Bool)
  /-- A frame becomes available (60_exceptions.md R209). -/
  | arrive (f : Frame)
  /-- The peripheral rearranges its message buffers, whose management is its own (10_state.md R39, U13, U16; log 9). -/
  | rebuffer (q : List Frame)
  /-- The peripheral leaves sleep by itself, under `PERIPH_SELF_WAKE` (60_exceptions.md R208). -/
  | selfWake
  /-- Another instance's RECEIVE consumes the flag, under `SHARED_ACTIVITY` and only while the block is idle (60_exceptions.md R213). -/
  | otherConsume
deriving DecidableEq, Repr, Inhabited

/-- One turn of the environment: what it does before an environment call of the block, and how it answers that call. A turn
taken while the block is idle may bring the host's next item (log 2, log 16). -/
structure Turn where
  events : List EnvEvent
  /-- The answer of `P.sleep`, `P.wake`, `P.sendFrame` (true is OK), or whether `P.readFrame` succeeds. -/
  ok : Bool
  /-- Whether an errored `P.readFrame` consumed a frame (60_exceptions.md R202). -/
  consumed : Bool
  /-- What the host presents, read only while the block is idle and nothing is presented (10_state.md R22). -/
  item : Option HostItem
deriving DecidableEq, Repr, Inhabited

/-- FREE VALUE: the environment's turns that no script gives (log 2). -/
opaque Config.freeTurn : Nat → Turn

/-- FREE VALUE: the bytes RECEIVE leaves in the caller's buffer at index >= length (43_link_driver.md R170; log 18). -/
opaque Config.freePayload : Nat → Payload

/-- FREE VALUE: the packet result of a RECEIVE with `got = 0` (43_link_driver.md R170; log 18). -/
opaque Config.freePacket : Nat → Packet

/-- OPEN parameter `DUP_FILTER_ENABLED` of the instance `State.reset` describes (00_scope.md R8; log 6). -/
opaque Config.dupFilterEnabled : Bool

/-- OPEN parameter `WAKEUP_HS_ENABLED` (00_scope.md R8; log 6). -/
opaque Config.wakeupHsEnabled : Bool

/-- OPEN parameter `WAKEUP_HS_DELAY` (00_scope.md R8; log 6). -/
opaque Config.wakeupHsDelay : Time

/-- OPEN parameter `HS_ID` (00_scope.md R8; log 6). -/
opaque Config.hsId : IdWord

/-- OPEN parameter `HS_EXT` (00_scope.md R8; log 6). -/
opaque Config.hsExt : Bool

/-- OPEN parameter `HS_BYTE` (00_scope.md R8; log 6). -/
opaque Config.hsByte : Byte

/-- FREE VALUE: the host clock when the block is reset, "unspecified; any value" (10_state.md R43; log 7). -/
opaque Config.launchClock : Time

/-- FREE VALUE: what a pin is until a call of the block sets it, "unspecified" at reset (10_state.md R40, R43, U15; log 8). -/
opaque Config.launchPin : PinSpace → Nat → Pin

/-- `DF_RESET_RECORD` at its default, all zero (00_scope.md R8, 10_state.md R24 to R27; log 5). -/
def Config.defaultRecord : LastFrameRecord := ⟨0, 0, Vector.replicate 8 0, 0⟩

/-- The configuration of the instance `State.reset` describes: the spec's value or default where R8 has one, a free constant
where it has none (log 6). -/
def Config.static : Cfg where
  dupFilterEnabled := Config.dupFilterEnabled
  dupWindowMs := 20
  wakeupHsEnabled := Config.wakeupHsEnabled
  wakeupHsDelay := Config.wakeupHsDelay
  hsId := Config.hsId
  hsExt := Config.hsExt
  hsByte := Config.hsByte
  stbyLevel := true
  dfReset := Config.defaultRecord
  periphSelfWake := true
  sharedActivity := false

end Sys2Proof
end

