-- ==== Sys2Proof/Machine/State.lean ====
section
/-! DEFINITION. The state of the block and of its environment (spec/10_state.md R20 to R43), how a step can stop, and the state
after reset (spec/70_reset_and_hazards.md R230 to R233). -/

namespace Sys2Proof.Machine

/-- The block raises no trap and stops on no error: "There is no crash-on-error policy" (60_exceptions.md R180, R193). So no step
ends in a fault, and the type has no constructor (log 31). -/
inductive Fault where
deriving DecidableEq, Repr

/-- Why the machine gives a run no meaning: each is a case for which spec/93_implementation_defined.md prescribes `refuse`. -/
inductive Refusal where
  /-- Raised by `exec` for an instruction the model has no meaning for (none is left). Safe. -/
  | notModelled (mnemonic : String)
  /-- Raised by `step` for a reserved command code, 0x0 or 0xC..0xF (30_encoding.md R86, U8). Safe. -/
  | reservedCode (op : BitVec 4)
  /-- Raised by every meaning when an operation is in progress (10_state.md R22, U9). Safe. -/
  | busy
  /-- Raised by DF_CHECK and SEND for a length operand of 9..15 (20_memory.md R53, U7). Safe. -/
  | lengthOutOfContract (length : LenField)
  /-- Raised by MAYBE_AUTOSLEEP, and so by SET_AUTOSLEEP, SEND and RECEIVE, when it must compare with
  `lastActivityTimestamp + keepAwakeDuration` and the sum is 2^32 or more (00_scope.md R13, U6). Safe. -/
  | keepAwakeSumWraps
  /-- Raised by DF_CHECK, and so by RECEIVE with the filter on, when the clock is before the record's timestamp (00_scope.md R13,
  U6). Safe. -/
  | clockBeforeRecord
  /-- Raised by SEND when the handshake delay would carry the clock past 2^32 - 1 (00_scope.md R13, U6). Safe. -/
  | delayWraps
  /-- Raised by `step` when the run has left the time premise: the environment's clock wrapped, or was read below
  `DF_RESET_RECORD.timestamp` (00_scope.md R13, D10, U6; log 10). Safe. -/
  | outsideTimePremise
deriving DecidableEq, Repr

/-- A Result (00_scope.md R15). -/
inductive Result where
  | ok | fail
deriving DecidableEq, Repr, Inhabited

/-- The peripheral's mode (00_scope.md R16, 10_state.md R37). -/
inductive Mode where
  | awake | sleeping
deriving DecidableEq, Repr, Inhabited

/-- Where the standby pin is routed (10_state.md R35). -/
inductive PinRoute where
  | absent | ctrl | host
deriving DecidableEq, Repr, Inhabited

/-- A pin space of 256 pins: the pins a call has set, by number, strictly rising (20_memory.md R51); every other pin is as it was at
launch, `Config.launchPin` (log 8). -/
abbrev PinMap := List (Nat × Pin)

/-- One call on the environment with its arguments and its answer (10_state.md R42, 00_scope.md R14). A frame handed over is
recorded with the bytes that are meaningful, the first `length` ones. -/
inductive Call where
  | now (t : Time)
  | checkReceiveAvailable (available : Bool)
  | readFrame (answer : Option Frame)
  | sendFrame (identifier : IdWord) (isExtended : Bool) (length : LenField) (data : List Byte) (answer : Result)
  | sleep (answer : Result)
  | wake (answer : Result)
  | getMode (answer : Mode)
  | setPinMode (space : PinSpace) (pin : PinNum) (direction : PinDir)
  | digitalWrite (space : PinSpace) (pin : PinNum) (level : Bool)
  | intLine (level : Bool)
  | delay (ms : Time)
deriving DecidableEq, Repr, Inhabited

/-- The block's registers (10_state.md R23 to R36). -/
structure Block where
  activitySignal : Bool
  dfId : IdWord
  dfLen : LenField
  dfPayload : Payload
  dfTime : Time
  lastActivityTimestamp : Time
  keepAwakeDuration : Time
  autosleepEnabled : Bool
  stbyPinRoute : PinRoute
  stbyPinNumber : PinNum
deriving DecidableEq, Repr, Inhabited

/-- The environment's state (10_state.md R37 to R42): the mode, the line (true is 1), the receive queue, the pins, the clock, the
call history (oldest first). The MODEL's own fields: `script` holds the turns the environment is given to take next, `turns` numbers
the free ones after them (log 2), and `timeBroken` says that the run has left the time premise of 00_scope.md R13 (log 10). -/
structure Env where
  mode : Mode
  intLine : Bool
  rxQueue : List Frame
  ctrlPins : PinMap
  hostPins : PinMap
  clock : Time
  history : List Call
  script : List Turn
  turns : Nat
  timeBroken : Bool
deriving DecidableEq, Repr, Inhabited

/-- The sequencer's position: idle, or executing the operation of a code (10_state.md R21; log 13). -/
inductive Sequencer where
  | idle
  | executing (op : BitVec 4)
deriving DecidableEq, Repr, Inhabited

/-- The result ports of the operation that returned last (30_encoding.md R82). -/
inductive OpResult where
  | nothing
  | encode (id : IdWord) (valid : Bool)
  | decode (addr : AddressMeta)
  | dfCheck (accept : Bool)
  | sleep (result : Result)
  | wake (result : Result)
  | isSleeping (sleeping : Bool)
  | maybeAutosleep
  | setAutosleep
  | setStbyPin
  | send (success : Bool)
  | receive (got : Bool) (packet : Packet)
deriving DecidableEq, Repr, Inhabited

/-- The whole machine: the block's registers, its environment, its configuration, the sequencer, what the host presents, the result
ports, and the counter that numbers the free packet values (the MODEL's own field, log 18). -/
structure State where
  blk : Block
  env : Env
  cfg : Cfg
  seq : Sequencer
  presented : Option HostItem
  result : OpResult
  free : Nat
deriving DecidableEq, Repr, Inhabited

/-- The block's registers after reset (10_state.md R43, 70_reset_and_hazards.md R231), the record at `DF_RESET_RECORD`. -/
def Block.reset (record : LastFrameRecord) : Block where
  activitySignal := false
  dfId := record.identifier
  dfLen := record.length
  dfPayload := record.payload
  dfTime := record.timestamp
  lastActivityTimestamp := 0
  keepAwakeDuration := 0
  autosleepEnabled := false
  stbyPinRoute := .absent
  stbyPinNumber := 0

/-- The environment at a clean launch (70_reset_and_hazards.md R233; log 7, log 8): peripheral Awake, line inactive, nothing
available, any clock, every pin at its free launch value. -/
def Env.launch : Env where
  mode := .awake
  intLine := true
  rxQueue := []
  ctrlPins := []
  hostPins := []
  clock := Config.launchClock
  history := []
  script := []
  turns := 0
  timeBroken := false

/-- The machine right after reset, at a clean launch (70_reset_and_hazards.md R230, R231, R233). -/
def State.reset : State where
  blk := Block.reset Config.static.dfReset
  env := Env.launch
  cfg := Config.static
  seq := .idle
  presented := none
  result := .nothing
  free := 0

end Sys2Proof.Machine
end

