-- ==== Sys2Proof/Machine/Operands.lean ====
section
/-! DEFINITION. Operand forms and the pure computations on them: numbers read from operands, payload buffers, codes of the
enumerations, the codec's field arithmetic (spec/00_scope.md R9 to R12, spec/30_encoding.md R72 to R79). -/

namespace Sys2Proof.Machine

/-- `PORT_ABSENT` = -1, bit pattern 0xFF (30_encoding.md R79). -/
def portAbsent : BitVec 8 := 0xFF#8

/-- The type code of a message type (30_encoding.md R72). -/
def msgTypeCode : MsgType → BitVec 2
  | .broadcast => 0#2
  | .multicast => 1#2
  | .reserved => 2#2
  | .unicast => 3#2

/-- The message type of a type code (30_encoding.md R72). -/
def msgTypeOf (code : BitVec 2) : MsgType :=
  match code.toNat with
  | 0 => .broadcast
  | 1 => .multicast
  | 2 => .reserved
  | _ => .unicast

/-- The code of a pin route (10_state.md R35); 3 is unused. -/
def pinRouteCode : PinRoute → BitVec 2
  | .absent => 0
  | .ctrl => 1
  | .host => 2

/-- A Bool as a Result (00_scope.md R15). -/
def resultOf (ok : Bool) : Result := if ok then .ok else .fail

/-- The bytes `0 .. length-1` of one buffer over another's, whose bytes from `length` on stay: the byte loop of DF_CHECK
(41_duplicate_filter.md R120) and of RECEIVE (43_link_driver.md R170). -/
def overlay (length : Nat) (new old : Payload) : Payload :=
  Vector.ofFn fun i => if i.val < length then new[i] else old[i]

/-- Some byte of index `0 .. length-1` differs (41_duplicate_filter.md R122). -/
def payloadDiffers (length : Nat) (a b : Payload) : Bool :=
  (List.finRange 8).any fun i => decide (i.val < length) && a[i] != b[i]

/-- The meaningful bytes of a buffer: the first `length` (00_scope.md R16). -/
def meaningfulBytes (length : Nat) (payload : Payload) : List Byte := payload.toList.take length

/-- A frame's length as the value of a length field. -/
def frameLength (f : Frame) : LenField := BitVec.ofNat 4 f.length.val

/-- The marker bit of a word ENCODE produces, 0x80000000 (30_encoding.md R71). -/
def markerBit : IdWord := 0x80000000#32

/-- The range checks of ENCODE: an operand is out of its documented range (40_address_codec.md R100, R105). Types, targets and
sources compare unsigned, the port signed (00_scope.md R12). -/
def encodeFails (type : BitVec 8) (target source : BitVec 32) (port : BitVec 8) : Bool :=
  decide (type.toNat > 3)
    || (if type.toNat = 3 then
          decide (target.toNat > 0x7FF) || decide (port.toInt < 0) || decide (port.toInt > 0x1F)
        else decide (target.toNat > 0xFFFF))
    || decide (source.toNat > 0x7FF)

/-- The word ENCODE assembles once the checks have passed (30_encoding.md R78, 40_address_codec.md R100). -/
def assembleWord (type : BitVec 8) (target source : BitVec 32) (port : BitVec 8) : IdWord :=
  let w := markerBit ||| (type.setWidth 32 <<< 28) ||| (target <<< 11) ||| source
  if type.toNat = 3 then w ||| (port.setWidth 32 <<< 23) else w

/-- ENCODE's results, the word and `valid` (40_address_codec.md R100): the INVALID word 0 and 0 on failure (30_encoding.md R85). -/
def encodeAddress (type : BitVec 8) (target source : BitVec 32) (port : BitVec 8) : IdWord × Bool :=
  if encodeFails type target source port then (0#32, false) else (assembleWord type target source port, true)

/-- DECODE's results (40_address_codec.md R102, 30_encoding.md R77). -/
def decodeAddress (id : IdWord) : AddressMeta :=
  let type := msgTypeOf (((id >>> 28) &&& 0x3#32).setWidth 2)
  let source := (id &&& 0x7FF#32).setWidth 11
  let target := ((id >>> 11) &&& 0xFFFF#32).setWidth 16
  if type = .unicast then
    { type := type, target := target &&& 0x7FF#16, source := source, port := ((id >>> 23) &&& 0x1F#32).setWidth 8 }
  else
    { type := type, target := target, source := source, port := portAbsent }

end Sys2Proof.Machine
end

