-- ==== Sys2Proof/Machine/Flags.lean ====
section
/-! DEFINITION. The activity flag, the block's one flag that two agents write (spec/20_memory.md R56, spec/60_exceptions.md R187 to
R195), and the filter's and the policy's decisions. -/

namespace Sys2Proof.Machine

/-- Taking the activity interrupt: the flag is set, nothing is saved, nothing is redirected, no mode changes (60_exceptions.md
R187, R194). There is no return from it (R195). -/
def takeActivityInterrupt (_flag : Bool) : Bool := true

/-- The flag after the line goes from one level to another: a falling edge, 1 to 0, takes the interrupt; nothing else does
(60_exceptions.md R186, R187). -/
def flagAfterLine (old new flag : Bool) : Bool :=
  if old && !new then takeActivityInterrupt flag else flag

/-- The flag after RECEIVE's sample-and-clear: cleared if the sampled line is inactive, else kept (43_link_driver.md R168). -/
def flagAfterSample (line flag : Bool) : Bool := if line then false else flag

/-- The flag after another instance's RECEIVE: consumed if the line is inactive (60_exceptions.md R213). -/
def flagAfterOther (line flag : Bool) : Bool := if flag && line then false else flag

/-- The record and a frame agree in identifier, length and meaningful bytes (41_duplicate_filter.md R120, R122, R126). -/
def sameAsRecord (b : Block) (id : IdWord) (length : LenField) (payload : Payload) : Bool :=
  id == b.dfId && length == b.dfLen && !payloadDiffers length.toNat payload b.dfPayload

/-- The time since the last accepted frame exceeds the window, strictly (41_duplicate_filter.md R123). -/
def windowPassed (cfg : Cfg) (b : Block) (now : Time) : Bool :=
  decide (now.toNat - b.dfTime.toNat > cfg.dupWindowMs.toNat)

/-- DF_CHECK's decision (41_duplicate_filter.md R120, R121). -/
def acceptsFrame (cfg : Cfg) (b : Block) (now : Time) (id : IdWord) (length : LenField) (payload : Payload) : Bool :=
  !cfg.dupFilterEnabled || !sameAsRecord b id length payload || windowPassed cfg b now

/-- The elapsed time is outside the premise of 00_scope.md R13: the clock read is before the record's timestamp (U6). -/
def elapsedUndefined (b : Block) (now : Time) : Bool := decide (now.toNat < b.dfTime.toNat)

/-- The sum `lastActivityTimestamp + keepAwakeDuration` is outside the premise of 00_scope.md R13. -/
def keepAwakeWraps (b : Block) : Bool :=
  decide (b.lastActivityTimestamp.toNat + b.keepAwakeDuration.toNat ≥ 2 ^ 32)

/-- The idle time test of MAYBE_AUTOSLEEP, strict (42_power_controller.md R141, R142). -/
def idleTimePassed (b : Block) (now : Time) : Bool :=
  decide (now.toNat > b.lastActivityTimestamp.toNat + b.keepAwakeDuration.toNat)

end Sys2Proof.Machine
end

