-- ==== Sys2Proof/Machine/Ops.lean ====
section
/-! DEFINITION. The shared operations: pins, the environment's steps, the environment calls of spec/00_scope.md R14, driving the
standby pin, and the beginning and end of an operation. -/

namespace Sys2Proof.Machine

/-- What a pin of a space is: as it was set last, or as it was at launch (10_state.md R40; log 8). -/
def readPin (space : PinSpace) : PinMap → Nat → Pin
  | [], p => Config.launchPin space p
  | (q, v) :: rest, p => if p = q then v else readPin space rest p

/-- A pin space with one pin set, in canonical form (log 8). -/
def writePin : PinMap → Nat → Pin → PinMap
  | [], p, v => [(p, v)]
  | (q, w) :: rest, p, v =>
    if p < q then (p, v) :: (q, w) :: rest
    else if p = q then (p, v) :: rest
    else (q, w) :: writePin rest p v

/-- Every listed pin is above `low`. -/
def pinsAbove (low : Nat) (m : PinMap) : Bool := m.all fun e => decide (low < e.1)

/-- The canonical form: pin numbers strictly rising and below 256 (log 8). -/
def pinsWf : PinMap → Bool
  | [] => true
  | (q, _) :: rest => decide (q < 256) && pinsAbove q rest && pinsWf rest

/-- A pin space of the environment. -/
def pinsOf (e : Env) : PinSpace → PinMap
  | .ctrl => e.ctrlPins
  | .host => e.hostPins

/-- A pin of the environment. -/
def pinAt (e : Env) (space : PinSpace) (pin : PinNum) : Pin := readPin space (pinsOf e space) pin.toNat

/-- The environment with one pin of one space set. -/
def setPin (e : Env) (space : PinSpace) (pin : PinNum) (v : Pin) : Env :=
  match space with
  | .ctrl => { e with ctrlPins := writePin e.ctrlPins pin.toNat v }
  | .host => { e with hostPins := writePin e.hostPins pin.toNat v }

/-- The last value the clock can take (00_scope.md R13). -/
def clockLimit : Nat := 2 ^ 32 - 1

/-- An advance carries the clock past its last value: the run leaves the premise of 00_scope.md R13 (U6; log 10). -/
def clockWraps (clock : Time) (ms : Nat) : Bool := decide (clock.toNat + ms > clockLimit)

/-- The clock after it advanced (60_exceptions.md R198). Where it would wrap it stays at its last value, and the step is refused. -/
def advanceClock (clock : Time) (ms : Nat) : Time := BitVec.ofNat 32 (min (clock.toNat + ms) clockLimit)

/-- One step of the environment on its state and the flag (20_memory.md R58): it writes no other register of the block. `idle` is
whether the block is idle (60_exceptions.md R213). -/
def applyEvent (cfg : Cfg) (idle : Bool) (w : Env × Bool) : EnvEvent → Env × Bool
  | .advance ms =>
    ({ w.1 with clock := advanceClock w.1.clock ms, timeBroken := w.1.timeBroken || clockWraps w.1.clock ms }, w.2)
  | .setLine level => ({ w.1 with intLine := level }, flagAfterLine w.1.intLine level w.2)
  | .arrive f => ({ w.1 with rxQueue := w.1.rxQueue ++ [f] }, w.2)
  | .rebuffer q => ({ w.1 with rxQueue := q }, w.2)
  | .selfWake => ({ w.1 with mode := if cfg.periphSelfWake then .awake else w.1.mode }, w.2)
  | .otherConsume => (w.1, if cfg.sharedActivity && idle then flagAfterOther w.1.intLine w.2 else w.2)

/-- The environment's steps of one turn, in order. -/
def applyEvents (cfg : Cfg) (idle : Bool) : List EnvEvent → Env × Bool → Env × Bool
  | [], w => w
  | ev :: rest, w => applyEvents cfg idle rest (applyEvent cfg idle w ev)

/-- The environment's next turn: the first the script gives, else a free one (log 2). -/
def nextTurn (e : Env) : Turn :=
  match e.script with
  | t :: _ => t
  | [] => Config.freeTurn e.turns

/-- The environment with its next turn taken off. -/
def dropTurn (e : Env) : Env :=
  match e.script with
  | _ :: rest => { e with script := rest }
  | [] => { e with turns := e.turns + 1 }

/-- The environment and the flag after the steps of the next turn. -/
def worldAfterTurn (s : State) : Env × Bool :=
  applyEvents s.cfg (s.seq == .idle) (nextTurn s.env).events (dropTurn s.env, s.blk.activitySignal)

/-- The environment steps (20_memory.md R58): it takes its next turn's steps, before a call of the block or while the block is idle. -/
def envSteps (s : State) : State :=
  { s with
    env := (worldAfterTurn s).1
    blk := { s.blk with activitySignal := (worldAfterTurn s).2 } }

/-- Append a call to the history (10_state.md R42). -/
def record (c : Call) (s : State) : State := { s with env := { s.env with history := s.env.history ++ [c] } }

/-- The peripheral's mode set (10_state.md R37). -/
def setMode (m : Mode) (s : State) : State := { s with env := { s.env with mode := m } }

/-- The receive queue set (10_state.md R39). -/
def setQueue (q : List Frame) (s : State) : State := { s with env := { s.env with rxQueue := q } }

/-- The clock set (10_state.md R41). -/
def setClock (c : Time) (s : State) : State := { s with env := { s.env with clock := c } }

/-- The activity flag set to a value (10_state.md R23). -/
def setFlag (f : Bool) (s : State) : State := { s with blk := { s.blk with activitySignal := f } }

/-- One pin of one space set (10_state.md R40). -/
def setPinState (space : PinSpace) (pin : PinNum) (v : Pin) (s : State) : State := { s with env := setPin s.env space pin v }

/-- A clock read below `DF_RESET_RECORD.timestamp` leaves the time premise (U6, 70_reset_and_hazards.md R233 (e); log 10). -/
def checkRead (s : State) : State :=
  { s with env := { s.env with
      timeBroken := s.env.timeBroken || decide (s.env.clock.toNat < s.cfg.dfReset.timestamp.toNat) } }

/-- `Now()` (60_exceptions.md R197). -/
def now (s : State) : Time × State :=
  let s1 := envSteps s
  (s1.env.clock, record (.now s1.env.clock) (checkRead s1))

/-- `P.checkReceiveAvailable()` (60_exceptions.md R201, 10_state.md R39): something is in the queue. -/
def checkReceiveAvailable (s : State) : Bool × State :=
  let s1 := envSteps s
  (!s1.env.rxQueue.isEmpty, record (.checkReceiveAvailable (!s1.env.rxQueue.isEmpty)) s1)

/-- What `P.readFrame()` answers: the head of the queue, or an error when the turn says so or nothing is there (60_exceptions.md
R202; log 9). -/
def readAnswer (ok : Bool) : List Frame → Option Frame
  | [] => none
  | f :: _ => if ok then some f else none

/-- The queue after `P.readFrame()`: a success consumes the head, an error may or may not (60_exceptions.md R202). -/
def queueAfterRead (ok consumed : Bool) : List Frame → List Frame
  | [] => []
  | f :: rest => if ok || consumed then rest else f :: rest

/-- `P.readFrame()` (60_exceptions.md R202). -/
def readFrame (s : State) : Option Frame × State :=
  let t := nextTurn s.env
  let s1 := envSteps s
  (readAnswer t.ok s1.env.rxQueue,
    record (.readFrame (readAnswer t.ok s1.env.rxQueue)) (setQueue (queueAfterRead t.ok t.consumed s1.env.rxQueue) s1))

/-- `P.sendFrame(identifier, isExtended, length, payload)` (60_exceptions.md R203): the answer is the environment's. -/
def sendFrame (id : IdWord) (ext : Bool) (length : LenField) (data : List Byte) (s : State) : Result × State :=
  let r := resultOf (nextTurn s.env).ok
  (r, record (.sendFrame id ext length data r) (envSteps s))

/-- The mode after `P.sleep()` (60_exceptions.md R204). -/
def modeAfterSleep (r : Result) (m : Mode) : Mode := if r = .ok then .sleeping else m

/-- The mode after `P.wake()` (60_exceptions.md R205). -/
def modeAfterWake (r : Result) (m : Mode) : Mode := if r = .ok then .awake else m

/-- `P.sleep()` (60_exceptions.md R204). -/
def periphSleep (s : State) : Result × State :=
  let r := resultOf (nextTurn s.env).ok
  let s1 := envSteps s
  (r, record (.sleep r) (setMode (modeAfterSleep r s1.env.mode) s1))

/-- `P.wake()` (60_exceptions.md R205). -/
def periphWake (s : State) : Result × State :=
  let r := resultOf (nextTurn s.env).ok
  let s1 := envSteps s
  (r, record (.wake r) (setMode (modeAfterWake r s1.env.mode) s1))

/-- `P.getMode()` (60_exceptions.md R206). -/
def getMode (s : State) : Mode × State :=
  let s1 := envSteps s
  (s1.env.mode, record (.getMode s1.env.mode) s1)

/-- `P.setPinMode` and `H.setPinMode` (60_exceptions.md R207, R210). It takes effect in every mode of the peripheral, which R207
leaves open: the model's choice (log 23). The level the pin has is kept until it is written (log 8). -/
def setPinMode (space : PinSpace) (pin : PinNum) (dir : PinDir) (s : State) : State :=
  let s1 := envSteps s
  record (.setPinMode space pin dir)
    (setPinState space pin { pinAt s1.env space pin with direction := dir } s1)

/-- `P.digitalWrite` and `H.digitalWrite` (60_exceptions.md R207, R210): in every mode of the peripheral (log 23). -/
def digitalWrite (space : PinSpace) (pin : PinNum) (level : Bool) (s : State) : State :=
  let s1 := envSteps s
  record (.digitalWrite space pin level)
    (setPinState space pin { pinAt s1.env space pin with level := level } s1)

/-- RECEIVE's sample of the line and its conditional clear, one atomic step (20_memory.md R56, 43_link_driver.md R168). -/
def sampleAndClear (s : State) : State :=
  let s1 := envSteps s
  record (.intLine s1.env.intLine) (setFlag (flagAfterSample s1.env.intLine s1.blk.activitySignal) s1)

/-- The clock after a delay that began at `before`: at least `d` later (60_exceptions.md R199). -/
def clockAfterDelay (before d clock : Time) : Time := BitVec.ofNat 32 (max clock.toNat (before.toNat + d.toNat))

/-- `Delay(d)` (00_scope.md R14, 60_exceptions.md R199): the environment steps freely, and the clock is at least `d` later. A delay
that would carry the clock past its last value is outside the premise of R13. -/
def delay (d : Time) (s : State) : Except Refusal State :=
  if s.env.clock.toNat + d.toNat > clockLimit then .error .delayWraps
  else
    let s1 := envSteps s
    .ok (record (.delay d) (setClock (clockAfterDelay s.env.clock d s1.env.clock) s1))

/-- `DrivePin(level)` (42_power_controller.md R135). -/
def drivePin (level : Bool) (s : State) : State :=
  match s.blk.stbyPinRoute with
  | .absent => s
  | .ctrl => digitalWrite .ctrl s.blk.stbyPinNumber level s
  | .host => digitalWrite .host s.blk.stbyPinNumber level s

/-- `ACTIVE_LEVEL = 1 - STBY_LEVEL` (42_power_controller.md R135). -/
def activeLevel (cfg : Cfg) : Bool := !cfg.stbyLevel

/-- The sequencer begins the operation of a code (10_state.md R21). -/
def beginOp (op : BitVec 4) (s : State) : State := { s with seq := .executing op }

/-- A `return` step: the sequencer is idle again and the results are on the result ports (60_exceptions.md R193, 00_scope.md R14). -/
def finish (r : OpResult) (s : State) : State := { s with seq := .idle, result := r }

/-- An operation is issued only when the block is idle; otherwise the command is refused (10_state.md R22). -/
def whenIdle (op : BitVec 4) (s : State) (run : State → Host.Outcome State Fault Refusal) : Host.Outcome State Fault Refusal :=
  match s.seq with
  | .idle => run (beginOp op s)
  | .executing _ => .refused .busy

/-- The outcome of an operation that the time premise may stop (00_scope.md R13). -/
def outcomeOf (r : Except Refusal State) : Host.Outcome State Fault Refusal :=
  match r with
  | .ok s => .next s
  | .error e => .refused e

/-- The block's reset (70_reset_and_hazards.md R230 to R232): its registers at their reset values and the sequencer idle; nothing of
the environment changes, no call is made. -/
def blockReset (s : State) : State :=
  { s with blk := Block.reset s.cfg.dfReset, seq := .idle, presented := none, result := .nothing }

end Sys2Proof.Machine
end

