-- ==== Sys2Proof/Machine/AddressCodec.lean ====
section
/-! DEFINITION. AddressCodec: ENCODE and DECODE (spec/40_address_codec.md). Both are pure: no state, no call (R107). -/

namespace Sys2Proof.Machine

/-- ENCODE (40_address_codec.md R100). -/
def execEncode (type : BitVec 8) (target source : BitVec 32) (port : BitVec 8) (s : State) : Host.Outcome State Fault Refusal :=
  whenIdle 0x1#4 s fun s =>
    let e := encodeAddress type target source port
    .next (finish (.encode e.1 e.2) s)

/-- DECODE (40_address_codec.md R102). -/
def execDecode (id : IdWord) (s : State) : Host.Outcome State Fault Refusal :=
  whenIdle 0x2#4 s fun s => .next (finish (.decode (decodeAddress id)) s)

end Sys2Proof.Machine
end

