-- ==== Sys2Proof/Machine/IdentifierFormats.lean ====
section
/-! DEFINITION. The identifier word's formats as rows of the opcode table (spec/30_encoding.md R73, R74): a word of a format is read
as the row "DECODE reads" of its table says, its results on DECODE's ports (log 15). The ignored bits are arguments that no
meaning looks at. -/

namespace Sys2Proof.Machine

/-- A group format word as DECODE reads it: type, 16-bit target, source, no port (30_encoding.md R74). -/
def groupAddress (type : MsgType) (target : BitVec 16) (source : BitVec 11) : AddressMeta :=
  { type := type, target := target, source := source, port := portAbsent }

/-- A unicast format word as DECODE reads it: 11-bit target and 5-bit port, zero-extended (30_encoding.md R73, R77). -/
def unicastAddress (port : BitVec 5) (target source : BitVec 11) : AddressMeta :=
  { type := .unicast, target := target.setWidth 16, source := source, port := port.setWidth 8 }

/-- ID.BROADCAST (30_encoding.md R74). -/
def execIdBroadcast (target : BitVec 16) (source : BitVec 11) (s : State) : Host.Outcome State Fault Refusal :=
  whenIdle 0x2#4 s fun s => .next (finish (.decode (groupAddress .broadcast target source)) s)

/-- ID.MULTICAST (30_encoding.md R74). -/
def execIdMulticast (target : BitVec 16) (source : BitVec 11) (s : State) : Host.Outcome State Fault Refusal :=
  whenIdle 0x2#4 s fun s => .next (finish (.decode (groupAddress .multicast target source)) s)

/-- ID.RESERVED (30_encoding.md R74, R83). -/
def execIdReserved (target : BitVec 16) (source : BitVec 11) (s : State) : Host.Outcome State Fault Refusal :=
  whenIdle 0x2#4 s fun s => .next (finish (.decode (groupAddress .reserved target source)) s)

/-- ID.UNICAST (30_encoding.md R73). -/
def execIdUnicast (port : BitVec 5) (target source : BitVec 11) (s : State) : Host.Outcome State Fault Refusal :=
  whenIdle 0x2#4 s fun s => .next (finish (.decode (unicastAddress port target source)) s)

end Sys2Proof.Machine
end

