-- ==== Sys2Proof/Machine/DuplicateFilter.lean ====
section
/-! DEFINITION. DuplicateFilter: DF_CHECK (spec/41_duplicate_filter.md). -/

namespace Sys2Proof.Machine

/-- The record overwritten by an accepted frame; bytes of index >= length stay (41_duplicate_filter.md R124, 10_state.md R26; log 17). -/
def overwriteRecord (b : Block) (now : Time) (id : IdWord) (length : LenField) (payload : Payload) : Block :=
  { b with dfId := id, dfLen := length, dfPayload := overlay length.toNat payload b.dfPayload, dfTime := now }

/-- The registers after DF_CHECK: overwritten on acceptance, untouched on rejection (41_duplicate_filter.md R124, R125). -/
def checkedBlock (accept : Bool) (b : Block) (n : Time) (id : IdWord) (length : LenField) (payload : Payload) : Block :=
  if accept then overwriteRecord b n id length payload else b

/-- DF_CHECK as an operation or as a sub-sequence of RECEIVE (41_duplicate_filter.md R120): `accept`, and the state after. -/
def dfCheckOp (id : IdWord) (length : LenField) (payload : Payload) (s : State) : Except Refusal (Bool × State) :=
  let n := now s
  let accept := acceptsFrame n.2.cfg n.2.blk n.1 id length payload
  if elapsedUndefined n.2.blk n.1 then .error .clockBeforeRecord
  else .ok (accept, { n.2 with blk := checkedBlock accept n.2.blk n.1 id length payload })

/-- DF_CHECK (41_duplicate_filter.md R120, R127 (g)). -/
def execDfCheck (id : IdWord) (length : LenField) (payload : Payload) (s : State) : Host.Outcome State Fault Refusal :=
  whenIdle 0x3#4 s fun s =>
    if lengthInContract length then
      outcomeOf ((dfCheckOp id length payload s).map fun r => finish (.dfCheck r.1) r.2)
    else .refused (.lengthOutOfContract length)

end Sys2Proof.Machine
end

