-- ==== Sys2Proof/Machine/PowerController.lean ====
section
/-! DEFINITION. PowerController: SLEEP, WAKE, IS_SLEEPING, MAYBE_AUTOSLEEP, SET_AUTOSLEEP, SET_STBY_PIN
(spec/42_power_controller.md). Each `…Op` is the operation as a sub-sequence (spec/30_encoding.md R88); each `exec…` the command. -/

namespace Sys2Proof.Machine

/-- IS_SLEEPING (42_power_controller.md R140). -/
def isSleepingOp (s : State) : Bool × State :=
  let m := getMode s
  (m.1 == .sleeping, m.2)

/-- SLEEP (42_power_controller.md R136). -/
def sleepOp (s : State) : Result × State :=
  let q := isSleepingOp s
  if q.1 then (.ok, q.2)
  else
    let r := periphSleep q.2
    if r.1 = .ok then (.ok, drivePin r.2.cfg.stbyLevel r.2) else (.fail, r.2)

/-- The state after WAKE's first step, the refreshed timestamp (42_power_controller.md R138). -/
def refreshActivity (s : State) : State :=
  let n := now s
  { n.2 with blk := { n.2.blk with lastActivityTimestamp := n.1 } }

/-- WAKE (42_power_controller.md R138). -/
def wakeOp (s : State) : Result × State :=
  let r := periphWake (refreshActivity s)
  if r.1 = .ok then (.ok, drivePin (activeLevel r.2.cfg) r.2) else (.fail, r.2)

/-- MAYBE_AUTOSLEEP (42_power_controller.md R141): enable, availability, time, then SLEEP with its result discarded. -/
def maybeAutosleepOp (s : State) : Except Refusal State :=
  if s.blk.autosleepEnabled then
    let a := checkReceiveAvailable s
    if a.1 then .ok a.2
    else
      let n := now a.2
      if keepAwakeWraps n.2.blk then .error .keepAwakeSumWraps
      else if idleTimePassed n.2.blk n.1 then .ok (sleepOp n.2).2
      else .ok n.2
  else .ok s

/-- The policy registers written (42_power_controller.md R143). -/
def setPolicy (enabled : Bool) (keep : Time) (s : State) : State :=
  { s with blk := { s.blk with autosleepEnabled := enabled, keepAwakeDuration := keep } }

/-- The route and the number of the standby pin written (42_power_controller.md R145). -/
def setStbyRegisters (useControllerPin : Bool) (pin : PinNum) (s : State) : State :=
  { s with blk := { s.blk with stbyPinRoute := if useControllerPin then .ctrl else .host, stbyPinNumber := pin } }

/-- SET_STBY_PIN (42_power_controller.md R145). -/
def setStbyPinOp (useControllerPin : Bool) (pin : PinNum) (s : State) : State :=
  let s1 := setPinMode (if useControllerPin then .ctrl else .host) pin .output (setStbyRegisters useControllerPin pin s)
  let q := isSleepingOp s1
  if q.1 then drivePin q.2.cfg.stbyLevel q.2 else drivePin (activeLevel q.2.cfg) q.2

/-- SLEEP (42_power_controller.md R136). -/
def execSleep (s : State) : Host.Outcome State Fault Refusal :=
  whenIdle 0x4#4 s fun s =>
    let r := sleepOp s
    .next (finish (.sleep r.1) r.2)

/-- WAKE (42_power_controller.md R138). -/
def execWake (s : State) : Host.Outcome State Fault Refusal :=
  whenIdle 0x5#4 s fun s =>
    let r := wakeOp s
    .next (finish (.wake r.1) r.2)

/-- IS_SLEEPING (42_power_controller.md R140). -/
def execIsSleeping (s : State) : Host.Outcome State Fault Refusal :=
  whenIdle 0x6#4 s fun s =>
    let r := isSleepingOp s
    .next (finish (.isSleeping r.1) r.2)

/-- MAYBE_AUTOSLEEP (42_power_controller.md R141). -/
def execMaybeAutosleep (s : State) : Host.Outcome State Fault Refusal :=
  whenIdle 0x7#4 s fun s => outcomeOf ((maybeAutosleepOp s).map (finish .maybeAutosleep))

/-- SET_AUTOSLEEP (42_power_controller.md R143). -/
def execSetAutosleep (enabled : Bool) (keepAwakeDuration : Time) (s : State) : Host.Outcome State Fault Refusal :=
  whenIdle 0x8#4 s fun s => outcomeOf ((maybeAutosleepOp (setPolicy enabled keepAwakeDuration s)).map (finish .setAutosleep))

/-- SET_STBY_PIN (42_power_controller.md R145). -/
def execSetStbyPin (useControllerPin : Bool) (pinNumber : PinNum) (s : State) : Host.Outcome State Fault Refusal :=
  whenIdle 0x9#4 s fun s => .next (finish .setStbyPin (setStbyPinOp useControllerPin pinNumber s))

end Sys2Proof.Machine
end

