-- ==== Sys2Proof/Machine/LinkDriver.lean ====
section
/-! DEFINITION. LinkDriver: SEND and RECEIVE (spec/43_link_driver.md). -/

namespace Sys2Proof.Machine

/-- S3 and S4 of SEND, the wakeup handshake and its delay (43_link_driver.md R162): false when the handshake frame failed, which ends
the operation. -/
def handshakeOp (s : State) : Except Refusal (Bool × State) :=
  if s.cfg.wakeupHsEnabled then
    let h := sendFrame s.cfg.hsId s.cfg.hsExt 1 [s.cfg.hsByte] s
    if h.1 = .ok then (delay h.2.cfg.wakeupHsDelay h.2).map fun s1 => (true, s1)
    else .ok (false, h.2)
  else .ok (true, s)

/-- S5 to S7 of SEND: the real frame, the autosleep check whatever the answer, and `success` (43_link_driver.md R163). -/
def sendRealFrame (id : IdWord) (length : LenField) (payload : Payload) (s : State) : Except Refusal (Bool × State) :=
  let r := sendFrame id true length (meaningfulBytes length.toNat payload) s
  (maybeAutosleepOp r.2).map fun s1 => (r.1 == .ok, s1)

/-- S2 to S7 of SEND, for an address that has encoded (43_link_driver.md R160, R161). -/
def transmitOp (id : IdWord) (length : LenField) (payload : Payload) (s : State) : Except Refusal (Bool × State) :=
  match handshakeOp (wakeOp s).2 with
  | .error e => .error e
  | .ok (false, s1) => .ok (false, s1)
  | .ok (true, s1) => sendRealFrame id length payload s1

/-- SEND (43_link_driver.md R160): S1, then the rest if the address encodes. -/
def sendOp (type : BitVec 8) (target source : BitVec 32) (port : BitVec 8) (length : LenField) (payload : Payload) (s : State) :
    Except Refusal (Bool × State) :=
  let e := encodeAddress type target source port
  if e.2 then transmitOp e.1 length payload s else .ok (false, s)

/-- SEND (43_link_driver.md R160, R164 (d)). -/
def execSend (type : BitVec 8) (target source : BitVec 32) (port : BitVec 8) (length : LenField) (payload : Payload) (s : State) :
    Host.Outcome State Fault Refusal :=
  whenIdle 0xA#4 s fun s =>
    if lengthInContract length then
      outcomeOf ((sendOp type target source port length payload s).map fun r => finish (.send r.1) r.2)
    else .refused (.lengthOutOfContract length)

/-- R1 of RECEIVE: a set flag wakes, and is cleared if the line is inactive (43_link_driver.md R168). -/
def consumeActivity (s : State) : State :=
  if s.blk.activitySignal then sampleAndClear (wakeOp s).2 else s

/-- R4 of RECEIVE: the duplicate check, skipped when the filter is disabled (43_link_driver.md R169). -/
def receiveFilter (f : Frame) (s : State) : Except Refusal (Bool × State) :=
  if s.cfg.dupFilterEnabled then dfCheckOp f.identifier (frameLength f) f.payload s else .ok (true, s)

/-- The next free packet value's number is used up (log 18). -/
def useFree (s : State) : State := { s with free := s.free + 1 }

/-- `got = 0`: the packet result is unspecified (43_link_driver.md R170; log 18). -/
def noPacket (s : State) : OpResult × State := (.receive false (Config.freePacket s.free), useFree s)

/-- R5 and R6 of RECEIVE: the packet, its bytes of index >= length free (43_link_driver.md R170; log 18). -/
def packetOf (f : Frame) (s : State) : Packet where
  addr := decodeAddress f.identifier
  length := frameLength f
  payload := overlay f.length.val f.payload (Config.freePayload s.free)

/-- R4 to R6 of RECEIVE, for a frame that was read (43_link_driver.md R166). -/
def deliverOp (f : Frame) (s : State) : Except Refusal (OpResult × State) :=
  (receiveFilter f s).map fun a => if a.1 then (.receive true (packetOf f a.2), useFree a.2) else noPacket a.2

/-- R2 to R6 of RECEIVE (43_link_driver.md R166, R167). -/
def pollOp (s : State) : Except Refusal (OpResult × State) :=
  let a := checkReceiveAvailable s
  if a.1 then
    let f := readFrame a.2
    match f.1 with
    | none => .ok (noPacket f.2)
    | some frame => deliverOp frame f.2
  else (maybeAutosleepOp a.2).map noPacket

/-- RECEIVE (43_link_driver.md R166). -/
def execReceive (s : State) : Host.Outcome State Fault Refusal :=
  whenIdle 0xB#4 s fun s => outcomeOf ((pollOp (consumeActivity s)).map fun r => finish r.1 r.2)

end Sys2Proof.Machine
end

