-- ==== Sys2Proof/Machine/Dispatch.lean ====
section
/-! DEFINITION. One arm per constructor of Instr. -/

namespace Sys2Proof.Machine

def exec (i : Instr) (s : State) : Host.Outcome State Fault Refusal :=
  match i with
  | .encode type target source port => Sys2Proof.Machine.execEncode type target source port s
  | .decode id => Sys2Proof.Machine.execDecode id s
  | .dfCheck id length payload => Sys2Proof.Machine.execDfCheck id length payload s
  | .sleep => Sys2Proof.Machine.execSleep s
  | .wake => Sys2Proof.Machine.execWake s
  | .isSleeping => Sys2Proof.Machine.execIsSleeping s
  | .maybeAutosleep => Sys2Proof.Machine.execMaybeAutosleep s
  | .setAutosleep enabled keepAwakeDuration => Sys2Proof.Machine.execSetAutosleep enabled keepAwakeDuration s
  | .setStbyPin useControllerPin pinNumber => Sys2Proof.Machine.execSetStbyPin useControllerPin pinNumber s
  | .send type target source port length payload => Sys2Proof.Machine.execSend type target source port length payload s
  | .receive => Sys2Proof.Machine.execReceive s
  | .idBroadcast _ _ _ target source => Sys2Proof.Machine.execIdBroadcast target source s
  | .idMulticast _ _ _ target source => Sys2Proof.Machine.execIdMulticast target source s
  | .idReserved _ _ _ target source => Sys2Proof.Machine.execIdReserved target source s
  | .idUnicast _ _ port _ target source => Sys2Proof.Machine.execIdUnicast port target source s

end Sys2Proof.Machine
end

