-- ==== Sys2Proof/Machine/Step.lean ====
section
/-! DEFINITION. One step of the machine: the environment steps while the block is idle and the host may present an item
(spec/10_state.md R22, spec/20_memory.md R58), then the item presented is executed. -/

namespace Sys2Proof.Machine

/-- The beginning of a step: the environment takes a turn, and an idle block with nothing presented may be given the turn's item
(10_state.md R22; log 16). -/
def beginStep (s : State) : State :=
  { envSteps s with presented := s.presented.or (if s.seq = .idle then (nextTurn s.env).item else none) }

/-- The presented item taken off the interface. -/
def takeItem (s : State) : State := { s with presented := none }

/-- What becomes of an item (30_encoding.md R80, R86; 70_reset_and_hazards.md R230). -/
def runItem (item : HostItem) (s : State) : Host.Outcome State Fault Refusal :=
  match item with
  | .reset => .next (blockReset s)
  | .present p =>
    match decode p with
    | .ok i => exec i (takeItem s)
    | .error (.reservedCode op) => .refused (.reservedCode op)

/-- A step in which the run left the time premise is refused (00_scope.md R13, U6; log 10). -/
def withinTime (o : Host.Outcome State Fault Refusal) : Host.Outcome State Fault Refusal :=
  match o with
  | .next t => if t.env.timeBroken then .refused .outsideTimePremise else .next t
  | .fault f => .fault f
  | .refused r => .refused r

/-- One step. With nothing presented the block waits (70_reset_and_hazards.md R230). -/
def step (s : State) : Host.Outcome State Fault Refusal :=
  match (beginStep s).presented with
  | none => withinTime (.next (beginStep s))
  | some item => withinTime (runItem item (beginStep s))

/-- A turn in which the environment takes no step and answers OK. -/
def quietTurn : Turn := ⟨[], true, true, none⟩

/-- The state with a word of the opcode table presented as the next item, and quiet turns for the step's own turn and the at most
eleven calls of an operation, so that the environment does not carry the clock out of the time premise (log 14, log 16). -/
def State.withFetchWord (s : State) (nbits w : Nat) : State :=
  { s with
    presented := some (.present (tableItem nbits w))
    env := { s.env with script := List.replicate 12 quietTurn } }

end Sys2Proof.Machine
end

