-- ==== Sys2Proof/Safety.lean ====
section
/-! DEFINITION. What claims are stated in: the invariants of the machine, what an operation leaves alone, the calls it makes on its
environment, and the premises under which nothing wraps (spec/00_scope.md R13, spec/70_reset_and_hazards.md R233). -/

namespace Sys2Proof.Machine

/-- The invariant of the machine between operations: the sequencer is idle (10_state.md R21), the lengths held are 0..8
(10_state.md R25), no timestamp held is after the clock and the run is within the time premise (00_scope.md R13,
70_reset_and_hazards.md R233 (e)), and both pin spaces are in canonical form (log 8). -/
structure Inv (s : State) : Prop where
  idle : s.seq = .idle
  recordLength : s.blk.dfLen.toNat ≤ 8
  resetLength : s.cfg.dfReset.length.toNat ≤ 8
  recordTime : s.blk.dfTime.toNat ≤ s.env.clock.toNat
  resetTime : s.cfg.dfReset.timestamp.toNat ≤ s.env.clock.toNat
  activityTime : s.blk.lastActivityTimestamp.toNat ≤ s.env.clock.toNat
  inTime : s.env.timeBroken = false
  ctrlPins : pinsWf s.env.ctrlPins = true
  hostPins : pinsWf s.env.hostPins = true

/-- The standby pin the registers name, if one is configured (10_state.md R35, R36). -/
def standbyPin (b : Block) : Option (PinSpace × PinNum) :=
  match b.stbyPinRoute with
  | .absent => none
  | .ctrl => some (.ctrl, b.stbyPinNumber)
  | .host => some (.host, b.stbyPinNumber)

/-- The level a pin drives when it is an output (10_state.md R40). -/
def pinLevel (e : Env) (pin : PinSpace × PinNum) : Bool := (pinAt e pin.1 pin.2).level

/-- The direction of a pin (10_state.md R40). -/
def pinDirection (e : Env) (pin : PinSpace × PinNum) : PinDir := (pinAt e pin.1 pin.2).direction

/-- The level the standby pin should have in a mode (42_power_controller.md R135, R145). -/
def levelFor (cfg : Cfg) (m : Mode) : Bool := if m = .sleeping then cfg.stbyLevel else activeLevel cfg

/-- The pin agrees with the mode: a configured standby pin is at the standby level exactly when the peripheral sleeps
(42_power_controller.md R148). -/
def PinAgrees (s : State) : Prop :=
  ∀ pin, standbyPin s.blk = some pin → pinLevel s.env pin = levelFor s.cfg s.env.mode

/-- The environment's next `n` turns are given by its script and take no step: nothing but the answers is open (log 2). -/
def calm (s : State) (n : Nat) : Prop :=
  n ≤ s.env.script.length ∧ ∀ t ∈ s.env.script.take n, t.events = []

/-- The block's registers are the same but for the activity flag, which the environment may write as well (20_memory.md R56, R58). -/
def SameRegisters (b c : Block) : Prop := c = { b with activitySignal := c.activitySignal }

/-- The LastFrameRecord of a block (10_state.md section 3). -/
def recordOf (b : Block) : LastFrameRecord := ⟨b.dfId, b.dfLen, b.dfPayload, b.dfTime⟩

/-- A set activity flag stays set. -/
def FlagKept (s t : State) : Prop := s.blk.activitySignal = true → t.blk.activitySignal = true

/-- What every operation leaves alone: the configuration (10_state.md R28, R33, R34) and what is presented; the sequencer ends idle
(60_exceptions.md R193), and the clock has not gone back (60_exceptions.md R198). -/
structure OutsideKept (s t : State) : Prop where
  cfg : t.cfg = s.cfg
  presented : t.presented = s.presented
  seq : t.seq = .idle
  clock : s.env.clock.toNat ≤ t.env.clock.toNat

/-- No pin has changed. -/
def PinsKept (s t : State) : Prop := t.env.ctrlPins = s.env.ctrlPins ∧ t.env.hostPins = s.env.hostPins

/-- Every pin but one has kept its direction and its level. -/
def PinsKeptBut (pin : Option (PinSpace × PinNum)) (s t : State) : Prop :=
  ∀ space p, pin ≠ some (space, p) → pinAt t.env space p = pinAt s.env space p

/-- The calls an operation appended to the history (10_state.md R42). -/
def CallsMade (s t : State) (calls : List Call) : Prop := t.env.history = s.env.history ++ calls

/-- The level of a pin that was driven is the level it was driven to. -/
def PinsDriven (t : State) (calls : List Call) : Prop :=
  ∀ space p level, Call.digitalWrite space p level ∈ calls → pinLevel t.env (space, p) = level

/-- The pin write `DrivePin` makes, if a pin is configured (42_power_controller.md R135). -/
def pinCalls (b : Block) (level : Bool) : List Call :=
  match standbyPin b with
  | none => []
  | some (space, p) => [.digitalWrite space p level]

/-- The calls of SLEEP and its result (42_power_controller.md R136). -/
def SleepCalls (cfg : Cfg) (b : Block) (r : Result) (calls : List Call) : Prop :=
  (r = .ok ∧ calls = [.getMode .sleeping])
    ∨ (r = .fail ∧ calls = [.getMode .awake, .sleep .fail])
    ∨ (r = .ok ∧ calls = [.getMode .awake, .sleep .ok] ++ pinCalls b cfg.stbyLevel)

/-- The calls of WAKE at clock `n`, and its result (42_power_controller.md R138). -/
def WakeCalls (cfg : Cfg) (b : Block) (n : Time) (r : Result) (calls : List Call) : Prop :=
  calls = [.now n, .wake r] ++ (if r = .ok then pinCalls b (!cfg.stbyLevel) else [])

/-- The calls of MAYBE_AUTOSLEEP with the policy and the timestamp that `b` holds (42_power_controller.md R141). -/
def AutosleepCalls (cfg : Cfg) (b : Block) (calls : List Call) : Prop :=
  (b.autosleepEnabled = false ∧ calls = [])
    ∨ (b.autosleepEnabled = true ∧ calls = [.checkReceiveAvailable true])
    ∨ (b.autosleepEnabled = true ∧ ∃ n : Time,
        n.toNat ≤ b.lastActivityTimestamp.toNat + b.keepAwakeDuration.toNat ∧ calls = [.checkReceiveAvailable false, .now n])
    ∨ (b.autosleepEnabled = true ∧ ∃ n : Time, ∃ r rest,
        n.toNat > b.lastActivityTimestamp.toNat + b.keepAwakeDuration.toNat ∧ SleepCalls cfg b r rest
          ∧ calls = [.checkReceiveAvailable false, .now n] ++ rest)

/-- The calls of S3 and S4 of SEND (43_link_driver.md R162). -/
def HandshakeCalls (cfg : Cfg) (sent : Bool) (calls : List Call) : Prop :=
  (cfg.wakeupHsEnabled = false ∧ sent = true ∧ calls = [])
    ∨ (cfg.wakeupHsEnabled = true ∧ sent = false ∧ calls = [.sendFrame cfg.hsId cfg.hsExt 1 [cfg.hsByte] .fail])
    ∨ (cfg.wakeupHsEnabled = true ∧ sent = true
        ∧ calls = [.sendFrame cfg.hsId cfg.hsExt 1 [cfg.hsByte] .ok, .delay cfg.wakeupHsDelay])

/-- The calls of SEND's steps S2 to S7 at clock `n`, for the word its address encodes to, and `success` (43_link_driver.md R160 to
R163): WAKE; a failed handshake ends it; else the handshake's calls, the real frame, and MAYBE_AUTOSLEEP with the fresh timestamp. -/
def SendCalls (cfg : Cfg) (b : Block) (n : Time) (id : IdWord) (length : LenField) (payload : Payload) (success : Bool)
    (calls : List Call) : Prop :=
  ∃ woke wake hs, WakeCalls cfg b n woke wake ∧
    ((HandshakeCalls cfg false hs ∧ success = false ∧ calls = wake ++ hs)
      ∨ ∃ answer rest, HandshakeCalls cfg true hs ∧ AutosleepCalls cfg { b with lastActivityTimestamp := n } rest
          ∧ success = (answer == .ok)
          ∧ calls = wake ++ hs ++ [.sendFrame id true length (payload.toList.take length.toNat) answer] ++ rest)

/-- The calls of RECEIVE's step R1, the registers after it but for the flag, and the line it sampled (43_link_driver.md R168). -/
def ActivityCalls (cfg : Cfg) (b b1 : Block) (line : Option Bool) (calls : List Call) : Prop :=
  (b.activitySignal = false ∧ b1 = b ∧ line = none ∧ calls = [])
    ∨ (b.activitySignal = true ∧ ∃ n woke wake l, WakeCalls cfg b n woke wake
        ∧ b1 = { b with lastActivityTimestamp := n } ∧ line = some l ∧ calls = wake ++ [.intLine l])

/-- DF_CHECK's five grounds to accept (41_duplicate_filter.md R120): the filter is off, or the identifier, the length, the elapsed
time or a byte of index below `length` tells the frame from the record. -/
def AcceptGround (cfg : Cfg) (b : Block) (n : Time) (id : IdWord) (length : LenField) (payload : Payload) : Prop :=
  cfg.dupFilterEnabled = false ∨ id ≠ b.dfId ∨ length ≠ b.dfLen
    ∨ n.toNat - b.dfTime.toNat > cfg.dupWindowMs.toNat
    ∨ ∃ i : Fin 8, i.val < length.toNat ∧ payload[i] ≠ b.dfPayload[i]

/-- The record is the frame's (41_duplicate_filter.md R124): identifier, length, the bytes of index below `length`, and the time. -/
def RecordHolds (b : Block) (n : Time) (id : IdWord) (length : LenField) (payload : Payload) : Prop :=
  b.dfId = id ∧ b.dfLen = length ∧ b.dfTime = n ∧ ∀ i : Fin 8, i.val < length.toNat → b.dfPayload[i] = payload[i]

/-- The registers are the same but for the LastFrameRecord and the activity flag. -/
def SameButRecord (b c : Block) : Prop :=
  c = { b with
    dfId := c.dfId, dfLen := c.dfLen, dfPayload := c.dfPayload, dfTime := c.dfTime, activitySignal := c.activitySignal }

/-- ENCODE's operands are out of their documented ranges (40_address_codec.md R105). -/
def OutOfRange (type : BitVec 8) (target source : BitVec 32) (port : BitVec 8) : Prop :=
  type.toNat > 3 ∨ source.toNat > 0x7FF
    ∨ (type.toNat = 3 ∧ (target.toNat > 0x7FF ∨ port.toInt < 0 ∨ port.toInt > 0x1F))
    ∨ (type.toNat ≤ 2 ∧ target.toNat > 0xFFFF)

/-- The word of an address in range, as a sum of its shifted fields (30_encoding.md R78). -/
def addressSum (type : BitVec 8) (target source : BitVec 32) (port : BitVec 8) : IdWord :=
  BitVec.ofNat 32 (0x80000000 + type.toNat * 2 ^ 28 + (if type.toNat = 3 then port.toNat * 2 ^ 23 else 0)
    + target.toNat * 2 ^ 11 + source.toNat)

/-- A word with the marker set, bit 30 cleared, and bit 22 (unicast) or bit 27 (the other types) cleared (40_address_codec.md R106). -/
def withUnusedCleared (id : IdWord) : IdWord :=
  if id.extractLsb' 28 2 = 3#2 then (id ||| 0x80000000#32) &&& 0xBFBFFFFF#32 else (id ||| 0x80000000#32) &&& 0xB7FFFFFF#32

/-- Two buffers agree on the meaningful bytes (00_scope.md R16). -/
def SameMeaningful (length : LenField) (p q : Payload) : Prop := ∀ i : Fin 8, i.val < length.toNat → p[i] = q[i]

/-- The sum MAYBE_AUTOSLEEP forms is below 2^32, or the policy is off and forms none (00_scope.md R13). -/
def AutosleepDefined (b : Block) : Prop :=
  b.autosleepEnabled = false ∨ b.lastActivityTimestamp.toNat + b.keepAwakeDuration.toNat < 2 ^ 32

/-- The same after a WAKE, whose timestamp is the clock it reads first. -/
def AutosleepDefinedAfterWake (s : State) : Prop :=
  s.blk.autosleepEnabled = false ∨ (now s).1.toNat + s.blk.keepAwakeDuration.toNat < 2 ^ 32

/-- The turn an environment will take `k` turns from now (log 2): each call of an operation takes one. -/
def turnAt (e : Env) (k : Nat) : Turn :=
  match e.script.drop k with
  | t :: _ => t
  | [] => Config.freeTurn (e.turns + (k - e.script.length))

/-- No self-wake happens in the environment's next `n` turns: it is not admitted, or stands in none of them (60_exceptions.md R208;
which turn a call takes is log 2's). -/
def NoSelfWake (cfg : Cfg) (e : Env) (n : Nat) : Prop :=
  cfg.periphSelfWake = false ∨ ∀ k, k < n → EnvEvent.selfWake ∉ (turnAt e k).events

/-- The peripheral's mode after a call: only a `P.sleep` and a `P.wake` that are answered OK write it (60_exceptions.md R204, R205), and
a `P.getMode` answered Awake tells that it is Awake (R206). -/
def modeAfterCall (m : Mode) : Call → Mode
  | .sleep .ok => .sleeping
  | .wake .ok => .awake
  | .getMode .awake => .awake
  | _ => m

/-- The mode after some calls: that of the last `P.sleep` or `P.wake` answered OK among them, else the mode before, unless a `P.getMode`
told that a self-wake ended it. -/
def modeAfterCalls (m : Mode) (calls : List Call) : Mode := calls.foldl modeAfterCall m

/-- Every `P.getMode` among some calls made in the environment `e` answers the mode: Awake where the calls before it leave it so, which
the environment never undoes, and the mode they leave where no self-wake happens before the answer (60_exceptions.md R206, R208). -/
def ModeAnswers (cfg : Cfg) (e : Env) (calls : List Call) : Prop :=
  ∀ k m, calls[k]? = some (.getMode m) →
    (modeAfterCalls e.mode (calls.take k) = .awake → m = .awake)
      ∧ (NoSelfWake cfg e (k + 1) → m = modeAfterCalls e.mode (calls.take k))

/-- A pin after a call: only a call on that very pin writes it, the direction or the level (60_exceptions.md R207, R210; log 23). -/
def pinAfterCall (space : PinSpace) (p : PinNum) (v : Pin) : Call → Pin
  | .setPinMode space' q d => if space = space' ∧ p = q then { v with direction := d } else v
  | .digitalWrite space' q l => if space = space' ∧ p = q then { v with level := l } else v
  | _ => v

/-- A pin after some calls: at the level of the last `digitalWrite` of it among them and with the direction of the last `setPinMode`,
else as before. -/
def pinAfterCalls (space : PinSpace) (p : PinNum) (v : Pin) (calls : List Call) : Pin := calls.foldl (pinAfterCall space p) v

/-- Every pin is as the calls on it left it. -/
def PinsFollow (e e' : Env) (calls : List Call) : Prop :=
  ∀ space p, pinAt e' space p = pinAfterCalls space p (pinAt e space p) calls

/-- By how much one step of the environment advances the clock (60_exceptions.md R198). -/
def eventAdvance : EnvEvent → Nat
  | .advance ms => ms
  | .setLine _ => 0
  | .arrive _ => 0
  | .rebuffer _ => 0
  | .selfWake => 0
  | .otherConsume => 0

/-- By how much a turn advances the clock. -/
def turnAdvance (t : Turn) : Nat := (t.events.map eventAdvance).sum

/-- By how much the next `n` turns advance the clock. -/
def advanceSum (e : Env) : Nat → Nat
  | 0 => 0
  | n + 1 => advanceSum e n + turnAdvance (turnAt e n)

/-- How long a call makes the environment delay, at least (60_exceptions.md R199). -/
def callDelay : Call → Nat
  | .delay d => d.toNat
  | _ => 0

/-- How long the delays among some calls last, at least. -/
def delaySum (calls : List Call) : Nat := (calls.map callDelay).sum

/-- The calls WAKE makes: `Now`, `P.wake`, and on an answer of OK the write of a configured pin (42_power_controller.md R138). -/
def wakeCount (s : State) : Nat := if (turnAt s.env 1).ok && (standbyPin s.blk).isSome then 3 else 2

/-- The handshake's delay ends on the clock (00_scope.md R13): there is no handshake, or its frame fails, or there is no delay, or the
clock has room for what the environment advances it until the frame is sent and for the delay. -/
def DelayDefined (s : State) : Prop :=
  s.cfg.wakeupHsEnabled = false ∨ (turnAt s.env (wakeCount s)).ok = false ∨ s.cfg.wakeupHsDelay = 0
    ∨ s.env.clock.toNat + advanceSum s.env (wakeCount s + 1) + s.cfg.wakeupHsDelay.toNat < 2 ^ 32

/-- An answer is the turn's: of `P.sleep`, `P.wake`, `P.sendFrame`, and a frame read only where the turn lets the read succeed
(60_exceptions.md R202 to R205; log 2). What the other calls answer is the environment's state. -/
def AnswerGiven (t : Turn) : Call → Prop
  | .sleep answer => answer = resultOf t.ok
  | .wake answer => answer = resultOf t.ok
  | .sendFrame _ _ _ _ answer => answer = resultOf t.ok
  | .readFrame (some _) => t.ok = true
  | .readFrame none => True
  | .now _ => True
  | .checkReceiveAvailable _ => True
  | .getMode _ => True
  | .setPinMode _ _ _ => True
  | .digitalWrite _ _ _ => True
  | .intLine _ => True
  | .delay _ => True

/-- Each call of an operation is answered by the turn it takes, the first by the next turn, and so on. -/
def AnswersGiven (s : State) (calls : List Call) : Prop := ∀ k c, calls[k]? = some c → AnswerGiven (turnAt s.env k) c

/-- The environment's state and the flag after the first steps of its next turn. -/
def worldAfter (s : State) (steps : List EnvEvent) : Env × Bool :=
  applyEvents s.cfg (s.seq == .idle) steps (dropTurn s.env, s.blk.activitySignal)

/-- The environment's next turn does not leave the time premise (00_scope.md R13). -/
def TurnInTime (s : State) : Prop :=
  s.env.timeBroken = false ∧ s.env.clock.toNat + turnAdvance (turnAt s.env 0) < 2 ^ 32

end Sys2Proof.Machine
end

