-- ==== Sys2Proof/Certificates/Slice0/Obligations.lean ====
section
/-! DEFINITION. The statements for the provers. Each docstring names the rule of spec/ it states or the sections it rests on. -/

open Sys2Proof Sys2Proof.Machine

/-! ### The encodings -/

/-- Decoding what the encoder presents for an instruction gives the instruction back, every operand at every value (30_encoding.md
R73, R74, R80 to R82; the item layout is log 14's). -/
def Obligations.DecodeEncodeGivesInstruction : Prop := ∀ i : Instr, decode (encode i) = .ok i

/-- An identifier word is some format's, and no bit of it is lost in decoding (30_encoding.md R71 to R74, R84). -/
def Obligations.IdWordDecodingLosesNoBit : Prop := ∀ w : IdWord, encode (decodeIdWord w) = .idWord w

/-- The reserved codes 0x0 and 0xC..0xF select no operation and are refused, whatever the ports hold; every other code selects one
(30_encoding.md R86, the spec's decision D9). -/
def Obligations.ReservedCodesRefused : Prop :=
  (∀ (op : BitVec 4) (p : Ports) (s : State), op.toNat = 0 ∨ 0xC ≤ op.toNat →
      s.presented = some (.present (.command op p)) → step s = .refused (.reservedCode op))
    ∧ ∀ (op : BitVec 4) (p : Ports), 1 ≤ op.toNat → op.toNat ≤ 0xB → ∃ i, decode (.command op p) = .ok i

/-- The command codes of 30_encoding.md R81 and one word of each identifier format (R73, R74), decoded. -/
def Obligations.OpcodeTableWordsDecode : Prop :=
  decodeTableWord 8 0x1 = some (.encode 0 0 0 0) ∧ decodeTableWord 8 0x2 = some (.decode 0)
    ∧ decodeTableWord 8 0x4 = some .sleep ∧ decodeTableWord 8 0x5 = some .wake ∧ decodeTableWord 8 0x6 = some .isSleeping
    ∧ decodeTableWord 8 0x7 = some .maybeAutosleep ∧ decodeTableWord 8 0x8 = some (.setAutosleep false 0)
    ∧ decodeTableWord 8 0x9 = some (.setStbyPin false 0) ∧ decodeTableWord 8 0xB = some .receive
    ∧ decodeTableWord 32 0xB1808005 = some (.idUnicast 1 0 3 0 0x10 0x05)
    ∧ decodeTableWord 32 0x9091A0AB = some (.idMulticast 1 0 0 0x1234 0x0AB)
    ∧ decodeTableWord 32 0x87FFFFFF = some (.idBroadcast 1 0 0 0xFFFF 0x7FF)
    ∧ decodeTableWord 32 0xA5F77923 = some (.idReserved 1 0 0 0xBEEF 0x123)

/-! ### AddressCodec -/

/-- ENCODE is code 0x1, and completes with only its result ports changed: the INVALID word and `valid = 0` exactly when an operand
is out of range, else the sum of the shifted fields and `valid = 1` (40_address_codec.md R100, R105; 30_encoding.md R78 makes the
OR of R100 a sum). -/
def Obligations.EncodeResult : Prop :=
  (∀ p, decode (.command 0x1#4 p) = .ok (.encode p.type p.target p.source p.port)) ∧
  ∀ (type : BitVec 8) (target source : BitVec 32) (port : BitVec 8) (s : State), s.seq = .idle →
    (OutOfRange type target source port →
        exec (.encode type target source port) s = .next { s with result := .encode 0#32 false })
      ∧ (¬ OutOfRange type target source port →
        exec (.encode type target source port) s
          = .next { s with result := .encode (addressSum type target source port) true })

/-- DECODE is code 0x2, and completes on every word with only its result ports changed: the fields at their bit positions,
zero-extended (40_address_codec.md R102, 30_encoding.md R77). -/
def Obligations.DecodeResult : Prop :=
  (∀ p, decode (.command 0x2#4 p) = .ok (.decode p.id)) ∧
  ∀ (id : IdWord) (s : State), s.seq = .idle →
    ∃ m : AddressMeta, exec (.decode id) s = .next { s with result := .decode m }
      ∧ (msgTypeCode m.type).toNat = id.toNat / 2 ^ 28 % 4
      ∧ m.source.toNat = id.toNat % 2 ^ 11
      ∧ (m.type = .unicast → m.port.toNat = id.toNat / 2 ^ 23 % 2 ^ 5 ∧ m.target.toNat = id.toNat / 2 ^ 11 % 2 ^ 11)
      ∧ (m.type ≠ .unicast → m.port = portAbsent ∧ m.target.toNat = id.toNat / 2 ^ 11 % 2 ^ 16)

/-- Bits 31 and 30, bit 22 of a unicast word and bit 27 of a group word do not matter to DECODE (30_encoding.md R73, R74, R84;
40_address_codec.md R103 (b), (c)). -/
def Obligations.DecodeIgnoresUnusedBits : Prop :=
  ∀ (id x : IdWord) (s : State),
    x &&& (if id.extractLsb' 28 2 = 3#2 then 0x3FBFFFFF#32 else 0x37FFFFFF#32) = 0#32 →
    exec (.decode (id ^^^ x)) s = exec (.decode id) s

/-- DECODE's results satisfy the AddressMeta invariant (40_address_codec.md R103 (f), 00_scope.md R16). -/
def Obligations.DecodeKeepsAddressInvariant : Prop :=
  ∀ (id : IdWord) (s : State), s.seq = .idle →
    ∃ m : AddressMeta, exec (.decode id) s = .next { s with result := .decode m }
      ∧ m.source.toNat ≤ 0x7FF
      ∧ (m.type = .unicast → m.target.toNat ≤ 0x7FF ∧ 0 ≤ m.port.toInt ∧ m.port.toInt ≤ 0x1F)
      ∧ (m.type ≠ .unicast → m.target.toNat ≤ 0xFFFF ∧ m.port.toInt = -1)

/-- The round trip: DECODE of a word ENCODE produced gives the operands back, the port for unicast only (40_address_codec.md
R104). -/
def Obligations.EncodeThenDecodeGivesOperands : Prop :=
  ∀ (type : BitVec 8) (target source : BitVec 32) (port : BitVec 8) (s t : State) (w : IdWord),
    exec (.encode type target source port) s = .next t → t.result = .encode w true →
    ∃ (u : State) (m : AddressMeta), exec (.decode w) t = .next u ∧ u.result = .decode m
      ∧ (msgTypeCode m.type).toNat = type.toNat ∧ m.target.toNat = target.toNat ∧ m.source.toNat = source.toNat
      ∧ m.port = (if type.toNat = 3 then port else portAbsent)

/-- The re-encode law: ENCODE of what DECODE read succeeds and returns the word with the marker set and the unused bits cleared
(40_address_codec.md R106). -/
def Obligations.ReencodeSetsMarkerClearsUnused : Prop :=
  ∀ (id : IdWord) (s t : State) (m : AddressMeta), exec (.decode id) s = .next t → t.result = .decode m →
    exec (.encode ((msgTypeCode m.type).setWidth 8) (m.target.setWidth 32) (m.source.setWidth 32) m.port) t
      = .next { t with result := .encode (withUnusedCleared id) true }

/-- A word of each identifier format runs to a next state with the results DECODE gives of the same word on the ports, and nothing
else changed. That presenting a word reads it is the model's choice (log 15); what is read are the rows "DECODE reads" of
30_encoding.md R73 and R74. -/
def Obligations.IdentifierFormatsReadAsDecode : Prop :=
  (∀ (m z30 z27 : BitVec 1) (target : BitVec 16) (source : BitVec 11) (s : State), s.seq = .idle →
      (exec (.idBroadcast m z30 z27 target source) s
          = .next { s with result := .decode ⟨.broadcast, target, source, portAbsent⟩ }
        ∧ exec (.idBroadcast m z30 z27 target source) s = exec (.decode (m ++ z30 ++ 0#2 ++ z27 ++ target ++ source)) s)
      ∧ (exec (.idMulticast m z30 z27 target source) s
          = .next { s with result := .decode ⟨.multicast, target, source, portAbsent⟩ }
        ∧ exec (.idMulticast m z30 z27 target source) s = exec (.decode (m ++ z30 ++ 1#2 ++ z27 ++ target ++ source)) s)
      ∧ (exec (.idReserved m z30 z27 target source) s
          = .next { s with result := .decode ⟨.reserved, target, source, portAbsent⟩ }
        ∧ exec (.idReserved m z30 z27 target source) s = exec (.decode (m ++ z30 ++ 2#2 ++ z27 ++ target ++ source)) s))
    ∧ ∀ (m z30 : BitVec 1) (port : BitVec 5) (z22 : BitVec 1) (target source : BitVec 11) (s : State), s.seq = .idle →
      (exec (.idUnicast m z30 port z22 target source) s
          = .next { s with result := .decode ⟨.unicast, target.setWidth 16, source, port.setWidth 8⟩ })
        ∧ exec (.idUnicast m z30 port z22 target source) s
          = exec (.decode (m ++ z30 ++ 3#2 ++ port ++ z22 ++ target ++ source)) s

/-! ### DuplicateFilter -/

/-- DF_CHECK is code 0x3, and completes when the record is not from after the clock: it reads the clock once, accepts on exactly
its five grounds, on acceptance the record is the frame's and nothing else is written, on rejection nothing is
(41_duplicate_filter.md R120, with the spec's decisions D11 and D12; the premise is 00_scope.md R13's). -/
def Obligations.DfCheckResult : Prop :=
  (∀ p, decode (.command 0x3#4 p) = .ok (.dfCheck p.id p.length p.payload)) ∧
  ∀ (id : IdWord) (length : LenField) (payload : Payload) (s : State), s.seq = .idle → length.toNat ≤ 8 →
    s.blk.dfTime.toNat ≤ s.env.clock.toNat →
    ∃ (t : State) (accept : Bool) (n : Time), exec (.dfCheck id length payload) s = .next t ∧ t.result = .dfCheck accept
      ∧ CallsMade s t [.now n] ∧ s.env.clock.toNat ≤ n.toNat
      ∧ (accept = true ↔ AcceptGround s.cfg s.blk n id length payload)
      ∧ (accept = true → RecordHolds t.blk n id length payload ∧ SameButRecord s.blk t.blk)
      ∧ (accept = false → SameRegisters s.blk t.blk)
      ∧ FlagKept s t ∧ OutsideKept s t ∧ PinsKept s t

/-- A length of 9..15 is refused by DF_CHECK (41_duplicate_filter.md R127 (g), 20_memory.md R53, 93_implementation_defined.md U7).
-/
def Obligations.DfCheckRefusesLongLength : Prop :=
  ∀ (id : IdWord) (length : LenField) (payload : Payload) (s : State), s.seq = .idle → 8 < length.toNat →
    exec (.dfCheck id length payload) s = .refused (.lengthOutOfContract length)

/-- DF_CHECK's decision, its call and its refusals depend on no byte of index >= length (41_duplicate_filter.md R122). That the next
state does not either, the record's bytes of index >= length included, is the model's choice: an acceptance leaves them as they were
(10_state.md R26 and 41_duplicate_filter.md R124 leave them open; log 17). -/
def Obligations.DfCheckSeesMeaningfulBytesOnly : Prop :=
  ∀ (id : IdWord) (length : LenField) (p q : Payload) (s : State), SameMeaningful length p q →
    exec (.dfCheck id length p) s = exec (.dfCheck id length q) s

/-- A frame just accepted, presented again with the filter on, is accepted exactly when the time since exceeds the window, and a
rejection moves the record's time no further (41_duplicate_filter.md R123). -/
def Obligations.RepeatAcceptedAfterWindowOnly : Prop :=
  ∀ (id : IdWord) (length : LenField) (payload : Payload) (s t : State), exec (.dfCheck id length payload) s = .next t →
    t.result = .dfCheck true → s.cfg.dupFilterEnabled = true →
    ∃ (u : State) (n : Time), exec (.dfCheck id length payload) t = .next u ∧ CallsMade t u [.now n]
      ∧ t.blk.dfTime.toNat ≤ n.toNat
      ∧ u.result = .dfCheck (decide (n.toNat - t.blk.dfTime.toNat > s.cfg.dupWindowMs.toNat))
      ∧ (n.toNat - t.blk.dfTime.toNat ≤ s.cfg.dupWindowMs.toNat → u.blk.dfTime = t.blk.dfTime)

/-! ### PowerController -/

/-- SLEEP is code 0x4, and completes: its calls in order, its result, no register written, no pin but the standby pin touched, and
that pin at the level driven; the peripheral is Awake on FAIL, and Sleeping on OK where no self-wake happens (42_power_controller.md
R136; 60_exceptions.md R204, R208). Which turn a self-wake must stay out of is log 2's, and that one after the last call comes after the
operation log 26's. That a controller-routed pin, written when the peripheral already sleeps, is at the level driven is the model's:
60_exceptions.md R207 leaves it open, and 93_implementation_defined.md U15 takes the written level with the caveat N22 (log 23). -/
def Obligations.SleepResult : Prop :=
  (∀ p, decode (.command 0x4#4 p) = .ok .sleep) ∧
  ∀ s : State, s.seq = .idle →
    ∃ (t : State) (r : Result) (calls : List Call), exec .sleep s = .next t ∧ t.result = .sleep r ∧ CallsMade s t calls
      ∧ SleepCalls s.cfg s.blk r calls ∧ SameRegisters s.blk t.blk ∧ FlagKept s t ∧ OutsideKept s t
      ∧ PinsKeptBut (standbyPin s.blk) s t ∧ PinsDriven t calls
      ∧ (r = .fail → t.env.mode = .awake)
      ∧ (NoSelfWake s.cfg s.env calls.length → t.env.mode = if r = .ok then .sleeping else .awake)

/-- WAKE is code 0x5, and completes: the timestamp is the clock it read first, whatever `P.wake` answers; its calls in order, its
result (the peripheral's answer, the spec's decision D18), no other register written, no pin but the standby pin touched, and that
pin at the level driven; the peripheral is Awake on OK, stays Awake where it was, and is as it was on FAIL where no self-wake falls
into the turns of the calls or the next one (42_power_controller.md R138; 60_exceptions.md R205, R208). -/
def Obligations.WakeResult : Prop :=
  (∀ p, decode (.command 0x5#4 p) = .ok .wake) ∧
  ∀ s : State, s.seq = .idle →
    ∃ (t : State) (r : Result) (n : Time) (calls : List Call), exec .wake s = .next t ∧ t.result = .wake r
      ∧ s.env.clock.toNat ≤ n.toNat ∧ CallsMade s t calls ∧ WakeCalls s.cfg s.blk n r calls
      ∧ SameRegisters { s.blk with lastActivityTimestamp := n } t.blk ∧ FlagKept s t ∧ OutsideKept s t
      ∧ PinsKeptBut (standbyPin s.blk) s t ∧ PinsDriven t calls
      ∧ (r = .ok → t.env.mode = .awake) ∧ (s.env.mode = .awake → t.env.mode = .awake)
      ∧ (NoSelfWake s.cfg s.env (calls.length + 1) → t.env.mode = if r = .ok then .awake else s.env.mode)

/-- IS_SLEEPING is code 0x6, and completes: one `P.getMode`, true exactly when it answered Sleeping; the answer is the peripheral's
mode, which the environment can only have moved to Awake, and that only by a self-wake before the call; a peripheral that answered Awake
stays so, and one that answered Sleeping does where no self-wake falls into the call's turn or the next one; no register is written
(42_power_controller.md R140; 60_exceptions.md R206, R208). -/
def Obligations.IsSleepingResult : Prop :=
  (∀ p, decode (.command 0x6#4 p) = .ok .isSleeping) ∧
  ∀ s : State, s.seq = .idle →
    ∃ (t : State) (m : Mode), exec .isSleeping s = .next t ∧ t.result = .isSleeping (decide (m = .sleeping))
      ∧ (m = .sleeping → s.env.mode = .sleeping) ∧ (NoSelfWake s.cfg s.env 1 → m = s.env.mode)
      ∧ (m = .awake → t.env.mode = .awake) ∧ (NoSelfWake s.cfg s.env 2 → t.env.mode = m)
      ∧ CallsMade s t [.getMode m] ∧ SameRegisters s.blk t.blk ∧ FlagKept s t ∧ OutsideKept s t ∧ PinsKept s t

/-- MAYBE_AUTOSLEEP is code 0x7, and completes when its sum is defined (00_scope.md R13): its calls in order, one case per way its
three conditions can fall, no register written, no pin but the standby pin touched, and that pin at the level driven
(42_power_controller.md R141; the order of the conditions and the clock read are the spec's decisions D42 and D11); and the mode the
calls leave, that of SLEEP's `P.sleep` where it answered OK and else as before, where no self-wake happens (60_exceptions.md R208, R215;
the turns are log 2's, the end of the operation log 26's). That a controller-routed pin, which SLEEP writes when the peripheral already
sleeps, is at the level driven is the model's: 60_exceptions.md R207 leaves it open, and 93_implementation_defined.md U15 takes the
written level with the caveat N22 (log 23). -/
def Obligations.MaybeAutosleepResult : Prop :=
  (∀ p, decode (.command 0x7#4 p) = .ok .maybeAutosleep) ∧
  ∀ s : State, s.seq = .idle → AutosleepDefined s.blk →
    ∃ (t : State) (calls : List Call), exec .maybeAutosleep s = .next t ∧ t.result = .maybeAutosleep ∧ CallsMade s t calls
      ∧ AutosleepCalls s.cfg s.blk calls ∧ SameRegisters s.blk t.blk ∧ FlagKept s t ∧ OutsideKept s t
      ∧ PinsKeptBut (standbyPin s.blk) s t ∧ PinsDriven t calls
      ∧ (NoSelfWake s.cfg s.env calls.length → t.env.mode = modeAfterCalls s.env.mode calls)

/-- SET_AUTOSLEEP is code 0x8, and completes when the sum it leaves is defined (00_scope.md R13): both policy registers written,
enabled or not, then the check with the new policy, no other register written, the standby pin, if driven, at the level driven, and the
mode the calls leave where no self-wake happens (42_power_controller.md R143; 60_exceptions.md R208, R215; the turns are log 2's, the
end of the operation log 26's). That a controller-routed pin, which the check's SLEEP writes when the peripheral already sleeps, is at
that level is the model's: 60_exceptions.md R207 leaves it open, and 93_implementation_defined.md U15 takes the written level with the
caveat N22 (log 23). -/
def Obligations.SetAutosleepResult : Prop :=
  (∀ p, decode (.command 0x8#4 p) = .ok (.setAutosleep p.enabled p.keepAwakeDuration)) ∧
  ∀ (enabled : Bool) (keep : Time) (s : State), s.seq = .idle →
    AutosleepDefined { s.blk with autosleepEnabled := enabled, keepAwakeDuration := keep } →
    ∃ (t : State) (calls : List Call), exec (.setAutosleep enabled keep) s = .next t ∧ t.result = .setAutosleep
      ∧ CallsMade s t calls
      ∧ AutosleepCalls s.cfg { s.blk with autosleepEnabled := enabled, keepAwakeDuration := keep } calls
      ∧ SameRegisters { s.blk with autosleepEnabled := enabled, keepAwakeDuration := keep } t.blk
      ∧ FlagKept s t ∧ OutsideKept s t ∧ PinsKeptBut (standbyPin s.blk) s t ∧ PinsDriven t calls
      ∧ (NoSelfWake s.cfg s.env calls.length → t.env.mode = modeAfterCalls s.env.mode calls)

/-- MAYBE_AUTOSLEEP that must form a sum of 2^32 or more is refused: enabled, nothing available, and the environment holding still
(00_scope.md R13, 93_implementation_defined.md U6). -/
def Obligations.AutosleepRefusesWrappingSum : Prop :=
  ∀ s : State, s.seq = .idle → s.blk.autosleepEnabled = true →
    2 ^ 32 ≤ s.blk.lastActivityTimestamp.toNat + s.blk.keepAwakeDuration.toNat → calm s 1 → s.env.rxQueue = [] →
    exec .maybeAutosleep s = .refused .keepAwakeSumWraps

/-- SET_STBY_PIN is code 0x9, and completes: route and number written and no other register, the pin made an output and driven to
the level of the mode `P.getMode` answered, no other pin touched (42_power_controller.md R145, which marks the direction OUTPUT as
derived); the answer is the peripheral's mode, but for a self-wake in the two turns up to it (60_exceptions.md R206, R208; log 2).
While the peripheral sleeps, a controller-routed pin is at the level driven as 93_implementation_defined.md U15 takes it with the caveat
N22, and is an output by the model's choice: 60_exceptions.md R207 leaves both open (log 23). -/
def Obligations.SetStbyPinResult : Prop :=
  (∀ p, decode (.command 0x9#4 p) = .ok (.setStbyPin p.useControllerPin p.pinNumber)) ∧
  ∀ (useControllerPin : Bool) (p : PinNum) (s : State), s.seq = .idle →
    ∃ (t : State) (m : Mode), exec (.setStbyPin useControllerPin p) s = .next t ∧ t.result = .setStbyPin
      ∧ CallsMade s t [.setPinMode (if useControllerPin then .ctrl else .host) p .output, .getMode m,
          .digitalWrite (if useControllerPin then .ctrl else .host) p (if m = .sleeping then s.cfg.stbyLevel else !s.cfg.stbyLevel)]
      ∧ (m = .sleeping → s.env.mode = .sleeping) ∧ (NoSelfWake s.cfg s.env 2 → m = s.env.mode)
      ∧ SameRegisters { s.blk with stbyPinRoute := if useControllerPin then .ctrl else .host, stbyPinNumber := p } t.blk
      ∧ pinDirection t.env ((if useControllerPin then .ctrl else .host), p) = .output
      ∧ pinLevel t.env ((if useControllerPin then .ctrl else .host), p)
          = (if m = .sleeping then s.cfg.stbyLevel else !s.cfg.stbyLevel)
      ∧ PinsKeptBut (some ((if useControllerPin then .ctrl else .host), p)) s t ∧ FlagKept s t ∧ OutsideKept s t

/-- A SLEEP after a successful SLEEP succeeds again with the one call `P.getMode` and changes no pin, where no self-wake happens in
the turns up to that call (42_power_controller.md R137 (a); 60_exceptions.md R208; the turns are log 2's). -/
def Obligations.SecondSleepOnlyAsksMode : Prop :=
  ∀ (s t : State) (calls : List Call), exec .sleep s = .next t → CallsMade s t calls → t.result = .sleep .ok →
    NoSelfWake s.cfg s.env (calls.length + 1) →
    ∃ u : State, exec .sleep t = .next u ∧ u.result = .sleep .ok ∧ CallsMade t u [.getMode .sleeping] ∧ PinsKept t u

/-- The transitions of the power state. Of every instruction that answers: where no self-wake happens in the turns of its calls, the mode
after it is that of the last `P.sleep` or `P.wake` among them that answered OK, and the mode before where none did; in every
configuration it is Awake where that one is, or where a `P.getMode` told so after it, since the environment never puts the peripheral to
sleep; every `P.getMode` answers the mode so reached, by the same two rules; and every pin is as the calls on it left it, at the level of
the last `digitalWrite`. In particular SLEEP ends Sleeping on OK and Awake on FAIL, WAKE ends
Awake on OK and where it was on FAIL, IS_SLEEPING and SET_STBY_PIN move nothing (42_power_controller.md R147; 60_exceptions.md R204 to
R206, R208, R215). Which turn a self-wake must stay out of is log 2's, that one after the last call comes after the operation log 26's,
and that a pin written while the peripheral sleeps is as it was written log 23's (R207, U15, N22). -/
def Obligations.PowerTransitions : Prop :=
  (∀ (i : Instr) (s t : State) (calls : List Call), exec i s = .next t → CallsMade s t calls →
      (modeAfterCalls s.env.mode calls = .awake → t.env.mode = .awake)
        ∧ (NoSelfWake s.cfg s.env calls.length → t.env.mode = modeAfterCalls s.env.mode calls)
        ∧ ModeAnswers s.cfg s.env calls ∧ PinsFollow s.env t.env calls)
    ∧ ∀ (s t : State) (calls : List Call), CallsMade s t calls →
      (exec .sleep s = .next t →
          (t.result = .sleep .fail → t.env.mode = .awake)
            ∧ (NoSelfWake s.cfg s.env calls.length →
              (t.result = .sleep .ok ∧ t.env.mode = .sleeping)
                ∨ (t.result = .sleep .fail ∧ s.env.mode = .awake ∧ t.env.mode = .awake)))
        ∧ (exec .wake s = .next t →
          (t.result = .wake .ok → t.env.mode = .awake)
            ∧ (NoSelfWake s.cfg s.env calls.length →
              (t.result = .wake .ok ∧ t.env.mode = .awake) ∨ (t.result = .wake .fail ∧ t.env.mode = s.env.mode)))
        ∧ (exec .isSleeping s = .next t →
          t.result = .isSleeping (decide (t.env.mode = .sleeping))
            ∧ (NoSelfWake s.cfg s.env calls.length →
              t.env.mode = s.env.mode ∧ t.result = .isSleeping (decide (s.env.mode = .sleeping))))
        ∧ ∀ ctrl p, exec (.setStbyPin ctrl p) s = .next t → NoSelfWake s.cfg s.env calls.length → t.env.mode = s.env.mode

/-- Where no self-wake happens in its turns, every step keeps the agreement of a configured standby pin with the power state: whatever
command runs, whatever the peripheral answers (42_power_controller.md R148, which the spec marks as derived). The turns are log 2's: the
step's own and one for each call; a self-wake after the last call falls to the next step (log 26). That a controller-routed pin takes a level
written while the peripheral sleeps is the model's: 60_exceptions.md R207 leaves it open, and 93_implementation_defined.md U15 takes the
written level with the caveat N22 (log 23). -/
def Obligations.EveryStepKeepsPinAgreement : Prop :=
  ∀ (s t : State) (calls : List Call), PinAgrees s → step s = .next t → CallsMade s t calls →
    NoSelfWake s.cfg s.env (calls.length + 1) → PinAgrees t

/-! ### LinkDriver -/

/-- SEND is code 0xA. An address that does not encode fails at once: only the result changes, no call is made. An address in range
completes where its time sums are defined, whatever the environment does (00_scope.md R13): WAKE, the handshake, the real frame with
the encoded word, the extended flag, the length and the meaningful bytes, MAYBE_AUTOSLEEP, in that order; a failed handshake ends it;
`success` is the real frame's answer; no register but the timestamp is written, no pin but the standby pin touched, and that pin is at
the level of the last `digitalWrite` among the calls, its direction kept (43_link_driver.md R160, with the spec's decisions D19, D21 and
D23). That a controller-routed pin, which the autosleep check writes when the peripheral already sleeps, is at the level written is the
model's: 60_exceptions.md R207 leaves it open, and 93_implementation_defined.md U15 takes the written level with the caveat N22
(log 23). -/
def Obligations.SendResult : Prop :=
  (∀ p, decode (.command 0xA#4 p) = .ok (.send p.type p.target p.source p.port p.length p.payload)) ∧
  ∀ (type : BitVec 8) (target source : BitVec 32) (port : BitVec 8) (length : LenField) (payload : Payload) (s : State),
    s.seq = .idle → length.toNat ≤ 8 →
    (OutOfRange type target source port →
        exec (.send type target source port length payload) s = .next { s with result := .send false })
      ∧ (¬ OutOfRange type target source port → AutosleepDefinedAfterWake s → DelayDefined s →
        ∃ (t : State) (success : Bool) (n : Time) (calls : List Call),
          exec (.send type target source port length payload) s = .next t ∧ t.result = .send success
          ∧ s.env.clock.toNat ≤ n.toNat ∧ CallsMade s t calls
          ∧ SendCalls s.cfg s.blk n (addressSum type target source port) length payload success calls
          ∧ SameRegisters { s.blk with lastActivityTimestamp := n } t.blk ∧ FlagKept s t ∧ OutsideKept s t
          ∧ PinsKeptBut (standbyPin s.blk) s t ∧ PinsFollow s.env t.env calls)

/-- A length of 9..15 is refused by SEND (43_link_driver.md R164 (d), 20_memory.md R53, 93_implementation_defined.md U7). -/
def Obligations.SendRefusesLongLength : Prop :=
  ∀ (type : BitVec 8) (target source : BitVec 32) (port : BitVec 8) (length : LenField) (payload : Payload) (s : State),
    s.seq = .idle → 8 < length.toNat →
    exec (.send type target source port length payload) s = .refused (.lengthOutOfContract length)

/-- SEND depends on no payload byte of index >= length (20_memory.md R53, 43_link_driver.md R163). That the call history does not either
is the model's: it records the payload handed to `P.sendFrame` by its first `length` bytes (00_scope.md R16, 10_state.md R42; log 19). -/
def Obligations.SendSeesMeaningfulBytesOnly : Prop :=
  ∀ (type : BitVec 8) (target source : BitVec 32) (port : BitVec 8) (length : LenField) (p q : Payload) (s : State),
    SameMeaningful length p q →
    exec (.send type target source port length p) s = exec (.send type target source port length q) s

/-- A SEND that delayed ends at least the delay after it began (43_link_driver.md R162, 60_exceptions.md R199). -/
def Obligations.SendDelayIsLowerBound : Prop :=
  ∀ (type : BitVec 8) (target source : BitVec 32) (port : BitVec 8) (length : LenField) (payload : Payload) (s t : State)
    (calls : List Call) (d : Time),
    exec (.send type target source port length payload) s = .next t → CallsMade s t calls → Call.delay d ∈ calls →
    d = s.cfg.wakeupHsDelay ∧ s.env.clock.toNat + d.toNat ≤ t.env.clock.toNat

/-- RECEIVE is code 0xB, and completes where its sum is defined and, with the filter on, the record is not from after the clock
(00_scope.md R13). R1: nothing with the flag clear, else WAKE and the line sample, an asserted line leaving the flag set, an inactive
one clearing it (said where the environment holds still, since it may set it again; there the sample is the line as it stood). Then one
of: nothing available and the autosleep
check; a read error; a frame, checked if the filter is on, delivered with DECODE's fields, its length and its meaningful bytes, or
dropped. No register is written but the timestamp at R1 and the record on acceptance; no pin but the standby pin is touched, and that
pin is at the level of the last `digitalWrite` among the calls, its direction kept (43_link_driver.md R166, with the spec's decisions D14
and D32). That a controller-routed pin, which the autosleep check writes when the peripheral already sleeps, is at the level written is
the model's: 60_exceptions.md R207 leaves it open, and 93_implementation_defined.md U15 takes the written level with the caveat N22
(log 23). -/
def Obligations.ReceiveResult : Prop :=
  (∀ p, decode (.command 0xB#4 p) = .ok .receive) ∧
  ∀ s : State, s.seq = .idle → (s.cfg.dupFilterEnabled = true → s.blk.dfTime.toNat ≤ s.env.clock.toNat) →
    (if s.blk.activitySignal then AutosleepDefinedAfterWake s else AutosleepDefined s.blk) →
    ∃ (t : State) (got : Bool) (packet : Packet) (b1 : Block) (line : Option Bool) (c1 c2 : List Call),
      exec .receive s = .next t ∧ t.result = .receive got packet ∧ CallsMade s t (c1 ++ c2)
      ∧ ActivityCalls s.cfg s.blk b1 line c1 ∧ (line = some false → t.blk.activitySignal = true)
      ∧ (calm s 10 → t.blk.activitySignal = (s.blk.activitySignal && !s.env.intLine))
      ∧ (calm s 10 → s.blk.activitySignal = true → line = some s.env.intLine)
      ∧ OutsideKept s t ∧ PinsKeptBut (standbyPin s.blk) s t ∧ PinsFollow s.env t.env (c1 ++ c2)
      ∧ ((got = false ∧ SameRegisters b1 t.blk
            ∧ ∃ rest, AutosleepCalls s.cfg b1 rest ∧ c2 = [.checkReceiveAvailable false] ++ rest)
        ∨ (got = false ∧ SameRegisters b1 t.blk ∧ c2 = [.checkReceiveAvailable true, .readFrame none])
        ∨ ∃ (f : Frame) (n : Time),
            c2 = [.checkReceiveAvailable true, .readFrame (some f)] ++ (if s.cfg.dupFilterEnabled then [.now n] else [])
            ∧ (got = true ↔ AcceptGround s.cfg b1 n f.identifier (BitVec.ofNat 4 f.length) f.payload)
            ∧ (got = true → packet.addr = decodeAddress f.identifier ∧ packet.length = BitVec.ofNat 4 f.length
                ∧ ∀ i : Fin 8, i.val < f.length.val → packet.payload[i] = f.payload[i])
            ∧ (if got = true ∧ s.cfg.dupFilterEnabled = true then
                RecordHolds t.blk n f.identifier (BitVec.ofNat 4 f.length) f.payload ∧ SameButRecord b1 t.blk
              else SameRegisters b1 t.blk))

/-- With the filter disabled RECEIVE leaves the LastFrameRecord as it was (41_duplicate_filter.md R121, 43_link_driver.md R169).
-/
def Obligations.ReceiveKeepsRecordWithFilterOff : Prop :=
  ∀ s t : State, exec .receive s = .next t → s.cfg.dupFilterEnabled = false → recordOf t.blk = recordOf s.blk

/-- While the environment holds still, RECEIVE clears the flag exactly when the line is inactive (43_link_driver.md R168). -/
def Obligations.ReceiveClearsFlagIffLineInactive : Prop :=
  ∀ s t : State, exec .receive s = .next t → calm s 10 →
    t.blk.activitySignal = (s.blk.activitySignal && !s.env.intLine)

/-! ### The activity interrupt and the environment -/

/-- A change of the line, anywhere among the environment's steps before a call of an operation or while the block is idle: a falling
edge sets the flag, whatever it was, no other change does, and neither does anything else to the block or to the environment, which
goes on with its next step; a waiting block goes on waiting: no wake, no timestamp, no command (60_exceptions.md R187, R190). That a
step with nothing presented answers the state after the environment's turn is the model's form (log 16), where the turn stays within
the time premise (log 10). -/
def Obligations.FallingEdgeOnlySetsFlag : Prop :=
  ∀ (s : State) (level : Bool) (before after : List EnvEvent), (nextTurn s.env).events = before ++ .setLine level :: after →
    (let w := worldAfter s before
      let u := applyEvents s.cfg (s.seq == .idle) after ({ w.1 with intLine := level }, w.2 || (w.1.intLine && !level))
      envSteps s = { s with env := u.1, blk := { s.blk with activitySignal := u.2 } })
      ∧ (s.presented = none → (nextTurn s.env).item = none → TurnInTime s → step s = .next (envSteps s))

/-- No operation but RECEIVE clears the flag (60_exceptions.md R189, 10_state.md R23). -/
def Obligations.OnlyReceiveClearsFlag : Prop :=
  ∀ (i : Instr) (s t : State), i ≠ .receive → exec i s = .next t → FlagKept s t

/-- Another instance consumes the flag, anywhere among the environment's steps, only while the block is idle, only with SHARED_ACTIVITY
and only with the line inactive; it does nothing else (60_exceptions.md R213). -/
def Obligations.OtherInstanceConsumesIdleFlag : Prop :=
  ∀ (s : State) (before after : List EnvEvent), (nextTurn s.env).events = before ++ .otherConsume :: after →
    let w := worldAfter s before
    let u := applyEvents s.cfg (s.seq == .idle) after
      (w.1, w.2 && !(s.cfg.sharedActivity && decide (s.seq = .idle) && w.1.intLine))
    envSteps s = { s with env := u.1, blk := { s.blk with activitySignal := u.2 } }

/-- Self-wake, anywhere among the environment's steps, moves a peripheral to Awake only where PERIPH_SELF_WAKE admits it, and does
nothing else; no other step of the environment moves the mode, and none touches a register but the flag, or a pin (60_exceptions.md
R208). -/
def Obligations.SelfWakeOnlyMovesMode : Prop :=
  ∀ s : State,
    (∀ before after : List EnvEvent, (nextTurn s.env).events = before ++ .selfWake :: after →
        let w := worldAfter s before
        let u := applyEvents s.cfg (s.seq == .idle) after
          ({ w.1 with mode := if s.cfg.periphSelfWake then .awake else w.1.mode }, w.2)
        envSteps s = { s with env := u.1, blk := { s.blk with activitySignal := u.2 } })
      ∧ (EnvEvent.selfWake ∉ (nextTurn s.env).events → (envSteps s).env.mode = s.env.mode)
      ∧ SameRegisters s.blk (envSteps s).blk ∧ PinsKept s (envSteps s)

/-- An operation ends with an awake peripheral asleep only if `P.sleep` was called and answered OK: the environment never moves it
from Awake to Sleeping (60_exceptions.md R208, R215). -/
def Obligations.OnlySleepCallPutsToSleep : Prop :=
  ∀ (i : Instr) (s t : State) (calls : List Call), exec i s = .next t → CallsMade s t calls → s.env.mode = .awake →
    t.env.mode = .sleeping → Call.sleep .ok ∈ calls

/-- Autosleep never fires after the peripheral has reported a message available: no command but SLEEP calls `P.sleep` when a
`P.checkReceiveAvailable` of its own answered available (42_power_controller.md R142 (b), 70_reset_and_hazards.md R239). -/
def Obligations.NoAutosleepWhileAvailable : Prop :=
  ∀ (i : Instr) (s t : State) (calls : List Call) (r : Result), i ≠ .sleep → exec i s = .next t → CallsMade s t calls →
    Call.checkReceiveAvailable true ∈ calls → Call.sleep r ∉ calls

/-! ### The sequencer, the step and reset -/

/-- A command issued while an operation is in progress is refused, whatever it is (10_state.md R22, the spec's decision D36). -/
def Obligations.BusyBlockRefuses : Prop :=
  ∀ (i : Instr) (s : State) (op : BitVec 4), s.seq = .executing op → exec i s = .refused .busy

/-- An operation makes at most eleven environment calls, the delay counted (70_reset_and_hazards.md R247, 95_test_vectors.md V50).
-/
def Obligations.OperationMakesBoundedCalls : Prop :=
  ∀ (i : Instr) (s t : State), exec i s = .next t → ∃ calls, CallsMade s t calls ∧ calls.length ≤ 11

/-- A step runs the instruction its presented item decodes to, after the environment's turn, and is refused if the run left the time
premise (30_encoding.md R80, 20_memory.md R58; 00_scope.md R13, log 10). That turn, the model's (log 16), leaves every register of
the block but the flag, the configuration, the sequencer and the history alone, and the result ports, which hold the old result until
the operation returns (log 25). -/
def Obligations.StepRunsDecodedInstruction : Prop :=
  ∀ (s : State) (p : Presented) (i : Instr), s.presented = some (.present p) → decode p = .ok i →
    step s = withinTime (exec i (takeItem (beginStep s)))
      ∧ SameRegisters s.blk (takeItem (beginStep s)).blk ∧ (takeItem (beginStep s)).cfg = s.cfg
      ∧ (takeItem (beginStep s)).seq = s.seq ∧ (takeItem (beginStep s)).result = s.result
      ∧ (takeItem (beginStep s)).env.history = s.env.history ∧ (takeItem (beginStep s)).presented = none

/-- With nothing presented, an idle block takes the item the host brings in the environment's turn, and waits if there is none
(70_reset_and_hazards.md R230, 10_state.md R22). The turn is log 16's, the refusal of a run that left the time premise log 10's, and
that a wait leaves the old result on the result ports log 25's. -/
def Obligations.IdleBlockTakesItemOrWaits : Prop :=
  ∀ s : State, s.presented = none → s.seq = .idle →
    (∀ item, (nextTurn s.env).item = some item → step s = withinTime (runItem item (beginStep s)))
      ∧ ((nextTurn s.env).item = none → TurnInTime s →
        ∃ t, step s = .next t ∧ SameRegisters s.blk t.blk ∧ t.env.history = s.env.history ∧ PinsKept s t ∧ t.result = s.result
          ∧ t.seq = .idle)

/-- Reset puts every register of the block at its reset value, the record at DF_RESET_RECORD, and the sequencer at idle; it leaves the
configuration, makes no call, moves no pin, and leaves the mode, the line and the clock to the environment (70_reset_and_hazards.md
R230 to R232, the spec's decisions D16 and D34; log 4, log 5). That reset is an item of the host, so never falls inside an operation,
and that it clears the command interface, the result ports among it, is the model's choice (log 24). -/
def Obligations.ResetSetsRegistersOnly : Prop :=
  ∀ s : State, s.presented = some .reset → TurnInTime s →
    ∃ t : State, step s = .next t ∧ t.seq = .idle ∧ t.presented = none ∧ t.result = .nothing
      ∧ t.blk.activitySignal = false ∧ recordOf t.blk = s.cfg.dfReset
      ∧ t.blk.lastActivityTimestamp = 0 ∧ t.blk.keepAwakeDuration = 0 ∧ t.blk.autosleepEnabled = false
      ∧ t.blk.stbyPinRoute = .absent ∧ t.blk.stbyPinNumber = 0 ∧ t.cfg = s.cfg
      ∧ t.env = (beginStep s).env ∧ t.env.history = s.env.history ∧ PinsKept s t

/-- The block's registers after reset, the record at its default: the spec's decisions D16 and D34 (70_reset_and_hazards.md R231,
10_state.md R43). -/
def Obligations.ResetStateHoldsResetValues : Prop :=
  State.reset.blk.activitySignal = false ∧ recordOf State.reset.blk = ⟨0, 0, Vector.replicate 8 0, 0⟩
    ∧ State.reset.blk.lastActivityTimestamp = 0 ∧ State.reset.blk.keepAwakeDuration = 0
    ∧ State.reset.blk.autosleepEnabled = false ∧ State.reset.blk.stbyPinRoute = .absent
    ∧ State.reset.blk.stbyPinNumber = 0 ∧ State.reset.seq = .idle

/-- The invariant holds after reset (10_state.md R43, 70_reset_and_hazards.md R231, R233). It rests on the spec's decisions for the
registers (log 4), on the default of DF_RESET_RECORD, whose timestamp 0 is after no clock (log 5), on the free launch clock and the
other launch premises (log 7), on the canonical form of the pin spaces (log 8), and on a run that begins within the time premise
(log 10). -/
def Obligations.InvariantHoldsAtReset : Prop := Inv State.reset

/-- Every step keeps the invariant: the sequencer idle, lengths 0..8, no timestamp after the clock, the run within the time premise,
pin spaces canonical (10_state.md R21, R25; 00_scope.md R13; the time premise's field is log 10's, the pin form log 8's). -/
def Obligations.EveryStepKeepsInvariant : Prop := ∀ s t : State, Inv s → step s = .next t → Inv t

/-! ### Who writes what -/

/-- The clock never goes back and the history only grows (60_exceptions.md R198, 20_memory.md R59 (c), 10_state.md R42). -/
def Obligations.ClockAndHistoryOnlyGrow : Prop :=
  ∀ s t : State, step s = .next t → s.env.clock.toNat ≤ t.env.clock.toNat ∧ ∃ calls, CallsMade s t calls

/-- No step writes the configuration (10_state.md R28, R33, R34, R43). -/
def Obligations.ConfigurationIsConstant : Prop := ∀ s t : State, step s = .next t → t.cfg = s.cfg

/-- The timestamp is written by WAKE alone, as a command or inside SEND and RECEIVE: it is unchanged, or a clock value read in the
operation (10_state.md R30). -/
def Obligations.OnlyWakeWritesTimestamp : Prop :=
  ∀ (i : Instr) (s t : State) (calls : List Call), exec i s = .next t → CallsMade s t calls →
    (t.blk.lastActivityTimestamp = s.blk.lastActivityTimestamp
      ∨ (Call.now t.blk.lastActivityTimestamp ∈ calls ∧ ∃ r, Call.wake r ∈ calls))
    ∧ ((∀ r, Call.wake r ∉ calls) → t.blk.lastActivityTimestamp = s.blk.lastActivityTimestamp)

/-- The LastFrameRecord is written by DF_CHECK alone, as a command or inside RECEIVE (10_state.md R24 to R27). -/
def Obligations.OnlyFilterWritesRecord : Prop :=
  ∀ (i : Instr) (s t : State), exec i s = .next t → i ≠ .receive → (∀ id length payload, i ≠ .dfCheck id length payload) →
    recordOf t.blk = recordOf s.blk

/-- The policy is written by SET_AUTOSLEEP alone (10_state.md R31, R32). -/
def Obligations.OnlySetAutosleepWritesPolicy : Prop :=
  ∀ (i : Instr) (s t : State), exec i s = .next t → (∀ enabled keep, i ≠ .setAutosleep enabled keep) →
    t.blk.keepAwakeDuration = s.blk.keepAwakeDuration ∧ t.blk.autosleepEnabled = s.blk.autosleepEnabled

/-- The standby pin's registers are written by SET_STBY_PIN alone, and no operation returns the route to ABSENT (10_state.md R35,
R36; 42_power_controller.md R146 (c)). -/
def Obligations.OnlySetStbyPinWritesRoute : Prop :=
  ∀ (i : Instr) (s t : State), exec i s = .next t →
    ((∀ ctrl p, i ≠ .setStbyPin ctrl p) →
        t.blk.stbyPinRoute = s.blk.stbyPinRoute ∧ t.blk.stbyPinNumber = s.blk.stbyPinNumber)
      ∧ (s.blk.stbyPinRoute ≠ .absent → t.blk.stbyPinRoute ≠ .absent)

/-! ### The environment's answers -/

/-- The answers of `P.sleep`, `P.wake` and `P.sendFrame` among the calls of an operation are those of the turns the calls take, and a
frame is read only where its turn lets the read succeed (60_exceptions.md R202 to R205). That each call takes one turn, in order, is
log 2's. -/
def Obligations.PeripheralAnswersAreTheTurns : Prop :=
  ∀ (i : Instr) (s t : State) (calls : List Call), exec i s = .next t → CallsMade s t calls → AnswersGiven s calls

/-- A clock read among the calls of an operation is the clock advanced by the turns up to it, where no delay came before
(60_exceptions.md R197, R198); that each call takes one turn is log 2's, and a sum past the clock's last value is log 10's. -/
def Obligations.ClockReadsAreTheTurns : Prop :=
  ∀ (i : Instr) (s t : State) (calls : List Call) (k : Nat) (n : Time), exec i s = .next t → CallsMade s t calls →
    calls[k]? = some (.now n) → delaySum (calls.take k) = 0 → s.env.clock.toNat + advanceSum s.env (k + 1) < 2 ^ 32 →
    n.toNat = s.env.clock.toNat + advanceSum s.env (k + 1)

/-- While the environment holds still RECEIVE finds the receive queue as it stands: with nothing queued it is answered not available
and reads nothing; with a frame at the head it is answered available, the head is read where the turn lets the read succeed, and the
queue afterwards is the rest, or, on an error that consumed nothing, as it was (60_exceptions.md R201, R202; 43_link_driver.md R167;
the queue is 10_state.md R39's, log 9). -/
def Obligations.ReceiveTakesQueueHead : Prop :=
  ∀ (s t : State) (calls : List Call), exec .receive s = .next t → CallsMade s t calls → calm s 10 →
    (s.env.rxQueue = [] →
        Call.checkReceiveAvailable false ∈ calls ∧ Call.checkReceiveAvailable true ∉ calls ∧ (∀ r, Call.readFrame r ∉ calls)
          ∧ t.env.rxQueue = [])
      ∧ ∀ (f : Frame) (rest : List Frame), s.env.rxQueue = f :: rest →
        let k := if s.blk.activitySignal then wakeCount s + 1 else 0
        let answer := turnAt s.env (k + 1)
        calls[k]? = some (.checkReceiveAvailable true) ∧ calls[k + 1]? = some (.readFrame (if answer.ok then some f else none))
          ∧ t.env.rxQueue = (if answer.ok || answer.consumed then rest else f :: rest)

/-- No command but RECEIVE reads a frame; and while the environment holds still it leaves the receive queue as it was, and is answered
available exactly when something is queued (60_exceptions.md R201, R202; 20_memory.md R55; 10_state.md R39). -/
def Obligations.OnlyReceiveConsumesFrames : Prop :=
  ∀ (i : Instr) (s t : State) (calls : List Call), i ≠ .receive → exec i s = .next t → CallsMade s t calls →
    (∀ r, Call.readFrame r ∉ calls)
      ∧ (calm s 11 → t.env.rxQueue = s.env.rxQueue
          ∧ ∀ available, Call.checkReceiveAvailable available ∈ calls → available = !s.env.rxQueue.isEmpty)

/-- No edge is lost: after a turn with a falling edge anywhere among its steps the flag is set, unless another instance may consume
it, which takes SHARED_ACTIVITY and an idle block (60_exceptions.md R187, R189, R213). -/
def Obligations.EdgeInTurnIsNotLost : Prop :=
  ∀ (s : State) (before after : List EnvEvent), (nextTurn s.env).events = before ++ .setLine false :: after →
    (worldAfter s before).1.intLine = true → s.cfg.sharedActivity = false ∨ s.seq ≠ .idle →
    (envSteps s).blk.activitySignal = true

/-! ### The time premise -/

/-- DF_CHECK that reads a clock before the record's timestamp is refused, whatever the frame and the filter's enable (00_scope.md R13,
93_implementation_defined.md U6; log 30). -/
def Obligations.DfCheckRefusesClockBeforeRecord : Prop :=
  ∀ (id : IdWord) (length : LenField) (payload : Payload) (s : State), s.seq = .idle → length.toNat ≤ 8 →
    (now s).1.toNat < s.blk.dfTime.toNat → exec (.dfCheck id length payload) s = .refused .clockBeforeRecord

/-- A step answers what the instruction answers, where the run stays within the time premise: the clock is not before
DF_RESET_RECORD.timestamp and has room for what the environment advances it and for the delay (00_scope.md R13,
70_reset_and_hazards.md R233 (e); log 10, log 16). -/
def Obligations.StepAnswersWithinTime : Prop :=
  ∀ (s t : State) (p : Presented) (i : Instr) (calls : List Call), s.presented = some (.present p) → decode p = .ok i →
    exec i (takeItem (beginStep s)) = .next t → CallsMade s t calls → s.env.timeBroken = false →
    s.cfg.dfReset.timestamp.toNat ≤ s.env.clock.toNat →
    s.env.clock.toNat + advanceSum s.env (calls.length + 1) + delaySum calls < 2 ^ 32 → step s = .next t

/-- A step in which the run leaves the time premise is refused: the clock wraps in the step's own turn or in that of a call, or is read
before DF_RESET_RECORD.timestamp, or the run left the premise before (00_scope.md R13, the spec's decision D10;
93_implementation_defined.md U6; the model's field for it is log 10's). -/
def Obligations.StepRefusesOutsideTime : Prop :=
  ∀ s : State,
    (s.env.timeBroken = true ∨ 2 ^ 32 ≤ s.env.clock.toNat + turnAdvance (nextTurn s.env) →
        (∀ t, step s ≠ .next t)
          ∧ (s.presented = none → (nextTurn s.env).item = none → step s = .refused .outsideTimePremise))
      ∧ ∀ (t : State) (p : Presented) (i : Instr) (calls : List Call), s.presented = some (.present p) → decode p = .ok i →
        exec i (takeItem (beginStep s)) = .next t → CallsMade s t calls →
        s.env.timeBroken = true ∨ 2 ^ 32 ≤ s.env.clock.toNat + advanceSum s.env (calls.length + 1)
          ∨ (∃ n, Call.now n ∈ calls ∧ n.toNat < s.cfg.dfReset.timestamp.toNat) →
        step s = .refused .outsideTimePremise
end

