-- ==== Sys2Proof/Laws/Pins.lean ====
section
/-! SUPPORT. The laws of a pin space: reading after a write, and the canonical form kept by every write. -/

namespace Sys2Proof.Machine

/-- A pin reads as what was written to it last, and a write leaves every other pin alone (10_state.md R40). -/
theorem readPin_writePin (space : PinSpace) (m : PinMap) (p : Nat) (v : Pin) (q : Nat) :
    readPin space (writePin m p v) q = if q = p then v else readPin space m q := by
  induction m with
  | nil => rfl
  | cons e rest ih =>
    obtain ⟨e1, e2⟩ := e
    unfold writePin
    split
    · rfl
    · split
      · next hpe =>
        subst hpe
        by_cases hq : q = p <;> simp [readPin, hq]
      · next hne =>
        simp only [readPin, ih]
        by_cases hq : q = e1
        · simp [hq, show ¬ e1 = p by omega]
        · simp [hq]

theorem pinsAbove_cons (low : Nat) (e : Nat × Pin) (m : PinMap) :
    pinsAbove low (e :: m) = true ↔ low < e.1 ∧ pinsAbove low m = true := by
  simp [pinsAbove]

theorem pinsWf_cons (e : Nat × Pin) (m : PinMap) :
    pinsWf (e :: m) = true ↔ e.1 < 256 ∧ pinsAbove e.1 m = true ∧ pinsWf m = true := by
  simp [pinsWf, and_assoc]

theorem pinsAbove_mono {low low' : Nat} {m : PinMap} (h : low' ≤ low) (hm : pinsAbove low m = true) : pinsAbove low' m = true := by
  simp only [pinsAbove, List.all_eq_true, decide_eq_true_eq] at *
  exact fun e he => Nat.lt_of_le_of_lt h (hm e he)

theorem pinsAbove_writePin {low p : Nat} {m : PinMap} (hp : low < p) (h : pinsAbove low m = true) (v : Pin) :
    pinsAbove low (writePin m p v) = true := by
  induction m with
  | nil => simp [writePin, pinsAbove, hp]
  | cons e rest ih =>
    have h' := (pinsAbove_cons _ _ _).1 h
    unfold writePin
    split
    · exact (pinsAbove_cons _ _ _).2 ⟨hp, h⟩
    · split
      · exact (pinsAbove_cons _ _ _).2 ⟨hp, h'.2⟩
      · exact (pinsAbove_cons _ _ _).2 ⟨h'.1, ih h'.2⟩

/-- A write keeps the canonical form (log 8). -/
theorem pinsWf_writePin {m : PinMap} (hm : pinsWf m = true) {p : Nat} (hp : p < 256) (v : Pin) :
    pinsWf (writePin m p v) = true := by
  induction m with
  | nil => simp [writePin, pinsWf, pinsAbove, hp]
  | cons e rest ih =>
    obtain ⟨h256, habove, hrest⟩ := (pinsWf_cons _ _).1 hm
    unfold writePin
    split
    · next hlt =>
      exact (pinsWf_cons _ _).2 ⟨hp, (pinsAbove_cons _ _ _).2 ⟨hlt, pinsAbove_mono (Nat.le_of_lt hlt) habove⟩, hm⟩
    · split
      · next hpe => subst hpe; exact (pinsWf_cons _ _).2 ⟨h256, habove, hrest⟩
      · exact (pinsWf_cons _ _).2 ⟨h256, pinsAbove_writePin (by omega) habove v, ih hrest⟩

end Sys2Proof.Machine
end

