-- ==== Sys2Proof/Laws/State.lean ====
section
/-! SUPPORT. One lemma per field of each update of the state, so that no later proof unfolds one. -/

namespace Sys2Proof.Machine

section Record
variable (c : Call) (s : State)
@[simp] theorem record_blk : (record c s).blk = s.blk := rfl
@[simp] theorem record_cfg : (record c s).cfg = s.cfg := rfl
@[simp] theorem record_seq : (record c s).seq = s.seq := rfl
@[simp] theorem record_presented : (record c s).presented = s.presented := rfl
@[simp] theorem record_result : (record c s).result = s.result := rfl
@[simp] theorem record_free : (record c s).free = s.free := rfl
@[simp] theorem record_mode : (record c s).env.mode = s.env.mode := rfl
@[simp] theorem record_intLine : (record c s).env.intLine = s.env.intLine := rfl
@[simp] theorem record_rxQueue : (record c s).env.rxQueue = s.env.rxQueue := rfl
@[simp] theorem record_ctrlPins : (record c s).env.ctrlPins = s.env.ctrlPins := rfl
@[simp] theorem record_hostPins : (record c s).env.hostPins = s.env.hostPins := rfl
@[simp] theorem record_clock : (record c s).env.clock = s.env.clock := rfl
@[simp] theorem record_script : (record c s).env.script = s.env.script := rfl
@[simp] theorem record_turns : (record c s).env.turns = s.env.turns := rfl
@[simp] theorem record_timeBroken : (record c s).env.timeBroken = s.env.timeBroken := rfl
@[simp] theorem record_history : (record c s).env.history = s.env.history ++ [c] := rfl
end Record

section Check
variable (s : State)
@[simp] theorem checkRead_blk : (checkRead s).blk = s.blk := rfl
@[simp] theorem checkRead_cfg : (checkRead s).cfg = s.cfg := rfl
@[simp] theorem checkRead_seq : (checkRead s).seq = s.seq := rfl
@[simp] theorem checkRead_presented : (checkRead s).presented = s.presented := rfl
@[simp] theorem checkRead_free : (checkRead s).free = s.free := rfl
@[simp] theorem checkRead_mode : (checkRead s).env.mode = s.env.mode := rfl
@[simp] theorem checkRead_intLine : (checkRead s).env.intLine = s.env.intLine := rfl
@[simp] theorem checkRead_rxQueue : (checkRead s).env.rxQueue = s.env.rxQueue := rfl
@[simp] theorem checkRead_ctrlPins : (checkRead s).env.ctrlPins = s.env.ctrlPins := rfl
@[simp] theorem checkRead_hostPins : (checkRead s).env.hostPins = s.env.hostPins := rfl
@[simp] theorem checkRead_clock : (checkRead s).env.clock = s.env.clock := rfl
@[simp] theorem checkRead_script : (checkRead s).env.script = s.env.script := rfl
@[simp] theorem checkRead_turns : (checkRead s).env.turns = s.env.turns := rfl
@[simp] theorem checkRead_history : (checkRead s).env.history = s.env.history := rfl
@[simp] theorem checkRead_timeBroken :
    (checkRead s).env.timeBroken
      = (s.env.timeBroken || decide (s.env.clock.toNat < s.cfg.dfReset.timestamp.toNat)) := rfl
end Check

section Finish
variable (r : OpResult) (s : State)
@[simp] theorem finish_blk : (finish r s).blk = s.blk := rfl
@[simp] theorem finish_env : (finish r s).env = s.env := rfl
@[simp] theorem finish_cfg : (finish r s).cfg = s.cfg := rfl
@[simp] theorem finish_seq : (finish r s).seq = .idle := rfl
@[simp] theorem finish_presented : (finish r s).presented = s.presented := rfl
@[simp] theorem finish_result : (finish r s).result = r := rfl
@[simp] theorem finish_free : (finish r s).free = s.free := rfl
end Finish

section Begin
variable (op : BitVec 4) (s : State)
@[simp] theorem beginOp_blk : (beginOp op s).blk = s.blk := rfl
@[simp] theorem beginOp_env : (beginOp op s).env = s.env := rfl
@[simp] theorem beginOp_cfg : (beginOp op s).cfg = s.cfg := rfl
@[simp] theorem beginOp_seq : (beginOp op s).seq = .executing op := rfl
@[simp] theorem beginOp_presented : (beginOp op s).presented = s.presented := rfl
@[simp] theorem beginOp_result : (beginOp op s).result = s.result := rfl
@[simp] theorem beginOp_free : (beginOp op s).free = s.free := rfl
end Begin

section Turn
variable (s : State)
@[simp] theorem envSteps_cfg : (envSteps s).cfg = s.cfg := rfl
@[simp] theorem envSteps_seq : (envSteps s).seq = s.seq := rfl
@[simp] theorem envSteps_presented : (envSteps s).presented = s.presented := rfl
@[simp] theorem envSteps_result : (envSteps s).result = s.result := rfl
@[simp] theorem envSteps_free : (envSteps s).free = s.free := rfl
@[simp] theorem envSteps_dfId : (envSteps s).blk.dfId = s.blk.dfId := rfl
@[simp] theorem envSteps_dfLen : (envSteps s).blk.dfLen = s.blk.dfLen := rfl
@[simp] theorem envSteps_dfPayload : (envSteps s).blk.dfPayload = s.blk.dfPayload := rfl
@[simp] theorem envSteps_dfTime : (envSteps s).blk.dfTime = s.blk.dfTime := rfl
@[simp] theorem envSteps_lastActivityTimestamp :
    (envSteps s).blk.lastActivityTimestamp = s.blk.lastActivityTimestamp := rfl
@[simp] theorem envSteps_keepAwakeDuration : (envSteps s).blk.keepAwakeDuration = s.blk.keepAwakeDuration := rfl
@[simp] theorem envSteps_autosleepEnabled : (envSteps s).blk.autosleepEnabled = s.blk.autosleepEnabled := rfl
@[simp] theorem envSteps_stbyPinRoute : (envSteps s).blk.stbyPinRoute = s.blk.stbyPinRoute := rfl
@[simp] theorem envSteps_stbyPinNumber : (envSteps s).blk.stbyPinNumber = s.blk.stbyPinNumber := rfl
end Turn

section Policy
variable (enabled : Bool) (keep : Time) (s : State)
@[simp] theorem setPolicy_env : (setPolicy enabled keep s).env = s.env := rfl
@[simp] theorem setPolicy_cfg : (setPolicy enabled keep s).cfg = s.cfg := rfl
@[simp] theorem setPolicy_seq : (setPolicy enabled keep s).seq = s.seq := rfl
@[simp] theorem setPolicy_presented : (setPolicy enabled keep s).presented = s.presented := rfl
@[simp] theorem setPolicy_free : (setPolicy enabled keep s).free = s.free := rfl
@[simp] theorem setPolicy_blk :
    (setPolicy enabled keep s).blk = { s.blk with autosleepEnabled := enabled, keepAwakeDuration := keep } := rfl
end Policy

section Standby
variable (ctrl : Bool) (pin : PinNum) (s : State)
@[simp] theorem setStbyRegisters_env : (setStbyRegisters ctrl pin s).env = s.env := rfl
@[simp] theorem setStbyRegisters_cfg : (setStbyRegisters ctrl pin s).cfg = s.cfg := rfl
@[simp] theorem setStbyRegisters_seq : (setStbyRegisters ctrl pin s).seq = s.seq := rfl
@[simp] theorem setStbyRegisters_presented : (setStbyRegisters ctrl pin s).presented = s.presented := rfl
@[simp] theorem setStbyRegisters_free : (setStbyRegisters ctrl pin s).free = s.free := rfl
@[simp] theorem setStbyRegisters_blk :
    (setStbyRegisters ctrl pin s).blk
      = { s.blk with stbyPinRoute := if ctrl then .ctrl else .host, stbyPinNumber := pin } := rfl
end Standby

section Item
variable (s : State)
@[simp] theorem takeItem_blk : (takeItem s).blk = s.blk := rfl
@[simp] theorem takeItem_env : (takeItem s).env = s.env := rfl
@[simp] theorem takeItem_cfg : (takeItem s).cfg = s.cfg := rfl
@[simp] theorem takeItem_seq : (takeItem s).seq = s.seq := rfl
@[simp] theorem takeItem_presented : (takeItem s).presented = none := rfl
@[simp] theorem takeItem_free : (takeItem s).free = s.free := rfl
@[simp] theorem beginStep_blk : (beginStep s).blk = (envSteps s).blk := rfl
@[simp] theorem beginStep_env : (beginStep s).env = (envSteps s).env := rfl
@[simp] theorem beginStep_cfg : (beginStep s).cfg = s.cfg := rfl
@[simp] theorem beginStep_seq : (beginStep s).seq = s.seq := rfl
@[simp] theorem beginStep_free : (beginStep s).free = s.free := rfl
@[simp] theorem useFree_blk : (useFree s).blk = s.blk := rfl
@[simp] theorem useFree_env : (useFree s).env = s.env := rfl
@[simp] theorem useFree_cfg : (useFree s).cfg = s.cfg := rfl
@[simp] theorem useFree_seq : (useFree s).seq = s.seq := rfl
@[simp] theorem useFree_presented : (useFree s).presented = s.presented := rfl
@[simp] theorem blockReset_blk : (blockReset s).blk = Block.reset s.cfg.dfReset := rfl
@[simp] theorem blockReset_env : (blockReset s).env = s.env := rfl
@[simp] theorem blockReset_cfg : (blockReset s).cfg = s.cfg := rfl
@[simp] theorem blockReset_seq : (blockReset s).seq = .idle := rfl
@[simp] theorem blockReset_presented : (blockReset s).presented = none := rfl
@[simp] theorem blockReset_result : (blockReset s).result = .nothing := rfl
end Item

end Sys2Proof.Machine
end

