-- ==== Sys2Proof/Laws/Turns.lean ====
section
/-! SUPPORT. What a stretch of calls does to the environment's turns and to its clock: each call takes one turn and is answered by it,
and the clock advances by what the turns and the delays say. -/

namespace Sys2Proof.Machine

@[simp] theorem turnAt_zero (e : Env) : turnAt e 0 = nextTurn e := by
  unfold turnAt nextTurn
  cases e.script <;> simp

/-- The turns after `n` turns are the turns from the `n`-th on. -/
theorem turnAt_shift {e e' : Env} {n : Nat} (hs : e'.script = e.script.drop n)
    (ht : e'.turns = e.turns + (n - e.script.length)) (k : Nat) : turnAt e' k = turnAt e (n + k) := by
  have hc : e'.turns + (k - e'.script.length) = e.turns + (n + k - e.script.length) := by
    rw [hs, ht, List.length_drop]; omega
  unfold turnAt
  rw [hs, List.drop_drop, ← hs, hc]

theorem advanceSum_shift {e e' : Env} {n : Nat} (hs : e'.script = e.script.drop n)
    (ht : e'.turns = e.turns + (n - e.script.length)) (k : Nat) :
    advanceSum e (n + k) = advanceSum e n + advanceSum e' k := by
  induction k with
  | zero => rfl
  | succ k ih => rw [← Nat.add_assoc, advanceSum, ih, advanceSum, turnAt_shift hs ht, Nat.add_assoc]

theorem delaySum_append (c d : List Call) : delaySum (c ++ d) = delaySum c + delaySum d := by simp [delaySum]

theorem dropTurn_script (e : Env) : (dropTurn e).script = e.script.drop 1 := by
  unfold dropTurn
  cases h : e.script <;> simp

theorem dropTurn_turns (e : Env) : (dropTurn e).turns = e.turns + (1 - e.script.length) := by
  unfold dropTurn
  cases h : e.script <;> simp

theorem dropTurn_clock (e : Env) : (dropTurn e).clock = e.clock := by
  unfold dropTurn
  split <;> rfl

theorem dropTurn_timeBroken (e : Env) : (dropTurn e).timeBroken = e.timeBroken := by
  unfold dropTurn
  split <;> rfl

theorem advanceClock_toNat (clock : Time) (ms : Nat) : (advanceClock clock ms).toNat = min (clock.toNat + ms) clockLimit := by
  simp only [advanceClock, clockLimit, BitVec.toNat_ofNat]
  omega

theorem clock_le_limit (clock : Time) : clock.toNat ≤ clockLimit := by
  have := clock.isLt
  simp only [clockLimit]
  omega

/-- What some steps of the environment do to the turns, the clock and the time premise (60_exceptions.md R198, 00_scope.md R13). -/
theorem applyEvents_time (cfg : Cfg) (idle : Bool) (evs : List EnvEvent) (w : Env × Bool) :
    (applyEvents cfg idle evs w).1.script = w.1.script ∧ (applyEvents cfg idle evs w).1.turns = w.1.turns
      ∧ (applyEvents cfg idle evs w).1.clock.toNat = min (w.1.clock.toNat + (evs.map eventAdvance).sum) clockLimit
      ∧ (applyEvents cfg idle evs w).1.timeBroken
          = (w.1.timeBroken || decide (w.1.clock.toNat + (evs.map eventAdvance).sum > clockLimit)) := by
  induction evs generalizing w with
  | nil =>
    have := clock_le_limit w.1.clock
    refine ⟨rfl, rfl, ?_, ?_⟩
    · simp [applyEvents]; omega
    · simp [applyEvents]; omega
  | cons ev rest ih =>
    obtain ⟨h1, h2, h3, h4⟩ := ih (applyEvent cfg idle w ev)
    have hl := clock_le_limit w.1.clock
    simp only [applyEvents, List.map_cons, List.sum_cons]
    rw [h1, h2, h3, h4]
    cases ev with
    | advance ms =>
      refine ⟨rfl, rfl, ?_, ?_⟩
      · simp only [applyEvent, advanceClock_toNat, eventAdvance]; omega
      · change (w.1.timeBroken || clockWraps w.1.clock ms || _) = _
        rw [Bool.or_assoc, clockWraps]
        congr 1
        rw [Bool.eq_iff_iff]
        have : (applyEvent cfg idle w (.advance ms)).1.clock.toNat = min (w.1.clock.toNat + ms) clockLimit :=
          advanceClock_toNat w.1.clock ms
        have he : eventAdvance (.advance ms) = ms := rfl
        simp only [Bool.or_eq_true, decide_eq_true_eq]
        omega
    | setLine | arrive | rebuffer | selfWake | otherConsume => refine ⟨rfl, rfl, ?_, ?_⟩ <;> simp [applyEvent, eventAdvance]

theorem envSteps_script (s : State) : (envSteps s).env.script = s.env.script.drop 1 :=
  (applyEvents_time _ _ _ _).1.trans (dropTurn_script _)

theorem envSteps_turns (s : State) : (envSteps s).env.turns = s.env.turns + (1 - s.env.script.length) :=
  (applyEvents_time _ _ _ _).2.1.trans (dropTurn_turns _)

theorem envSteps_clock (s : State) :
    (envSteps s).env.clock.toNat = min (s.env.clock.toNat + turnAdvance (turnAt s.env 0)) clockLimit := by
  have := (applyEvents_time s.cfg (s.seq == .idle) (nextTurn s.env).events (dropTurn s.env, s.blk.activitySignal)).2.2.1
  simpa [envSteps, worldAfterTurn, dropTurn_clock, turnAdvance] using this

theorem envSteps_timeBroken (s : State) :
    (envSteps s).env.timeBroken
      = (s.env.timeBroken || decide (s.env.clock.toNat + turnAdvance (turnAt s.env 0) > clockLimit)) := by
  have := (applyEvents_time s.cfg (s.seq == .idle) (nextTurn s.env).events (dropTurn s.env, s.blk.activitySignal)).2.2.2
  simpa [envSteps, worldAfterTurn, dropTurn_clock, dropTurn_timeBroken, turnAdvance] using this

/-- What a stretch of calls does to the environment's turns and clock, and to the time premise. -/
structure Timed (cfg : Cfg) (e e' : Env) (calls : List Call) : Prop where
  script : e'.script = e.script.drop calls.length
  turns : e'.turns = e.turns + (calls.length - e.script.length)
  answers : ∀ k c, calls[k]? = some c → AnswerGiven (turnAt e k) c
  clockGe : min (e.clock.toNat + advanceSum e calls.length) clockLimit ≤ e'.clock.toNat
  clockLe : e'.clock.toNat ≤ e.clock.toNat + advanceSum e calls.length + delaySum calls
  broken : e.timeBroken = true → e'.timeBroken = true
  wraps : e.clock.toNat + advanceSum e calls.length > clockLimit → e'.timeBroken = true
  inTime : cfg.dfReset.timestamp.toNat ≤ e.clock.toNat → e.timeBroken = false →
    e.clock.toNat + advanceSum e calls.length + delaySum calls ≤ clockLimit → e'.timeBroken = false
  reads : ∀ k n, calls[k]? = some (.now n) → delaySum (calls.take k) = 0 →
    n.toNat = min (e.clock.toNat + advanceSum e (k + 1)) clockLimit
  early : ∀ n, Call.now n ∈ calls → n.toNat < cfg.dfReset.timestamp.toNat → e'.timeBroken = true

theorem Timed.refl (cfg : Cfg) (e : Env) : Timed cfg e e [] where
  script := by simp
  turns := by simp
  answers := by simp
  clockGe := by simp [advanceSum]
  clockLe := by simp [advanceSum, delaySum]
  broken := id
  wraps := by
    have := clock_le_limit e.clock
    simp only [List.length_nil, advanceSum]; omega
  inTime := fun _ h _ => h
  reads := by simp
  early := by simp

/-- Without a delay the clock is where the turns advance it. -/
theorem Timed.clockEq {cfg : Cfg} {e e' : Env} {calls : List Call} (h : Timed cfg e e' calls) (hd : delaySum calls = 0) :
    e'.clock.toNat = min (e.clock.toNat + advanceSum e calls.length) clockLimit := by
  have h1 := h.clockGe
  have h2 := h.clockLe
  have h3 := clock_le_limit e'.clock
  omega

theorem Timed.trans {cfg : Cfg} {e e' e'' : Env} {c d : List Call} (h : Timed cfg e e' c) (h' : Timed cfg e' e'' d)
    (hc : e.clock.toNat ≤ e'.clock.toNat) : Timed cfg e e'' (c ++ d) := by
  have hsum := advanceSum_shift h.script h.turns d.length
  have g1 := h.clockGe
  have g2 := h'.clockGe
  have l1 := h.clockLe
  have l2 := h'.clockLe
  have m := clock_le_limit e''.clock
  constructor
  · rw [h'.script, h.script, List.drop_drop, List.length_append]
  · have := congrArg List.length h.script
    rw [List.length_drop] at this
    rw [h'.turns, h.turns, List.length_append]; omega
  · intro k x hk
    by_cases hlt : k < c.length
    · rw [List.getElem?_append_left hlt] at hk
      exact h.answers k x hk
    · rw [List.getElem?_append_right (by omega)] at hk
      have := h'.answers _ x hk
      rwa [turnAt_shift h.script h.turns, Nat.add_sub_cancel' (by omega)] at this
  · rw [List.length_append, hsum]; omega
  · rw [List.length_append, hsum, delaySum_append]; omega
  · exact fun hb => h'.broken (h.broken hb)
  · rw [List.length_append, hsum]
    intro hw
    by_cases h1 : e.clock.toNat + advanceSum e c.length > clockLimit
    · exact h'.broken (h.wraps h1)
    · exact h'.wraps (by omega)
  · rw [List.length_append, hsum, delaySum_append]
    intro ht hb hl
    exact h'.inTime (by omega) (h.inTime ht hb (by omega)) (by omega)
  · intro k n hk hd
    by_cases hlt : k < c.length
    · rw [List.getElem?_append_left hlt] at hk
      rw [List.take_append_of_le_length (by omega)] at hd
      exact h.reads k n hk hd
    · rw [List.getElem?_append_right (by omega)] at hk
      rw [List.take_append, List.take_of_length_le (by omega), delaySum_append] at hd
      have hr := h'.reads _ n hk (by omega)
      have he := h.clockEq (by omega)
      have hs := advanceSum_shift h.script h.turns (k - c.length + 1)
      rw [show c.length + (k - c.length + 1) = k + 1 by omega] at hs
      omega
  · intro n hn hlt
    rcases List.mem_append.1 hn with hn | hn
    · exact h'.broken (h.early n hn hlt)
    · exact h'.early n hn hlt

/-- A call: it takes one turn, is answered by it, and moves the clock by no more than its own delay beyond it. -/
theorem Timed.call {s : State} {e' : Env} {c : Call} (hscript : e'.script = (envSteps s).env.script)
    (hturns : e'.turns = (envSteps s).env.turns) (hanswer : AnswerGiven (nextTurn s.env) c)
    (hge : (envSteps s).env.clock.toNat ≤ e'.clock.toNat)
    (hle : e'.clock.toNat ≤ s.env.clock.toNat + turnAdvance (turnAt s.env 0) + callDelay c)
    (hbroken : (envSteps s).env.timeBroken = true → e'.timeBroken = true)
    (hinTime : s.cfg.dfReset.timestamp.toNat ≤ (envSteps s).env.clock.toNat → (envSteps s).env.timeBroken = false →
      e'.timeBroken = false)
    (hread : ∀ n, c = .now n → n = (envSteps s).env.clock ∧ (n.toNat < s.cfg.dfReset.timestamp.toNat → e'.timeBroken = true)) :
    Timed s.cfg s.env e' [c] := by
  have hclock := envSteps_clock s
  have htime := envSteps_timeBroken s
  have hl := clock_le_limit s.env.clock
  constructor
  · simpa [envSteps_script] using hscript
  · simpa [envSteps_turns] using hturns
  · intro k x hk
    cases k with
    | zero =>
      simp only [List.getElem?_cons_zero, Option.some.injEq] at hk
      rw [turnAt_zero, ← hk]
      exact hanswer
    | succ k => simp at hk
  · simp only [List.length_singleton, advanceSum]; omega
  · simp only [List.length_singleton, advanceSum, delaySum, List.map_cons, List.map_nil, List.sum_cons, List.sum_nil]; omega
  · intro hb; exact hbroken (by simp [htime, hb])
  · intro hw
    simp only [List.length_singleton, advanceSum] at hw
    exact hbroken (by rw [htime, Bool.or_eq_true, decide_eq_true_eq]; omega)
  · intro ht hb hw
    simp only [List.length_singleton, advanceSum, delaySum, List.map_cons, List.map_nil, List.sum_cons, List.sum_nil] at hw
    refine hinTime (by omega) ?_
    rw [htime, hb, Bool.false_or, decide_eq_false_iff_not]; omega
  · intro k n hk _
    cases k with
    | zero =>
      simp only [List.getElem?_cons_zero, Option.some.injEq] at hk
      rw [(hread n hk).1, hclock]
      simp only [advanceSum]; omega
    | succ k => simp at hk
  · intro n hn
    exact (hread n (List.mem_singleton.1 hn).symm).2

end Sys2Proof.Machine
end

