-- ==== Sys2Proof/Laws/Track.lean ====
section
/-! SUPPORT. What the environment's own steps do, and what a stretch of calls does to the peripheral's mode and to the pins: the mode
is that of the last call that set it, but for self-wake, and every pin is as the calls on it left it. -/

namespace Sys2Proof.Machine

/-! ### The environment's own steps -/

/-- What the environment's steps leave alone and what they can do to its state (20_memory.md R58). -/
structure EnvMoved (cfg : Cfg) (e e' : Env) : Prop where
  history : e'.history = e.history
  ctrlPins : e'.ctrlPins = e.ctrlPins
  hostPins : e'.hostPins = e.hostPins
  clock : e.clock.toNat ≤ e'.clock.toNat
  awake : e.mode = .awake → e'.mode = .awake
  mode : cfg.periphSelfWake = false → e'.mode = e.mode

theorem EnvMoved.refl (cfg : Cfg) (e : Env) : EnvMoved cfg e e := ⟨rfl, rfl, rfl, Nat.le_refl _, id, fun _ => rfl⟩

theorem EnvMoved.trans {cfg : Cfg} {e e' e'' : Env} (h : EnvMoved cfg e e') (h' : EnvMoved cfg e' e'') : EnvMoved cfg e e'' where
  history := h'.history.trans h.history
  ctrlPins := h'.ctrlPins.trans h.ctrlPins
  hostPins := h'.hostPins.trans h.hostPins
  clock := Nat.le_trans h.clock h'.clock
  awake := fun ha => h'.awake (h.awake ha)
  mode := fun hc => (h'.mode hc).trans (h.mode hc)

theorem le_advanceClock (clock : Time) (ms : Nat) : clock.toNat ≤ (advanceClock clock ms).toNat := by
  have := clock.isLt
  simp only [advanceClock, clockLimit, BitVec.toNat_ofNat]
  omega

theorem applyEvent_moved (cfg : Cfg) (idle : Bool) (w : Env × Bool) (ev : EnvEvent) :
    EnvMoved cfg w.1 (applyEvent cfg idle w ev).1 := by
  cases ev with
  | advance ms => exact ⟨rfl, rfl, rfl, le_advanceClock _ _, id, fun _ => rfl⟩
  | selfWake =>
    refine ⟨rfl, rfl, rfl, Nat.le_refl _, fun h => ?_, fun h => ?_⟩ <;> simp [applyEvent, h]
  | setLine | arrive | rebuffer | otherConsume => exact ⟨rfl, rfl, rfl, Nat.le_refl _, id, fun _ => rfl⟩

theorem applyEvents_moved (cfg : Cfg) (idle : Bool) (evs : List EnvEvent) (w : Env × Bool) :
    EnvMoved cfg w.1 (applyEvents cfg idle evs w).1 := by
  induction evs generalizing w with
  | nil => exact .refl _ _
  | cons ev rest ih => exact (applyEvent_moved cfg idle w ev).trans (ih _)

/-- While the block is busy the environment only ever sets the flag (20_memory.md R56). -/
theorem applyEvents_flag (cfg : Cfg) (evs : List EnvEvent) (w : Env × Bool) (h : w.2 = true) :
    (applyEvents cfg false evs w).2 = true := by
  induction evs generalizing w with
  | nil => exact h
  | cons ev rest ih =>
    refine ih _ ?_
    cases ev <;> simp [applyEvent, flagAfterLine, takeActivityInterrupt, h]

theorem dropTurn_moved (cfg : Cfg) (e : Env) : EnvMoved cfg e (dropTurn e) := by
  unfold dropTurn
  split <;> exact ⟨rfl, rfl, rfl, Nat.le_refl _, id, fun _ => rfl⟩

theorem envSteps_moved (s : State) : EnvMoved s.cfg s.env (envSteps s).env :=
  (dropTurn_moved s.cfg s.env).trans (applyEvents_moved _ _ _ (dropTurn s.env, s.blk.activitySignal))

theorem envSteps_regs (s : State) : SameRegisters s.blk (envSteps s).blk := rfl

theorem envSteps_flag (s : State) (hs : s.seq ≠ .idle) (h : s.blk.activitySignal = true) :
    (envSteps s).blk.activitySignal = true := by
  have : (s.seq == .idle) = false := by simpa using hs
  simp only [envSteps, worldAfterTurn, this]
  exact applyEvents_flag _ _ _ h

/-! ### Pins -/

theorem pinAt_setPin (e : Env) (space space' : PinSpace) (p q : PinNum) (v : Pin) :
    pinAt (setPin e space p v) space' q = if space' = space ∧ q = p then v else pinAt e space' q := by
  cases space <;> cases space' <;> simp [pinAt, pinsOf, setPin, readPin_writePin, BitVec.toNat_inj]

/-- A pin depends on its own space alone. -/
theorem pinAt_congr {e e' : Env} (hctrl : e'.ctrlPins = e.ctrlPins) (hhost : e'.hostPins = e.hostPins) (space : PinSpace)
    (p : PinNum) : pinAt e' space p = pinAt e space p := by
  cases space <;> simp [pinAt, pinsOf, hctrl, hhost]

theorem envSteps_pinAt (s : State) (space : PinSpace) (p : PinNum) : pinAt (envSteps s).env space p = pinAt s.env space p :=
  pinAt_congr (envSteps_moved s).ctrlPins (envSteps_moved s).hostPins space p

/-! ### What a stretch of calls does to the mode and to the pins -/

/-- The turns of a stretch and of the next are those of both. -/
theorem NoSelfWake.split {cfg : Cfg} {e e' : Env} {c : List Call} {n : Nat} (ht : Timed cfg e e' c)
    (h : NoSelfWake cfg e (c.length + n)) : NoSelfWake cfg e c.length ∧ NoSelfWake cfg e' n := by
  rcases h with h | h
  · exact ⟨.inl h, .inl h⟩
  · refine ⟨.inr fun k hk => h k (by omega), .inr fun k hk => ?_⟩
    rw [turnAt_shift ht.script ht.turns]
    exact h _ (by omega)

theorem NoSelfWake.mono {cfg : Cfg} {e : Env} {m n : Nat} (h : NoSelfWake cfg e n) (hm : m ≤ n) : NoSelfWake cfg e m :=
  h.imp_right fun h k hk => h k (by omega)

theorem applyEvents_mode {cfg : Cfg} (idle : Bool) {evs : List EnvEvent} (w : Env × Bool) (h : EnvEvent.selfWake ∉ evs) :
    (applyEvents cfg idle evs w).1.mode = w.1.mode := by
  induction evs generalizing w with
  | nil => rfl
  | cons ev rest ih =>
    rw [List.mem_cons, not_or] at h
    refine (ih _ h.2).trans ?_
    cases ev <;> first | rfl | exact absurd rfl h.1

/-- Without a self-wake in its turn the environment leaves the mode alone (60_exceptions.md R208). -/
theorem envSteps_mode {s : State} (h : NoSelfWake s.cfg s.env 1) : (envSteps s).env.mode = s.env.mode := by
  rcases h with h | h
  · exact (envSteps_moved s).mode h
  · have h0 := h 0 Nat.one_pos
    rw [turnAt_zero] at h0
    refine (applyEvents_mode _ _ h0).trans ?_
    unfold dropTurn
    split <;> rfl

theorem modeAfterCalls_append (m : Mode) (c d : List Call) :
    modeAfterCalls m (c ++ d) = modeAfterCalls (modeAfterCalls m c) d := List.foldl_append

theorem pinAfterCalls_append (space : PinSpace) (p : PinNum) (v : Pin) (c d : List Call) :
    pinAfterCalls space p v (c ++ d) = pinAfterCalls space p (pinAfterCalls space p v c) d := List.foldl_append

/-- Calls that end Awake end so too from a mode that is Awake wherever theirs was. -/
theorem modeAfterCalls_awake {m m' : Mode} (hm : m = .awake → m' = .awake) {calls : List Call}
    (h : modeAfterCalls m calls = .awake) : modeAfterCalls m' calls = .awake := by
  induction calls generalizing m m' with
  | nil => exact hm h
  | cons c rest ih =>
    refine ih (m := modeAfterCall m c) (fun hc => ?_) h
    unfold modeAfterCall at *
    split at hc <;> simp_all

/-- What a stretch of calls does to the mode and to the pins, and what its `P.getMode` calls are answered. -/
structure Tracked (cfg : Cfg) (e e' : Env) (calls : List Call) : Prop where
  awake : modeAfterCalls e.mode calls = .awake → e'.mode = .awake
  mode : NoSelfWake cfg e calls.length → e'.mode = modeAfterCalls e.mode calls
  answers : ModeAnswers cfg e calls
  pins : PinsFollow e e' calls

theorem Tracked.refl (cfg : Cfg) (e : Env) : Tracked cfg e e [] := ⟨id, fun _ => rfl, by intro k m h; simp at h, fun _ _ => rfl⟩

theorem Tracked.trans {cfg : Cfg} {e e' e'' : Env} {c d : List Call} (h : Tracked cfg e e' c) (ht : Timed cfg e e' c)
    (h' : Tracked cfg e' e'' d) : Tracked cfg e e'' (c ++ d) where
  awake := by
    rw [modeAfterCalls_append]
    exact fun ha => h'.awake (modeAfterCalls_awake h.awake ha)
  mode := by
    rw [List.length_append, modeAfterCalls_append]
    intro hn
    obtain ⟨h1, h2⟩ := hn.split ht
    rw [h'.mode h2, h.mode h1]
  answers := by
    intro k m hk
    by_cases hlt : k < c.length
    · rw [List.getElem?_append_left hlt] at hk
      rw [List.take_append_of_le_length (by omega)]
      exact h.answers k m hk
    · rw [List.getElem?_append_right (by omega)] at hk
      obtain ⟨h1, h2⟩ := h'.answers _ m hk
      rw [List.take_append, List.take_of_length_le (by omega), modeAfterCalls_append]
      refine ⟨fun ha => h1 (modeAfterCalls_awake h.awake ha), fun hn => ?_⟩
      rw [show k + 1 = c.length + (k - c.length + 1) by omega] at hn
      obtain ⟨g1, g2⟩ := hn.split ht
      rw [h2 g2, h.mode g1]
  pins := fun space p => by rw [h'.pins, h.pins, pinAfterCalls_append]

/-- A call: the environment's steps, then what the call itself does to the mode and to the pins. -/
theorem Tracked.call {s : State} {e' : Env} {c : Call} (hmode : e'.mode = modeAfterCall (envSteps s).env.mode c)
    (hanswer : ∀ m, c = .getMode m → m = (envSteps s).env.mode)
    (hpins : ∀ space p, pinAt e' space p = pinAfterCall space p (pinAt s.env space p) c) : Tracked s.cfg s.env e' [c] where
  awake := fun ha => by
    rw [hmode]
    exact modeAfterCalls_awake (calls := [c]) (envSteps_moved s).awake ha
  mode := fun hn => by rw [hmode, envSteps_mode hn]; rfl
  answers := by
    intro k m hk
    cases k with
    | zero =>
      rw [hanswer m (by simpa using hk)]
      exact ⟨(envSteps_moved s).awake, envSteps_mode⟩
    | succ k => simp at hk
  pins := hpins

/-- A call that touches no pin. -/
theorem Tracked.quiet {s : State} {e' : Env} {c : Call} (hmode : e'.mode = modeAfterCall (envSteps s).env.mode c)
    (hanswer : ∀ m, c = .getMode m → m = (envSteps s).env.mode) (hctrl : e'.ctrlPins = (envSteps s).env.ctrlPins)
    (hhost : e'.hostPins = (envSteps s).env.hostPins) (hc : ∀ space p v, pinAfterCall space p v c = v) :
    Tracked s.cfg s.env e' [c] :=
  .call hmode hanswer fun space p => by rw [hc, pinAt_congr hctrl hhost, envSteps_pinAt]

end Sys2Proof.Machine
end

