-- ==== Sys2Proof/Laws/Ops.lean ====
section
/-! SUPPORT. What each shared operation can do, said once: every environment call runs the environment's steps, appends itself to the
history and leaves the rest alone. -/

namespace Sys2Proof.Machine

/-! ### What a stretch of an operation leaves alone -/

/-- A stretch of an operation that made some calls: what every stretch leaves alone, what it takes of the environment's turns, and what
its calls do to the mode and to the pins. -/
structure Ran (s t : State) (calls : List Call) : Prop where
  cfg : t.cfg = s.cfg
  seq : t.seq = s.seq
  presented : t.presented = s.presented
  history : t.env.history = s.env.history ++ calls
  clock : s.env.clock.toNat ≤ t.env.clock.toNat
  timed : Timed s.cfg s.env t.env calls
  tracked : Tracked s.cfg s.env t.env calls

theorem Ran.refl (s : State) : Ran s s [] := ⟨rfl, rfl, rfl, by simp, Nat.le_refl _, .refl _ _, .refl _ _⟩

theorem Ran.trans {s t u : State} {c d : List Call} (h : Ran s t c) (h' : Ran t u d) : Ran s u (c ++ d) where
  cfg := h'.cfg.trans h.cfg
  seq := h'.seq.trans h.seq
  presented := h'.presented.trans h.presented
  history := by rw [h'.history, h.history, List.append_assoc]
  clock := Nat.le_trans h.clock h'.clock
  timed := h.timed.trans (h.cfg ▸ h'.timed) h.clock
  tracked := h.tracked.trans h.timed (h.cfg ▸ h'.tracked)

theorem SameRegisters.refl (b : Block) : SameRegisters b b := rfl

theorem SameRegisters.trans {b c d : Block} (h : SameRegisters b c) (h' : SameRegisters c d) : SameRegisters b d := by
  unfold SameRegisters at *
  rw [h', h]

/-- While the block is busy, a set flag stays set. -/
def FlagRan (s t : State) : Prop := s.seq ≠ .idle → s.blk.activitySignal = true → t.blk.activitySignal = true

theorem FlagRan.trans {s t u : State} (hseq : t.seq = s.seq) (h : FlagRan s t) (h' : FlagRan t u) : FlagRan s u :=
  fun hs hf => h' (hseq ▸ hs) (h hs hf)

/-- A stretch that writes no register of the block and no pin. -/
structure Plain (s t : State) (calls : List Call) : Prop where
  ran : Ran s t calls
  regs : SameRegisters s.blk t.blk
  flag : FlagRan s t
  pins : PinsKept s t
  free : t.free = s.free

theorem Plain.refl (s : State) : Plain s s [] := ⟨.refl s, rfl, fun _ h => h, ⟨rfl, rfl⟩, rfl⟩

theorem Plain.trans {s t u : State} {c d : List Call} (h : Plain s t c) (h' : Plain t u d) : Plain s u (c ++ d) where
  ran := h.ran.trans h'.ran
  regs := h.regs.trans h'.regs
  flag := h.flag.trans h.ran.seq h'.flag
  pins := ⟨h'.pins.1.trans h.pins.1, h'.pins.2.trans h.pins.2⟩
  free := h'.free.trans h.free

/-- A stretch that writes nothing of the machine but what a block's registers hold. -/
theorem Ran.silent {s t : State} (hcfg : t.cfg = s.cfg) (hseq : t.seq = s.seq) (hpresented : t.presented = s.presented)
    (henv : t.env = s.env) : Ran s t [] where
  cfg := hcfg
  seq := hseq
  presented := hpresented
  history := by rw [henv, List.append_nil]
  clock := by rw [henv]
  timed := henv ▸ .refl _ _
  tracked := henv ▸ .refl _ _

/-- A call: the environment's steps, then at most the flag, the pins and the environment's own state, and the call itself. -/
theorem Ran.call {s t : State} {c : Call} (hcfg : t.cfg = s.cfg) (hseq : t.seq = s.seq) (hpresented : t.presented = s.presented)
    (hhistory : t.env.history = (envSteps s).env.history ++ [c])
    (hclock : (envSteps s).env.clock.toNat ≤ t.env.clock.toNat) (timed : Timed s.cfg s.env t.env [c])
    (tracked : Tracked s.cfg s.env t.env [c]) : Ran s t [c] where
  cfg := hcfg
  seq := hseq
  presented := hpresented
  history := by rw [hhistory, (envSteps_moved s).history]
  clock := Nat.le_trans (envSteps_moved s).clock hclock
  timed := timed
  tracked := tracked

/-- A call that leaves the clock and the time premise as the environment's steps left them. -/
theorem Timed.still {s : State} {e' : Env} {c : Call} (hscript : e'.script = (envSteps s).env.script)
    (hturns : e'.turns = (envSteps s).env.turns) (hanswer : AnswerGiven (nextTurn s.env) c)
    (hclock : e'.clock = (envSteps s).env.clock) (hbroken : e'.timeBroken = (envSteps s).env.timeBroken)
    (hnow : ∀ n, c ≠ .now n) : Timed s.cfg s.env e' [c] :=
  .call hscript hturns hanswer (by rw [hclock]) (by have := envSteps_clock s; rw [hclock]; omega) (by rw [hbroken]; exact id)
    (by rw [hbroken]; exact fun _ h => h) (fun n h => absurd h (hnow n))

/-- A call that writes no register of the block and no pin. -/
theorem Plain.call {s t : State} {c : Call} (ran : Ran s t [c]) (hblk : t.blk = (envSteps s).blk)
    (hctrl : t.env.ctrlPins = (envSteps s).env.ctrlPins) (hhost : t.env.hostPins = (envSteps s).env.hostPins)
    (hfree : t.free = s.free) : Plain s t [c] where
  ran := ran
  regs := by rw [hblk]; exact envSteps_regs s
  flag := by unfold FlagRan; rw [hblk]; exact envSteps_flag s
  pins := ⟨hctrl.trans (envSteps_moved s).ctrlPins, hhost.trans (envSteps_moved s).hostPins⟩
  free := hfree

/-! ### The environment calls -/

theorem now_timed (s : State) : Timed s.cfg s.env (now s).2.env [.now (now s).1] :=
  .call rfl rfl trivial (Nat.le_refl _) (by have := envSteps_clock s; change (envSteps s).env.clock.toNat ≤ _; omega)
    (by intro h; simp [now, h])
    (by
      intro h h'
      simp only [now, record_timeBroken, checkRead_timeBroken, h', Bool.false_or, decide_eq_false_iff_not]
      exact Nat.not_lt.2 h)
    (by
      intro n h
      cases h
      exact ⟨rfl, fun h => Bool.or_eq_true_iff.2 (.inr (decide_eq_true h))⟩)

theorem now_plain (s : State) : Plain s (now s).2 [.now (now s).1] :=
  .call (.call rfl rfl rfl rfl (Nat.le_refl _) (now_timed s) (.quiet rfl nofun rfl rfl fun _ _ _ => rfl)) rfl rfl rfl rfl

@[simp] theorem now_clock (s : State) : (now s).2.env.clock = (now s).1 := rfl

@[simp] theorem now_mode (s : State) : (now s).2.env.mode = (envSteps s).env.mode := rfl

theorem le_now (s : State) : s.env.clock.toNat ≤ (now s).1.toNat := (envSteps_moved s).clock

theorem checkReceiveAvailable_plain (s : State) :
    Plain s (checkReceiveAvailable s).2 [.checkReceiveAvailable (checkReceiveAvailable s).1] :=
  .call (.call rfl rfl rfl rfl (Nat.le_refl _) (.still rfl rfl trivial rfl rfl nofun)
    (.quiet rfl nofun rfl rfl fun _ _ _ => rfl)) rfl rfl rfl rfl

@[simp] theorem checkReceiveAvailable_mode (s : State) : (checkReceiveAvailable s).2.env.mode = (envSteps s).env.mode := rfl

/-- A frame is read only where the turn lets the read succeed. -/
theorem readAnswer_given (t : Turn) (q : List Frame) : AnswerGiven t (.readFrame (readAnswer t.ok q)) := by
  cases q with
  | nil => trivial
  | cons f rest => cases h : t.ok <;> simp [readAnswer, AnswerGiven, h]

theorem readFrame_plain (s : State) : Plain s (readFrame s).2 [.readFrame (readFrame s).1] :=
  .call (.call rfl rfl rfl rfl (Nat.le_refl _) (.still rfl rfl (readAnswer_given _ _) rfl rfl nofun)
    (.quiet rfl nofun rfl rfl fun _ _ _ => rfl)) rfl rfl rfl rfl

@[simp] theorem readFrame_mode (s : State) : (readFrame s).2.env.mode = (envSteps s).env.mode := rfl

theorem sendFrame_plain (id : IdWord) (ext : Bool) (length : LenField) (data : List Byte) (s : State) :
    Plain s (sendFrame id ext length data s).2 [.sendFrame id ext length data (sendFrame id ext length data s).1] :=
  .call (.call rfl rfl rfl rfl (Nat.le_refl _) (.still rfl rfl rfl rfl rfl nofun)
    (.quiet rfl nofun rfl rfl fun _ _ _ => rfl)) rfl rfl rfl rfl

@[simp] theorem sendFrame_mode (id : IdWord) (ext : Bool) (length : LenField) (data : List Byte) (s : State) :
    (sendFrame id ext length data s).2.env.mode = (envSteps s).env.mode := rfl

theorem modeAfterSleep_eq (r : Result) (m : Mode) : modeAfterSleep r m = modeAfterCall m (.sleep r) := by cases r <;> rfl

theorem modeAfterWake_eq (r : Result) (m : Mode) : modeAfterWake r m = modeAfterCall m (.wake r) := by cases r <;> rfl

theorem periphSleep_plain (s : State) : Plain s (periphSleep s).2 [.sleep (periphSleep s).1] :=
  .call (.call rfl rfl rfl rfl (Nat.le_refl _) (.still rfl rfl rfl rfl rfl nofun)
    (.quiet (modeAfterSleep_eq _ _) nofun rfl rfl fun _ _ _ => rfl)) rfl rfl rfl rfl

@[simp] theorem periphSleep_mode (s : State) :
    (periphSleep s).2.env.mode = modeAfterSleep (periphSleep s).1 (envSteps s).env.mode := rfl

theorem periphWake_plain (s : State) : Plain s (periphWake s).2 [.wake (periphWake s).1] :=
  .call (.call rfl rfl rfl rfl (Nat.le_refl _) (.still rfl rfl rfl rfl rfl nofun)
    (.quiet (modeAfterWake_eq _ _) nofun rfl rfl fun _ _ _ => rfl)) rfl rfl rfl rfl

@[simp] theorem periphWake_mode (s : State) :
    (periphWake s).2.env.mode = modeAfterWake (periphWake s).1 (envSteps s).env.mode := rfl

theorem modeAfterGetMode (m : Mode) : m = modeAfterCall m (.getMode m) := by cases m <;> rfl

theorem getMode_plain (s : State) : Plain s (getMode s).2 [.getMode (getMode s).1] :=
  .call (.call rfl rfl rfl rfl (Nat.le_refl _) (.still rfl rfl trivial rfl rfl nofun)
    (.quiet (modeAfterGetMode _) (fun _ h => (Call.getMode.inj h).symm) rfl rfl fun _ _ _ => rfl)) rfl rfl rfl rfl

@[simp] theorem getMode_mode (s : State) : (getMode s).2.env.mode = (getMode s).1 := rfl

theorem getMode_answer (s : State) : (getMode s).1 = (envSteps s).env.mode := rfl

theorem clockAfterDelay_toNat {before d clock : Time} (h : before.toNat + d.toNat ≤ clockLimit) :
    (clockAfterDelay before d clock).toNat = max clock.toNat (before.toNat + d.toNat) := by
  have := clock.isLt
  simp only [clockAfterDelay, clockLimit, BitVec.toNat_ofNat] at *
  omega

/-- `Delay(d)` runs when its end is on the clock, and takes at least `d` (60_exceptions.md R199). -/
theorem delay_ok (d : Time) (s : State) (h : s.env.clock.toNat + d.toNat ≤ clockLimit) :
    ∃ t, delay d s = .ok t ∧ Plain s t [.delay d] ∧ s.env.clock.toNat + d.toNat ≤ t.env.clock.toNat
      ∧ t.env.mode = (envSteps s).env.mode := by
  have hn : ¬ s.env.clock.toNat + d.toNat > clockLimit := by omega
  have hc := clockAfterDelay_toNat (clock := (envSteps s).env.clock) h
  have he := envSteps_clock s
  have hge : (envSteps s).env.clock.toNat ≤ (clockAfterDelay s.env.clock d (envSteps s).env.clock).toNat := by omega
  refine ⟨_, if_neg hn, .call (.call rfl rfl rfl rfl hge (.call rfl rfl trivial hge ?_ id (fun _ h => h) nofun)
    (.quiet rfl nofun rfl rfl fun _ _ _ => rfl)) rfl rfl rfl rfl, ?_, rfl⟩
  · simp only [record_clock, setClock, callDelay]; omega
  · simp only [record_clock, setClock]; omega

theorem delay_plain {d : Time} {s t : State} (h : delay d s = .ok t) :
    Plain s t [.delay d] ∧ s.env.clock.toNat + d.toNat ≤ t.env.clock.toNat ∧ t.env.mode = (envSteps s).env.mode := by
  have hn : s.env.clock.toNat + d.toNat ≤ clockLimit := by
    by_contra hc
    rw [delay, if_pos (by omega)] at h
    cases h
  obtain ⟨t', ht', h'⟩ := delay_ok d s hn
  rw [h] at ht'
  cases ht'
  exact h'

/-! ### Pins -/

/-- A stretch that writes no register of the block and at most one pin. -/
structure OnePin (pin : Option (PinSpace × PinNum)) (s t : State) (calls : List Call) : Prop where
  ran : Ran s t calls
  regs : SameRegisters s.blk t.blk
  flag : FlagRan s t
  pins : PinsKeptBut pin s t
  free : t.free = s.free

theorem Plain.onePin {s t : State} {calls : List Call} (h : Plain s t calls) (pin : Option (PinSpace × PinNum)) :
    OnePin pin s t calls where
  ran := h.ran
  regs := h.regs
  flag := h.flag
  pins := fun space p _ => pinAt_congr h.pins.1 h.pins.2 space p
  free := h.free

theorem OnePin.trans {pin : Option (PinSpace × PinNum)} {s t u : State} {c d : List Call} (h : OnePin pin s t c)
    (h' : OnePin pin t u d) : OnePin pin s u (c ++ d) where
  ran := h.ran.trans h'.ran
  regs := h.regs.trans h'.regs
  flag := h.flag.trans h.ran.seq h'.flag
  pins := fun space p hp => (h'.pins space p hp).trans (h.pins space p hp)
  free := h'.free.trans h.free

/-- A call that sets one pin, to what the call makes of it. -/
theorem OnePin.call {space : PinSpace} {p : PinNum} {v : Pin} {c : Call} {s : State} (hanswer : AnswerGiven (nextTurn s.env) c)
    (hnow : ∀ n, c ≠ .now n) (hmode : ∀ m, modeAfterCall m c = m) (hget : ∀ m, c ≠ .getMode m)
    (hpin : ∀ space' q w, pinAfterCall space' q w c = if space' = space ∧ q = p then pinAfterCall space p w c else w)
    (hv : v = pinAfterCall space p (pinAt (envSteps s).env space p) c) :
    OnePin (some (space, p)) s (record c (setPinState space p v (envSteps s))) [c] where
  ran := by
    have hpins : ∀ space' q, pinAt (record c (setPinState space p v (envSteps s))).env space' q
        = pinAfterCall space' q (pinAt s.env space' q) c := fun space' q => by
      rw [hpin]
      refine (pinAt_setPin _ _ _ _ _ _).trans ?_
      split
      · next h => rw [hv, envSteps_pinAt, h.1, h.2]
      · exact envSteps_pinAt _ _ _
    have htracked : Tracked s.cfg s.env (record c (setPinState space p v (envSteps s))).env [c] :=
      .call (by rw [hmode]; cases space <;> rfl) (fun m h => absurd h (hget m)) hpins
    cases space <;> exact .call rfl rfl rfl rfl (Nat.le_refl _) (.still rfl rfl hanswer rfl rfl hnow) htracked
  regs := rfl
  flag := envSteps_flag s
  pins := fun space' q hq => by
    have hne : ¬ (space' = space ∧ q = p) := by
      rintro ⟨rfl, rfl⟩
      exact hq rfl
    exact ((pinAt_setPin _ _ _ _ _ _).trans (if_neg hne)).trans (envSteps_pinAt _ _ _)
  free := rfl

theorem setPinMode_onePin (space : PinSpace) (p : PinNum) (d : PinDir) (s : State) :
    OnePin (some (space, p)) s (setPinMode space p d s) [.setPinMode space p d] :=
  .call trivial nofun (fun _ => rfl) nofun (fun _ _ _ => by simp [pinAfterCall]) (by simp [pinAfterCall])

@[simp] theorem setPinMode_mode (space : PinSpace) (p : PinNum) (d : PinDir) (s : State) :
    (setPinMode space p d s).env.mode = (envSteps s).env.mode := by cases space <;> rfl

theorem digitalWrite_onePin (space : PinSpace) (p : PinNum) (l : Bool) (s : State) :
    OnePin (some (space, p)) s (digitalWrite space p l s) [.digitalWrite space p l] :=
  .call trivial nofun (fun _ => rfl) nofun (fun _ _ _ => by simp [pinAfterCall]) (by simp [pinAfterCall])

@[simp] theorem digitalWrite_mode (space : PinSpace) (p : PinNum) (l : Bool) (s : State) :
    (digitalWrite space p l s).env.mode = (envSteps s).env.mode := by cases space <;> rfl

/-- `DrivePin` writes the standby pin, if one is configured, and nothing else (42_power_controller.md R135). -/
theorem drivePin_onePin (l : Bool) (s : State) : OnePin (standbyPin s.blk) s (drivePin l s) (pinCalls s.blk l) := by
  unfold drivePin pinCalls standbyPin
  cases s.blk.stbyPinRoute
  · exact (Plain.refl s).onePin _
  · exact digitalWrite_onePin _ _ _ _
  · exact digitalWrite_onePin _ _ _ _

/-! ### The activity flag -/

/-- The sample-and-clear leaves everything but the flag alone (43_link_driver.md R168). -/
theorem sampleAndClear_ran (s : State) :
    Ran s (sampleAndClear s) [.intLine (envSteps s).env.intLine] ∧ SameRegisters s.blk (sampleAndClear s).blk
      ∧ PinsKept s (sampleAndClear s) ∧ (sampleAndClear s).free = s.free
      ∧ ((envSteps s).env.intLine = true → (sampleAndClear s).blk.activitySignal = false)
      ∧ ((envSteps s).env.intLine = false → (sampleAndClear s).blk.activitySignal = (envSteps s).blk.activitySignal) := by
  refine ⟨.call rfl rfl rfl rfl (Nat.le_refl _) (.still rfl rfl trivial rfl rfl nofun)
      (.quiet rfl nofun rfl rfl fun _ _ _ => rfl), rfl,
    ⟨(envSteps_moved s).ctrlPins, (envSteps_moved s).hostPins⟩, rfl, ?_, ?_⟩ <;>
  · intro hl; simp [sampleAndClear, setFlag, flagAfterSample, hl]

@[simp] theorem sampleAndClear_mode (s : State) : (sampleAndClear s).env.mode = (envSteps s).env.mode := rfl

/-! ### Beginning and ending an operation -/

@[simp] theorem whenIdle_idle {s : State} (h : s.seq = .idle) (op : BitVec 4) (run : State → Host.Outcome State Fault Refusal) :
    whenIdle op s run = run (beginOp op s) := by simp [whenIdle, h]

@[simp] theorem whenIdle_busy {s : State} {op : BitVec 4} (h : s.seq = .executing op) (op' : BitVec 4)
    (run : State → Host.Outcome State Fault Refusal) : whenIdle op' s run = .refused .busy := by simp [whenIdle, h]

/-- An operation that answers began on an idle block. -/
theorem whenIdle_next {op : BitVec 4} {s t : State} {run : State → Host.Outcome State Fault Refusal}
    (h : whenIdle op s run = .next t) : s.seq = .idle ∧ run (beginOp op s) = .next t := by
  cases hs : s.seq with
  | idle => exact ⟨rfl, by rwa [whenIdle_idle hs] at h⟩
  | executing o => rw [whenIdle_busy hs] at h; cases h

theorem outcomeOf_next {r : Except Refusal State} {t : State} (h : outcomeOf r = .next t) : r = .ok t := by
  cases r <;> simp [outcomeOf] at h
  exact congrArg _ h

/-- Ending the operation a stretch belongs to. -/
theorem Ran.finished {op : BitVec 4} {s t : State} {calls : List Call} (h : Ran (beginOp op s) t calls) (r : OpResult) :
    OutsideKept s (finish r t) ∧ CallsMade s (finish r t) calls :=
  ⟨⟨h.cfg, h.presented, rfl, h.clock⟩, h.history⟩

/-- Whether the block is idle does not tell in the clock. -/
theorem now_beginOp (op : BitVec 4) (s : State) : (now (beginOp op s)).1 = (now s).1 := by
  apply BitVec.eq_of_toNat_eq
  change (envSteps (beginOp op s)).env.clock.toNat = (envSteps s).env.clock.toNat
  rw [envSteps_clock, envSteps_clock]
  rfl

theorem autosleepDefinedAfterWake_beginOp (op : BitVec 4) (s : State) :
    AutosleepDefinedAfterWake (beginOp op s) ↔ AutosleepDefinedAfterWake s := by
  simp [AutosleepDefinedAfterWake, now_beginOp]

theorem beginOp_busy (op : BitVec 4) (s : State) : (beginOp op s).seq ≠ .idle := by simp

end Sys2Proof.Machine
end

