-- ==== Sys2Proof/Laws/Filter.lean ====
section
/-! SUPPORT. The payload operations and what DF_CHECK can do (spec/41_duplicate_filter.md). -/

namespace Sys2Proof.Machine

@[simp] theorem overlay_getElem (length : Nat) (new old : Payload) (i : Nat) (hi : i < 8) :
    (overlay length new old)[i] = if i < length then new[i] else old[i] := by
  simp [overlay]

theorem payloadDiffers_iff (length : Nat) (a b : Payload) :
    payloadDiffers length a b = true ↔ ∃ i : Fin 8, i.val < length ∧ a[i] ≠ b[i] := by
  simp [payloadDiffers]

/-- The decision looks at no byte of index >= length (41_duplicate_filter.md R122). -/
theorem payloadDiffers_congr {length : Nat} {a a' : Payload} (b : Payload) (h : ∀ i : Fin 8, i.val < length → a[i] = a'[i]) :
    payloadDiffers length a b = payloadDiffers length a' b := by
  rw [Bool.eq_iff_iff, payloadDiffers_iff, payloadDiffers_iff]
  constructor <;> rintro ⟨i, hi, hne⟩ <;> exact ⟨i, hi, by simpa [h i hi] using hne⟩

theorem overlay_congr {length : Nat} {a a' : Payload} (b : Payload) (h : ∀ i : Fin 8, i.val < length → a[i] = a'[i]) :
    overlay length a b = overlay length a' b := by
  unfold overlay
  congr 1
  funext i
  split
  · next hi => exact h i hi
  · rfl

/-- DF_CHECK's decision is its five grounds (41_duplicate_filter.md R120). -/
theorem acceptsFrame_iff (cfg : Cfg) (b : Block) (n : Time) (id : IdWord) (length : LenField) (payload : Payload) :
    acceptsFrame cfg b n id length payload = true ↔ AcceptGround cfg b n id length payload := by
  simp only [acceptsFrame, sameAsRecord, windowPassed, AcceptGround, Bool.or_eq_true, Bool.not_eq_true', Bool.and_eq_false_iff,
    Bool.not_eq_false', payloadDiffers_iff, decide_eq_true_eq, beq_eq_false_iff_ne, ne_eq, or_assoc]
  exact or_congr Iff.rfl (or_congr Iff.rfl (or_congr Iff.rfl or_comm))

theorem acceptsFrame_false_iff (cfg : Cfg) (b : Block) (n : Time) (id : IdWord) (length : LenField) (payload : Payload) :
    acceptsFrame cfg b n id length payload = false ↔ ¬ AcceptGround cfg b n id length payload := by
  rw [← acceptsFrame_iff]; simp

/-- The registers a decision reads are the environment's to leave alone. -/
theorem acceptGround_congr {cfg : Cfg} {b c : Block} (h : SameRegisters b c) (n : Time) (id : IdWord) (length : LenField)
    (payload : Payload) : AcceptGround cfg c n id length payload ↔ AcceptGround cfg b n id length payload := by
  rw [h]; rfl

/-- DF_CHECK answers when the clock read is not before the record's timestamp, and then its decision and its registers are these
(41_duplicate_filter.md R120, R124, R125; 00_scope.md R13). -/
theorem dfCheckOp_eq (id : IdWord) (length : LenField) (payload : Payload) (s : State) :
    dfCheckOp id length payload s
      = if (now s).1.toNat < s.blk.dfTime.toNat then .error .clockBeforeRecord
        else .ok (acceptsFrame s.cfg s.blk (now s).1 id length payload,
          { (now s).2 with
            blk := checkedBlock (acceptsFrame s.cfg s.blk (now s).1 id length payload) (now s).2.blk (now s).1 id length payload }) := by
  simp only [dfCheckOp, elapsedUndefined, decide_eq_true_eq]
  rfl

/-- The ways DF_CHECK can go (41_duplicate_filter.md R120, R124, R125). -/
theorem dfCheckOp_cases {id : IdWord} {length : LenField} {payload : Payload} {s : State} {r : Bool × State}
    (h : dfCheckOp id length payload s = .ok r) :
    (AcceptGround s.cfg s.blk (now s).1 id length payload
        ∧ r = (true, { (now s).2 with blk := overwriteRecord (now s).2.blk (now s).1 id length payload }))
      ∨ (¬ AcceptGround s.cfg s.blk (now s).1 id length payload ∧ r = (false, (now s).2)) := by
  rw [dfCheckOp_eq] at h
  split at h
  · cases h
  · injection h with h
    cases ha : acceptsFrame s.cfg s.blk (now s).1 id length payload <;> rw [ha] at h
    · exact .inr ⟨(acceptsFrame_false_iff _ _ _ _ _ _).1 ha, h.symm⟩
    · exact .inl ⟨(acceptsFrame_iff _ _ _ _ _ _).1 ha, h.symm⟩

/-- DF_CHECK runs when the record is not from after the clock (00_scope.md R13). -/
theorem dfCheckOp_ok {s : State} (h : s.blk.dfTime.toNat ≤ s.env.clock.toNat) (id : IdWord) (length : LenField)
    (payload : Payload) : ∃ r, dfCheckOp id length payload s = .ok r := by
  have := le_now s
  rw [dfCheckOp_eq, if_neg (by omega)]
  exact ⟨_, rfl⟩

/-- DF_CHECK: its one call, its decision, and that it writes nothing but the record (41_duplicate_filter.md R120). -/
theorem dfCheckOp_spec {id : IdWord} {length : LenField} {payload : Payload} {s : State} {r : Bool × State}
    (h : dfCheckOp id length payload s = .ok r) :
    Ran s r.2 [.now (now s).1] ∧ SameRegisters (checkedBlock r.1 s.blk (now s).1 id length payload) r.2.blk
      ∧ FlagRan s r.2 ∧ PinsKept s r.2 ∧ r.2.free = s.free ∧ r.2.env = (now s).2.env
      ∧ (r.1 = true ↔ AcceptGround s.cfg s.blk (now s).1 id length payload) := by
  have hn := now_plain s
  rcases dfCheckOp_cases h with ⟨ha, rfl⟩ | ⟨ha, rfl⟩
  · exact ⟨⟨hn.ran.cfg, hn.ran.seq, hn.ran.presented, hn.ran.history, hn.ran.clock, hn.ran.timed, hn.ran.tracked⟩, rfl, hn.flag,
      hn.pins, hn.free, rfl, by simp [ha]⟩
  · exact ⟨hn.ran, hn.regs, hn.flag, hn.pins, hn.free, rfl, by simp [ha]⟩

end Sys2Proof.Machine
end

