-- ==== Sys2Proof/Laws/Power.lean ====
section
/-! SUPPORT. What each operation of the PowerController can do, said once (spec/42_power_controller.md). -/

namespace Sys2Proof.Machine

@[simp] theorem standbyPin_flag (b : Block) (f : Bool) : standbyPin { b with activitySignal := f } = standbyPin b := rfl

theorem SameRegisters.standbyPin {b c : Block} (h : SameRegisters b c) : standbyPin c = standbyPin b := by rw [h]; rfl

theorem SameRegisters.pinCalls {b c : Block} (h : SameRegisters b c) (l : Bool) : pinCalls c l = pinCalls b l := by
  simp [Machine.pinCalls, h.standbyPin]

theorem isSleepingOp_plain (s : State) : Plain s (isSleepingOp s).2 [.getMode (isSleepingOp s).2.env.mode] := getMode_plain s

theorem isSleepingOp_answer (s : State) : (isSleepingOp s).1 = decide ((isSleepingOp s).2.env.mode = .sleeping) := rfl

@[simp] theorem isSleepingOp_mode (s : State) : (isSleepingOp s).2.env.mode = (envSteps s).env.mode := rfl

theorem mode_ne_sleeping {m : Mode} (h : m ≠ .sleeping) : m = .awake := by cases m <;> simp_all

theorem result_ne_ok {r : Result} (h : r ≠ .ok) : r = .fail := by cases r <;> simp_all

/-- The three ways SLEEP can go (42_power_controller.md R136): already sleeping, `P.sleep` failed, `P.sleep` succeeded. -/
theorem sleepOp_cases (s : State) :
    ((isSleepingOp s).2.env.mode = .sleeping ∧ sleepOp s = (.ok, (isSleepingOp s).2))
      ∨ ((isSleepingOp s).2.env.mode = .awake ∧ (periphSleep (isSleepingOp s).2).1 = .fail
          ∧ sleepOp s = (.fail, (periphSleep (isSleepingOp s).2).2))
      ∨ ((isSleepingOp s).2.env.mode = .awake ∧ (periphSleep (isSleepingOp s).2).1 = .ok
          ∧ sleepOp s = (.ok, drivePin s.cfg.stbyLevel (periphSleep (isSleepingOp s).2).2)) := by
  unfold sleepOp
  by_cases hm : (isSleepingOp s).2.env.mode = .sleeping
  · have hq : (isSleepingOp s).1 = true := by rw [isSleepingOp_answer, hm]; rfl
    exact .inl ⟨hm, by simp [hq]⟩
  · have ha := mode_ne_sleeping hm
    have hq : (isSleepingOp s).1 = false := by rw [isSleepingOp_answer, ha]; rfl
    by_cases hr : (periphSleep (isSleepingOp s).2).1 = .ok
    · exact .inr (.inr ⟨ha, hr, by simp only [hq, hr]; rfl⟩)
    · have hf := result_ne_ok hr
      exact .inr (.inl ⟨ha, hf, by simp [hq, hf]⟩)

/-- SLEEP: its calls in order, its result, and that it touches nothing but the standby pin (42_power_controller.md R136). -/
theorem sleepOp_spec (s : State) :
    ∃ calls, SleepCalls s.cfg s.blk (sleepOp s).1 calls ∧ OnePin (standbyPin s.blk) s (sleepOp s).2 calls := by
  have hq := isSleepingOp_plain s
  have hp := periphSleep_plain (isSleepingOp s).2
  rcases sleepOp_cases s with ⟨hm, h⟩ | ⟨hm, hr, h⟩ | ⟨hm, hr, h⟩ <;> rw [hm] at hq <;> rw [h]
  · exact ⟨_, .inl ⟨rfl, rfl⟩, hq.onePin _⟩
  · rw [hr] at hp
    exact ⟨_, .inr (.inl ⟨rfl, rfl⟩), (hq.trans hp).onePin _⟩
  · rw [hr] at hp
    have hqp := hq.trans hp
    have hd := drivePin_onePin s.cfg.stbyLevel (periphSleep (isSleepingOp s).2).2
    rw [hqp.regs.standbyPin, hqp.regs.pinCalls] at hd
    exact ⟨_, .inr (.inr ⟨rfl, rfl⟩), (hqp.onePin _).trans hd⟩

theorem refreshActivity_ran (s : State) : Ran s (refreshActivity s) [.now (now s).1] :=
  let h := (now_plain s).ran
  ⟨h.cfg, h.seq, h.presented, h.history, h.clock, h.timed, h.tracked⟩

/-- The two ways WAKE can go (42_power_controller.md R138). -/
theorem wakeOp_cases (s : State) :
    ((periphWake (refreshActivity s)).1 = .fail ∧ wakeOp s = (.fail, (periphWake (refreshActivity s)).2))
      ∨ ((periphWake (refreshActivity s)).1 = .ok
          ∧ wakeOp s = (.ok, drivePin (activeLevel s.cfg) (periphWake (refreshActivity s)).2)) := by
  unfold wakeOp
  by_cases hr : (periphWake (refreshActivity s)).1 = .ok
  · exact .inr ⟨hr, by simp only [hr]; rfl⟩
  · have hf := result_ne_ok hr
    exact .inl ⟨hf, by simp [hf]⟩

/-- A stretch that writes the timestamp, and at most one pin. -/
structure Woke (pin : Option (PinSpace × PinNum)) (n : Time) (s t : State) (calls : List Call) : Prop where
  ran : Ran s t calls
  regs : SameRegisters { s.blk with lastActivityTimestamp := n } t.blk
  flag : FlagRan s t
  pins : PinsKeptBut pin s t
  free : t.free = s.free

theorem Woke.onePin {pin : Option (PinSpace × PinNum)} {n : Time} {s t u : State} {c d : List Call} (h : Woke pin n s t c)
    (h' : OnePin pin t u d) : Woke pin n s u (c ++ d) where
  ran := h.ran.trans h'.ran
  regs := h.regs.trans h'.regs
  flag := h.flag.trans h.ran.seq h'.flag
  pins := fun space p hp => (h'.pins space p hp).trans (h.pins space p hp)
  free := h'.free.trans h.free

theorem refreshActivity_woke (pin : Option (PinSpace × PinNum)) (s : State) :
    Woke pin (now s).1 s (refreshActivity s) [.now (now s).1] where
  ran := refreshActivity_ran s
  regs := by
    have := (now_plain s).regs
    unfold SameRegisters at *
    simp only [refreshActivity]
    rw [this]
  flag := (now_plain s).flag
  pins := ((now_plain s).onePin pin).pins
  free := (now_plain s).free

/-- WAKE: the timestamp is the clock it read, its calls in order, its result, and that it touches nothing but the standby pin
(42_power_controller.md R138). -/
theorem wakeOp_spec (s : State) :
    ∃ calls, WakeCalls s.cfg s.blk (now s).1 (wakeOp s).1 calls
      ∧ Woke (standbyPin s.blk) (now s).1 s (wakeOp s).2 calls := by
  have hn := refreshActivity_woke (standbyPin s.blk) s
  have hp := periphWake_plain (refreshActivity s)
  rcases wakeOp_cases s with ⟨hr, h⟩ | ⟨hr, h⟩ <;> rw [hr] at hp <;> rw [h]
  · exact ⟨_, by simp [WakeCalls], hn.onePin (hp.onePin _)⟩
  · have hnp := hn.onePin (hp.onePin _)
    have hd := drivePin_onePin (activeLevel s.cfg) (periphWake (refreshActivity s)).2
    rw [hnp.regs.standbyPin, hnp.regs.pinCalls] at hd
    exact ⟨_, rfl, hnp.onePin hd⟩

/-- Driving the pin sets no mode. -/
@[simp] theorem modeAfterCalls_pinCalls (m : Mode) (b : Block) (l : Bool) : modeAfterCalls m (pinCalls b l) = m := by
  unfold pinCalls
  split <;> rfl

/-- Driving the pin leaves the standby pin at the level driven. -/
theorem pinAfterCalls_pinCalls {b : Block} {space : PinSpace} {p : PinNum} (h : standbyPin b = some (space, p)) (v : Pin) (l : Bool) :
    (pinAfterCalls space p v (pinCalls b l)).level = l := by
  simp [pinCalls, h, pinAfterCalls, pinAfterCall]

theorem delaySum_pinCalls (b : Block) (l : Bool) : delaySum (pinCalls b l) = 0 := by
  unfold pinCalls
  split <;> rfl

/-- How many calls WAKE makes is told by the turn that answers `P.wake` and by whether a pin is configured. -/
theorem wakeCalls_length {s : State} {e' : Env} {n : Time} {r : Result} {calls : List Call}
    (h : WakeCalls s.cfg s.blk n r calls) (ht : Timed s.cfg s.env e' calls) : calls.length = wakeCount s := by
  have hr : r = resultOf (turnAt s.env 1).ok := ht.answers 1 (.wake r) (by rw [h]; rfl)
  rw [h, hr, wakeCount]
  cases (turnAt s.env 1).ok <;> cases hp : standbyPin s.blk <;> simp [resultOf, Machine.pinCalls, hp]

theorem wakeCalls_delaySum {cfg : Cfg} {b : Block} {n : Time} {r : Result} {calls : List Call}
    (h : WakeCalls cfg b n r calls) : delaySum calls = 0 := by
  rw [h, delaySum_append]
  split
  · rw [delaySum_pinCalls]; rfl
  · rfl

/-- MAYBE_AUTOSLEEP runs when it needs no sum or the sum is below 2^32 (42_power_controller.md R141, 00_scope.md R13). -/
theorem maybeAutosleepOp_ok (s : State) (h : s.blk.autosleepEnabled = false ∨ keepAwakeWraps s.blk = false) :
    ∃ t, maybeAutosleepOp s = .ok t := by
  unfold maybeAutosleepOp
  by_cases he : s.blk.autosleepEnabled = true
  · have hw : keepAwakeWraps (now (checkReceiveAvailable s).2).2.blk = false := by
      rcases h with h | h
      · simp [h] at he
      · exact h
    simp only [he, if_true, hw]
    repeat' split
    all_goals simp_all
  · exact ⟨s, by simp [he]⟩

/-- The ways MAYBE_AUTOSLEEP can go (42_power_controller.md R141). -/
theorem maybeAutosleepOp_cases {s t : State} (h : maybeAutosleepOp s = .ok t) :
    (s.blk.autosleepEnabled = false ∧ t = s)
      ∨ (s.blk.autosleepEnabled = true ∧ (checkReceiveAvailable s).1 = true ∧ t = (checkReceiveAvailable s).2)
      ∨ (s.blk.autosleepEnabled = true ∧ (checkReceiveAvailable s).1 = false
          ∧ idleTimePassed s.blk (now (checkReceiveAvailable s).2).1 = false ∧ t = (now (checkReceiveAvailable s).2).2)
      ∨ (s.blk.autosleepEnabled = true ∧ (checkReceiveAvailable s).1 = false
          ∧ idleTimePassed s.blk (now (checkReceiveAvailable s).2).1 = true
          ∧ t = (sleepOp (now (checkReceiveAvailable s).2).2).2) := by
  unfold maybeAutosleepOp at h
  have hb : idleTimePassed (now (checkReceiveAvailable s).2).2.blk = idleTimePassed s.blk := rfl
  simp only [hb] at h
  split at h
  · next he =>
    split at h
    · next ha => exact .inr (.inl ⟨he, ha, by injection h with h; exact h.symm⟩)
    · next ha =>
      split at h
      · cases h
      · split at h
        · next hi => exact .inr (.inr (.inr ⟨he, by simpa using ha, hi, by injection h with h; exact h.symm⟩))
        · next hi => exact .inr (.inr (.inl ⟨he, by simpa using ha, by simpa using hi, by injection h with h; exact h.symm⟩))
  · next he => exact .inl ⟨by simpa using he, by injection h with h; exact h.symm⟩

/-- MAYBE_AUTOSLEEP: its calls in order, and that it touches nothing but the standby pin (42_power_controller.md R141). -/
theorem maybeAutosleepOp_spec {s t : State} (h : maybeAutosleepOp s = .ok t) :
    ∃ calls, AutosleepCalls s.cfg s.blk calls ∧ OnePin (standbyPin s.blk) s t calls := by
  have ha := checkReceiveAvailable_plain s
  have hn := now_plain (checkReceiveAvailable s).2
  rcases maybeAutosleepOp_cases h with ⟨he, rfl⟩ | ⟨he, hav, rfl⟩ | ⟨he, hav, hi, rfl⟩ | ⟨he, hav, hi, rfl⟩
  · exact ⟨[], .inl ⟨he, rfl⟩, (Plain.refl _).onePin _⟩
  · rw [hav] at ha
    exact ⟨_, .inr (.inl ⟨he, rfl⟩), ha.onePin _⟩
  · rw [hav] at ha
    simp only [idleTimePassed, decide_eq_false_iff_not, Nat.not_lt, gt_iff_lt] at hi
    exact ⟨_, .inr (.inr (.inl ⟨he, _, hi, rfl⟩)), (ha.trans hn).onePin _⟩
  · rw [hav] at ha
    simp only [idleTimePassed, decide_eq_true_eq] at hi
    have han := ha.trans hn
    obtain ⟨rest, hr, hp⟩ := sleepOp_spec (now (checkReceiveAvailable s).2).2
    rw [han.regs.standbyPin] at hp
    refine ⟨_, .inr (.inr (.inr ⟨he, _, (sleepOp (now (checkReceiveAvailable s).2).2).1, rest, hi, ?_, rfl⟩)), (han.onePin _).trans hp⟩
    simpa only [SleepCalls, han.ran.cfg, han.regs.pinCalls] using hr

/-- SET_STBY_PIN: its calls in order, the level written that of the mode answered (42_power_controller.md R145). -/
theorem setStbyPinOp_spec (ctrl : Bool) (p : PinNum) (s : State) :
    ∃ m : Mode,
      OnePin (some ((if ctrl then .ctrl else .host), p)) (setStbyRegisters ctrl p s) (setStbyPinOp ctrl p s)
        [.setPinMode (if ctrl then .ctrl else .host) p .output, .getMode m,
          .digitalWrite (if ctrl then .ctrl else .host) p (levelFor s.cfg m)] := by
  have hspec : ∀ space : PinSpace, ∀ s0 : State, standbyPin s0.blk = some (space, p) →
      let q := isSleepingOp (setPinMode space p .output s0)
      OnePin (some (space, p)) s0 (if q.1 then drivePin q.2.cfg.stbyLevel q.2 else drivePin (activeLevel q.2.cfg) q.2)
        [.setPinMode space p .output, .getMode q.2.env.mode, .digitalWrite space p (levelFor s0.cfg q.2.env.mode)] := by
    intro space s0 hpin q
    have h12 := (setPinMode_onePin space p .output s0).trans ((isSleepingOp_plain (setPinMode space p .output s0)).onePin _)
    have hlevel : (if q.1 then drivePin q.2.cfg.stbyLevel q.2 else drivePin (activeLevel q.2.cfg) q.2)
        = drivePin (levelFor s0.cfg q.2.env.mode) q.2 := by
      simp only [isSleepingOp_answer, levelFor, q]
      rw [h12.ran.cfg]
      by_cases hm : (isSleepingOp (setPinMode space p .output s0)).2.env.mode = .sleeping <;> simp only [hm] <;> rfl
    have h3 := drivePin_onePin (levelFor s0.cfg q.2.env.mode) q.2
    rw [pinCalls, h12.regs.standbyPin, hpin] at h3
    rw [hlevel]
    exact h12.trans h3
  cases ctrl
  · exact ⟨_, hspec .host (setStbyRegisters false p s) rfl⟩
  · exact ⟨_, hspec .ctrl (setStbyRegisters true p s) rfl⟩

end Sys2Proof.Machine
end

