-- ==== Sys2Proof/Laws/Link.lean ====
section
/-! SUPPORT. What the stretches of SEND and RECEIVE can do (spec/43_link_driver.md). -/

namespace Sys2Proof.Machine

theorem map_ok {α β : Type} {e : Except Refusal α} {f : α → β} {b : β} (h : e.map f = .ok b) : ∃ a, e = .ok a ∧ f a = b := by
  cases e with
  | error x => cases h
  | ok a => exact ⟨a, rfl, by injection h⟩

/-- The ways S3 and S4 of SEND can go (43_link_driver.md R162): no handshake, a failed one, or one followed by the delay. -/
theorem handshakeOp_cases {s : State} {r : Bool × State} (h : handshakeOp s = .ok r) :
    (s.cfg.wakeupHsEnabled = false ∧ r = (true, s))
      ∨ (s.cfg.wakeupHsEnabled = true ∧ (sendFrame s.cfg.hsId s.cfg.hsExt 1 [s.cfg.hsByte] s).1 = .fail
          ∧ r = (false, (sendFrame s.cfg.hsId s.cfg.hsExt 1 [s.cfg.hsByte] s).2))
      ∨ (s.cfg.wakeupHsEnabled = true ∧ (sendFrame s.cfg.hsId s.cfg.hsExt 1 [s.cfg.hsByte] s).1 = .ok
          ∧ ∃ t, delay s.cfg.wakeupHsDelay (sendFrame s.cfg.hsId s.cfg.hsExt 1 [s.cfg.hsByte] s).2 = .ok t ∧ r = (true, t)) := by
  unfold handshakeOp at h
  simp only at h
  split at h
  · next he =>
    split at h
    · next hk =>
      obtain ⟨t, ht, hr⟩ := map_ok h
      exact .inr (.inr ⟨he, hk, t, ht, hr.symm⟩)
    · next hk => exact .inr (.inl ⟨he, result_ne_ok hk, by injection h with h; exact h.symm⟩)
  · next he => exact .inl ⟨by simpa using he, by injection h with h; exact h.symm⟩

/-- S3 and S4 of SEND write no register and no pin. -/
theorem handshakeOp_spec {s : State} {r : Bool × State} (h : handshakeOp s = .ok r) :
    ∃ calls, HandshakeCalls s.cfg r.1 calls ∧ Plain s r.2 calls := by
  have hs := sendFrame_plain s.cfg.hsId s.cfg.hsExt 1 [s.cfg.hsByte] s
  rcases handshakeOp_cases h with ⟨he, rfl⟩ | ⟨he, hk, rfl⟩ | ⟨he, hk, t, ht, rfl⟩
  · exact ⟨[], .inl ⟨he, rfl, rfl⟩, .refl s⟩
  · rw [hk] at hs
    exact ⟨_, .inr (.inl ⟨he, rfl, rfl⟩), hs⟩
  · rw [hk] at hs
    exact ⟨_, .inr (.inr ⟨he, rfl, rfl⟩), hs.trans (delay_plain ht).1⟩

/-- The handshake runs when it is off, its frame fails, or its delay ends on the clock. -/
theorem handshakeOp_ok {s : State}
    (h : s.cfg.wakeupHsEnabled = false ∨ (nextTurn s.env).ok = false
      ∨ (sendFrame s.cfg.hsId s.cfg.hsExt 1 [s.cfg.hsByte] s).2.env.clock.toNat + s.cfg.wakeupHsDelay.toNat ≤ clockLimit) :
    ∃ r, handshakeOp s = .ok r := by
  unfold handshakeOp
  rcases h with h | h | h
  · exact ⟨_, by simp [h]; rfl⟩
  · have hf : (sendFrame s.cfg.hsId s.cfg.hsExt 1 [s.cfg.hsByte] s).1 = .fail := by simp [sendFrame, resultOf, h]
    simp only [hf]
    split <;> exact ⟨_, rfl⟩
  · simp only
    split
    · split
      · obtain ⟨t, ht, _⟩ := delay_ok s.cfg.wakeupHsDelay _ h
        exact ⟨(true, t), by
          have hc : (sendFrame s.cfg.hsId s.cfg.hsExt 1 [s.cfg.hsByte] s).2.cfg = s.cfg := rfl
          rw [hc, ht]; rfl⟩
      · exact ⟨_, rfl⟩
    · exact ⟨_, rfl⟩

/-- S5 to S7 of SEND: the real frame's answer is `success`, and the check runs whatever it is (43_link_driver.md R163). -/
theorem sendRealFrame_spec {id : IdWord} {length : LenField} {payload : Payload} {s : State} {r : Bool × State}
    (h : sendRealFrame id length payload s = .ok r) :
    ∃ answer calls, r.1 = (answer == .ok) ∧ AutosleepCalls s.cfg s.blk calls
      ∧ OnePin (standbyPin s.blk) s r.2
          ([.sendFrame id true length (meaningfulBytes length.toNat payload) answer] ++ calls) := by
  obtain ⟨t, ht, rfl⟩ := map_ok h
  have hs := sendFrame_plain id true length (meaningfulBytes length.toNat payload) s
  obtain ⟨calls, hc, hp⟩ := maybeAutosleepOp_spec ht
  rw [hs.regs.standbyPin] at hp
  refine ⟨_, calls, rfl, ?_, (hs.onePin _).trans hp⟩
  have hb := hs.regs
  unfold SameRegisters at hb
  rw [hb] at hc
  exact hc

theorem sendRealFrame_ok (id : IdWord) (length : LenField) (payload : Payload) (s : State)
    (h : s.blk.autosleepEnabled = false ∨ keepAwakeWraps s.blk = false) : ∃ r, sendRealFrame id length payload s = .ok r := by
  obtain ⟨t, ht⟩ := maybeAutosleepOp_ok (sendFrame id true length (meaningfulBytes length.toNat payload) s).2 h
  exact ⟨(_, t), by simp only [sendRealFrame, ht]; rfl⟩

/-- The ways S2 to S7 of SEND can go (43_link_driver.md R160). -/
theorem transmitOp_cases {id : IdWord} {length : LenField} {payload : Payload} {s : State} {r : Bool × State}
    (h : transmitOp id length payload s = .ok r) :
    (∃ t, handshakeOp (wakeOp s).2 = .ok (false, t) ∧ r = (false, t))
      ∨ ∃ t, handshakeOp (wakeOp s).2 = .ok (true, t) ∧ sendRealFrame id length payload t = .ok r := by
  unfold transmitOp at h
  split at h
  · cases h
  · next t ht => exact .inl ⟨t, ht, by injection h with h; exact h.symm⟩
  · next t ht => exact .inr ⟨t, ht, h⟩

/-- S2 to S7 of SEND run when both of its time sums are defined (00_scope.md R13). -/
theorem transmitOp_ok {s : State} (ha : AutosleepDefinedAfterWake s) (hd : DelayDefined s) (id : IdWord) (length : LenField)
    (payload : Payload) : ∃ r, transmitOp id length payload s = .ok r := by
  obtain ⟨wake, hw, hk⟩ := wakeOp_spec s
  have hcount := wakeCalls_length hw hk.ran.timed
  have hcfg := hk.ran.cfg
  have hf := (sendFrame_plain s.cfg.hsId s.cfg.hsExt 1 [s.cfg.hsByte] (wakeOp s).2).ran.timed
  obtain ⟨⟨b, s1⟩, h1⟩ : ∃ r, handshakeOp (wakeOp s).2 = .ok r := by
    refine handshakeOp_ok ?_
    rw [hcfg]
    rcases hd with hd | hd | hd | hd
    · exact .inl hd
    · rw [← turnAt_zero, turnAt_shift hk.ran.timed.script hk.ran.timed.turns, hcount]
      exact .inr (.inl hd)
    · have := clock_le_limit (sendFrame s.cfg.hsId s.cfg.hsExt 1 [s.cfg.hsByte] (wakeOp s).2).2.env.clock
      rw [hd]
      exact .inr (.inr this)
    · have hle := (hk.ran.timed.trans (hcfg ▸ hf) hk.ran.clock).clockLe
      rw [List.length_append, List.length_singleton, hcount, delaySum_append, wakeCalls_delaySum hw] at hle
      have : delaySum [Call.sendFrame s.cfg.hsId s.cfg.hsExt 1 [s.cfg.hsByte]
        (sendFrame s.cfg.hsId s.cfg.hsExt 1 [s.cfg.hsByte] (wakeOp s).2).1] = 0 := rfl
      refine .inr (.inr ?_)
      simp only [clockLimit]
      omega
  unfold transmitOp
  rw [h1]
  cases b with
  | false => exact ⟨_, rfl⟩
  | true =>
    obtain ⟨_, _, hp⟩ := handshakeOp_spec h1
    have hr := hk.regs.trans hp.regs
    unfold SameRegisters at hr
    refine sendRealFrame_ok _ _ _ _ ?_
    rcases ha with ha | ha
    · exact .inl (by rw [hr]; exact ha)
    · refine .inr ?_
      rw [hr]
      simpa [keepAwakeWraps] using ha

/-- R1 of RECEIVE with the flag clear does nothing (43_link_driver.md R168). -/
theorem consumeActivity_clear {s : State} (h : s.blk.activitySignal = false) : consumeActivity s = s := by
  simp [consumeActivity, h]

theorem consumeActivity_set {s : State} (h : s.blk.activitySignal = true) :
    consumeActivity s = sampleAndClear (wakeOp s).2 := by
  simp [consumeActivity, h]

/-- R1 of RECEIVE with the flag set: WAKE, then the line is sampled as it stands, and an asserted line leaves the flag set
(43_link_driver.md R168). -/
theorem consumeActivity_spec {s : State} (h : s.blk.activitySignal = true) :
    ∃ r wake line, WakeCalls s.cfg s.blk (now s).1 r wake
      ∧ Ran s (consumeActivity s) (wake ++ [.intLine line])
      ∧ SameRegisters { s.blk with lastActivityTimestamp := (now s).1 } (consumeActivity s).blk
      ∧ PinsKeptBut (standbyPin s.blk) s (consumeActivity s) ∧ (consumeActivity s).free = s.free
      ∧ (s.seq ≠ .idle → (consumeActivity s).blk.activitySignal = !line) ∧ line = (envSteps (wakeOp s).2).env.intLine := by
  rw [consumeActivity_set h]
  obtain ⟨wake, hw, hk⟩ := wakeOp_spec s
  obtain ⟨hr, hregs, hpins, hfree, hhigh, hlow⟩ := sampleAndClear_ran (wakeOp s).2
  refine ⟨_, wake, _, hw, hk.ran.trans hr, hk.regs.trans hregs, ?_, hfree.trans hk.free, fun hs => ?_, rfl⟩
  · intro space p hp
    refine Eq.trans ?_ (hk.pins space p hp)
    exact pinAt_congr hpins.1 hpins.2 space p
  · cases hl : (envSteps (wakeOp s).2).env.intLine with
    | true => exact hhigh hl
    | false => rw [hlow hl]; exact envSteps_flag _ (hk.ran.seq ▸ hs) (hk.flag hs h)

/-- The ways R2 to R6 of RECEIVE can go (43_link_driver.md R166, R167). -/
theorem pollOp_cases {s : State} {r : OpResult × State} (h : pollOp s = .ok r) :
    ((checkReceiveAvailable s).1 = false ∧ ∃ t, maybeAutosleepOp (checkReceiveAvailable s).2 = .ok t ∧ r = noPacket t)
      ∨ ((checkReceiveAvailable s).1 = true ∧ (readFrame (checkReceiveAvailable s).2).1 = none
          ∧ r = noPacket (readFrame (checkReceiveAvailable s).2).2)
      ∨ ((checkReceiveAvailable s).1 = true ∧ ∃ f, (readFrame (checkReceiveAvailable s).2).1 = some f
          ∧ deliverOp f (readFrame (checkReceiveAvailable s).2).2 = .ok r) := by
  unfold pollOp at h
  simp only at h
  split at h
  · next ha =>
    split at h
    · next hf => exact .inr (.inl ⟨ha, hf, by injection h with h; exact h.symm⟩)
    · next f hf => exact .inr (.inr ⟨ha, f, hf, h⟩)
  · next ha =>
    obtain ⟨t, ht, hr⟩ := map_ok h
    exact .inl ⟨by simpa using ha, t, ht, hr.symm⟩

/-- The ways R4 to R6 of RECEIVE can go (43_link_driver.md R169, R170). -/
theorem deliverOp_cases {f : Frame} {s : State} {r : OpResult × State} (h : deliverOp f s = .ok r) :
    ∃ a, receiveFilter f s = .ok a
      ∧ ((a.1 = true ∧ r = (.receive true (packetOf f a.2), useFree a.2)) ∨ (a.1 = false ∧ r = noPacket a.2)) := by
  obtain ⟨a, ha, hr⟩ := map_ok h
  refine ⟨a, ha, ?_⟩
  cases h1 : a.1 with
  | true => exact .inl ⟨rfl, by rw [if_pos h1] at hr; exact hr.symm⟩
  | false => exact .inr ⟨rfl, by rw [h1] at hr; exact hr.symm⟩

/-- R4 of RECEIVE: DF_CHECK of the frame as read, or nothing when the filter is disabled (43_link_driver.md R169). -/
theorem receiveFilter_cases {f : Frame} {s : State} {a : Bool × State} (h : receiveFilter f s = .ok a) :
    (s.cfg.dupFilterEnabled = true ∧ dfCheckOp f.identifier (frameLength f) f.payload s = .ok a)
      ∨ (s.cfg.dupFilterEnabled = false ∧ a = (true, s)) := by
  unfold receiveFilter at h
  split at h
  · next he => exact .inl ⟨he, h⟩
  · next he => exact .inr ⟨by simpa using he, by injection h with h; exact h.symm⟩

theorem frameLength_toNat (f : Frame) : (frameLength f).toNat = f.length.val := by
  have := f.length.isLt
  simp only [frameLength, BitVec.toNat_ofNat]
  omega

end Sys2Proof.Machine
end

