-- ==== Sys2Proof/Laws/Calm.lean ====
section
/-! SUPPORT. While the environment's coming turns take no step, the clock, the line, the flag and the receive queue hold still through
every call but the read of a frame, which leaves the clock, the line and the flag. -/

namespace Sys2Proof.Machine

/-- A stretch of at most `k` calls in a calm environment: clock, line and flag are as they were, and the rest is calm still. -/
def HoldsButQueue (k : Nat) (s t : State) : Prop :=
  ∀ n, calm s (n + k) →
    calm t n ∧ t.env.clock = s.env.clock ∧ t.env.intLine = s.env.intLine ∧ t.blk.activitySignal = s.blk.activitySignal

/-- The same of a stretch that reads no frame: the receive queue is as it was too. -/
def Holds (k : Nat) (s t : State) : Prop :=
  ∀ n, calm s (n + k) →
    calm t n ∧ t.env.clock = s.env.clock ∧ t.env.intLine = s.env.intLine ∧ t.blk.activitySignal = s.blk.activitySignal
      ∧ t.env.rxQueue = s.env.rxQueue

theorem calm_mono {s : State} {m n : Nat} (h : calm s n) (hm : m ≤ n) : calm s m :=
  ⟨Nat.le_trans hm h.1, fun t ht => h.2 t ((List.take_prefix_take_left hm).subset ht)⟩

theorem Holds.mono {j k : Nat} {s t : State} (h : Holds j s t) (hjk : j ≤ k) : Holds k s t :=
  fun n hc => h n (calm_mono hc (by omega))

theorem Holds.refl (s : State) : Holds 0 s s := fun _ hc => ⟨hc, rfl, rfl, rfl, rfl⟩

theorem Holds.butQueue {k : Nat} {s t : State} (h : Holds k s t) : HoldsButQueue k s t := fun n hc =>
  let g := h n hc
  ⟨g.1, g.2.1, g.2.2.1, g.2.2.2.1⟩

theorem HoldsButQueue.trans {j k : Nat} {s t u : State} (h : HoldsButQueue j s t) (h' : HoldsButQueue k t u) :
    HoldsButQueue (j + k) s u := fun n hc => by
  obtain ⟨h1, h2, h3, h4⟩ := h (n + k) (by rwa [Nat.add_assoc, Nat.add_comm k j])
  obtain ⟨g1, g2, g3, g4⟩ := h' n h1
  exact ⟨g1, g2.trans h2, g3.trans h3, g4.trans h4⟩

theorem Holds.trans {j k : Nat} {s t u : State} (h : Holds j s t) (h' : Holds k t u) : Holds (j + k) s u := fun n hc => by
  obtain ⟨h1, h2, h3, h4, h5⟩ := h (n + k) (by rwa [Nat.add_assoc, Nat.add_comm k j])
  obtain ⟨g1, g2, g3, g4, g5⟩ := h' n h1
  exact ⟨g1, g2.trans h2, g3.trans h3, g4.trans h4, g5.trans h5⟩

/-- A calm turn is taken off the script and does nothing else. -/
theorem envSteps_holds (s : State) : Holds 1 s (envSteps s) := by
  rintro n ⟨hlen, hev⟩
  cases hscript : s.env.script with
  | nil => rw [hscript] at hlen; simp at hlen
  | cons t rest =>
    rw [hscript] at hlen hev
    have ht : t.events = [] := hev t (by simp)
    have hw : worldAfterTurn s = (dropTurn s.env, s.blk.activitySignal) := by
      simp [worldAfterTurn, nextTurn, hscript, ht, applyEvents]
    have hd : dropTurn s.env = { s.env with script := rest } := by simp [dropTurn, hscript]
    simp only [envSteps, hw, hd, calm]
    refine ⟨⟨by simpa using hlen, fun t ht => hev t ?_⟩, trivial, trivial, trivial, trivial⟩
    rw [List.take_succ_cons]
    exact List.mem_cons_of_mem _ ht

/-- A call that takes one turn and then changes none of the clock, the line, the flag, the queue and the script. -/
theorem holds_of_call {s t : State} (hscript : t.env.script = (envSteps s).env.script) (hclock : t.env.clock = (envSteps s).env.clock)
    (hline : t.env.intLine = (envSteps s).env.intLine) (hflag : t.blk.activitySignal = (envSteps s).blk.activitySignal)
    (hqueue : t.env.rxQueue = (envSteps s).env.rxQueue) : Holds 1 s t := fun n hc => by
  obtain ⟨h1, h2, h3, h4, h5⟩ := envSteps_holds s n hc
  refine ⟨?_, hclock.trans h2, hline.trans h3, hflag.trans h4, hqueue.trans h5⟩
  unfold calm at *
  rwa [hscript]

theorem now_holds (s : State) : Holds 1 s (now s).2 := holds_of_call rfl rfl rfl rfl rfl
theorem checkReceiveAvailable_holds (s : State) : Holds 1 s (checkReceiveAvailable s).2 := holds_of_call rfl rfl rfl rfl rfl
theorem periphSleep_holds (s : State) : Holds 1 s (periphSleep s).2 := holds_of_call rfl rfl rfl rfl rfl
theorem periphWake_holds (s : State) : Holds 1 s (periphWake s).2 := holds_of_call rfl rfl rfl rfl rfl
theorem getMode_holds (s : State) : Holds 1 s (getMode s).2 := holds_of_call rfl rfl rfl rfl rfl
theorem isSleepingOp_holds (s : State) : Holds 1 s (isSleepingOp s).2 := getMode_holds s
theorem refreshActivity_holds (s : State) : Holds 1 s (refreshActivity s) := holds_of_call rfl rfl rfl rfl rfl

/-- Reading a frame takes it off the queue, or, on an error, may not (60_exceptions.md R202). -/
theorem readFrame_holds (s : State) :
    HoldsButQueue 1 s (readFrame s).2
      ∧ (calm s 1 → (readFrame s).1 = readAnswer (nextTurn s.env).ok s.env.rxQueue
          ∧ (readFrame s).2.env.rxQueue = queueAfterRead (nextTurn s.env).ok (nextTurn s.env).consumed s.env.rxQueue) := by
  refine ⟨fun n hc => ?_, fun hc => ?_⟩
  · obtain ⟨h1, h2, h3, h4, _⟩ := envSteps_holds s n hc
    exact ⟨h1, h2, h3, h4⟩
  · obtain ⟨_, _, _, _, h5⟩ := envSteps_holds s 0 hc
    simp [readFrame, setQueue, h5]

theorem sendFrame_holds (id : IdWord) (ext : Bool) (length : LenField) (data : List Byte) (s : State) :
    Holds 1 s (sendFrame id ext length data s).2 := holds_of_call rfl rfl rfl rfl rfl

theorem digitalWrite_holds (space : PinSpace) (p : PinNum) (l : Bool) (s : State) : Holds 1 s (digitalWrite space p l s) := by
  cases space <;> exact holds_of_call rfl rfl rfl rfl rfl

theorem drivePin_holds (l : Bool) (s : State) : Holds 1 s (drivePin l s) := by
  unfold drivePin
  cases s.blk.stbyPinRoute
  · exact (Holds.refl s).mono (by omega)
  · exact digitalWrite_holds _ _ _ _
  · exact digitalWrite_holds _ _ _ _

theorem sleepOp_holds (s : State) : Holds 3 s (sleepOp s).2 := by
  have h1 := isSleepingOp_holds s
  have h2 := h1.trans (periphSleep_holds _)
  rcases sleepOp_cases s with ⟨_, h⟩ | ⟨_, _, h⟩ | ⟨_, _, h⟩ <;> rw [h]
  · exact h1.mono (by omega)
  · exact h2.mono (by omega)
  · exact h2.trans (drivePin_holds _ _)

theorem wakeOp_holds (s : State) : Holds 3 s (wakeOp s).2 := by
  have h1 := (refreshActivity_holds s).trans (periphWake_holds _)
  rcases wakeOp_cases s with ⟨_, h⟩ | ⟨_, h⟩ <;> rw [h]
  · exact h1.mono (by omega)
  · exact h1.trans (drivePin_holds _ _)

theorem maybeAutosleepOp_holds {s t : State} (h : maybeAutosleepOp s = .ok t) : Holds 5 s t := by
  have h1 := checkReceiveAvailable_holds s
  have h2 := h1.trans (now_holds _)
  rcases maybeAutosleepOp_cases h with ⟨_, rfl⟩ | ⟨_, _, rfl⟩ | ⟨_, _, _, rfl⟩ | ⟨_, _, _, rfl⟩
  · exact (Holds.refl _).mono (by omega)
  · exact h1.mono (by omega)
  · exact h2.mono (by omega)
  · exact h2.trans (sleepOp_holds _)

theorem dfCheckOp_holds {id : IdWord} {length : LenField} {payload : Payload} {s : State} {r : Bool × State}
    (h : dfCheckOp id length payload s = .ok r) : Holds 1 s r.2 := by
  rcases dfCheckOp_cases h with ⟨_, rfl⟩ | ⟨_, rfl⟩
  · exact holds_of_call rfl rfl rfl rfl rfl
  · exact now_holds s

theorem sampleAndClear_queue {s : State} {n : Nat} (h : calm s (n + 1)) :
    calm (sampleAndClear s) n ∧ (sampleAndClear s).env.rxQueue = s.env.rxQueue := by
  obtain ⟨h1, _, _, _, h5⟩ := envSteps_holds s n h
  exact ⟨h1, h5⟩

/-- A delay moves the clock alone. -/
theorem delay_queue {d : Time} {s t : State} {n : Nat} (h : delay d s = .ok t) (hc : calm s (n + 1)) :
    calm t n ∧ t.env.rxQueue = s.env.rxQueue := by
  obtain ⟨h1, _, _, _, h5⟩ := envSteps_holds s n hc
  unfold delay at h
  split at h
  · cases h
  · cases h
    exact ⟨h1, h5⟩

/-- The clock WAKE reads in a calm environment is the clock. -/
theorem now_calm {s : State} (h : calm s 1) : (now s).1 = s.env.clock := (now_holds s 0 h).2.1

end Sys2Proof.Machine
end

