-- ==== Sys2Proof/Laws/Exec.lean ====
section
/-! SUPPORT. What holds of every instruction's meaning at its two ends: it runs on an idle block alone, and ENCODE, DECODE and the
identifier formats change the result ports alone; the calls every instruction makes; and what a step can answer. -/

namespace Sys2Proof.Machine

/-- An instruction that answers ran on an idle block (10_state.md R22). -/
theorem exec_idle {i : Instr} {s t : State} (h : exec i s = .next t) : s.seq = .idle := by
  cases i <;>
    simp only [exec, execEncode, execDecode, execDfCheck, execSleep, execWake, execIsSleeping, execMaybeAutosleep, execSetAutosleep,
      execSetStbyPin, execSend, execReceive, execIdBroadcast, execIdMulticast, execIdReserved, execIdUnicast] at h <;>
    exact (whenIdle_next h).1

/-- An operation that does nothing but return changes the result ports alone. -/
theorem finish_beginOp (op : BitVec 4) (r : OpResult) {s : State} (h : s.seq = .idle) :
    finish r (beginOp op s) = { s with result := r } := by
  obtain ⟨_, _, _, _, _, _, _⟩ := s
  cases h
  rfl

/-- Ending the operation a stretch belongs to, its calls counted on the environment's turns and followed on the mode and the pins. -/
theorem Ran.ended {op : BitVec 4} {s t u : State} {calls : List Call} (h : Ran (beginOp op s) t calls) (r : OpResult)
    (hu : u.cfg = t.cfg ∧ u.env = t.env ∧ u.presented = t.presented) :
    ∃ calls, OutsideKept s (finish r u) ∧ CallsMade s (finish r u) calls ∧ Timed s.cfg s.env (finish r u).env calls
      ∧ Tracked s.cfg s.env (finish r u).env calls := by
  obtain ⟨h1, h2, h3⟩ := hu
  refine ⟨calls, ⟨h1.trans h.cfg, h3.trans h.presented, rfl, ?_⟩, ?_, ?_, ?_⟩
  · rw [finish_env, h2]; exact h.clock
  · rw [CallsMade, finish_env, h2]; exact h.history
  · rw [finish_env, h2]; exact h.timed
  · rw [finish_env, h2]; exact h.tracked

theorem consumeActivity_ran (s : State) : ∃ calls, Ran s (consumeActivity s) calls := by
  cases h : s.blk.activitySignal with
  | false => rw [consumeActivity_clear h]; exact ⟨_, .refl s⟩
  | true =>
    obtain ⟨_, _, _, _, h, _⟩ := consumeActivity_spec h
    exact ⟨_, h⟩

theorem transmitOp_ran {id : IdWord} {length : LenField} {payload : Payload} {s : State} {r : Bool × State}
    (h : transmitOp id length payload s = .ok r) : ∃ calls, Ran s r.2 calls := by
  obtain ⟨_, _, hw⟩ := wakeOp_spec s
  rcases transmitOp_cases h with ⟨t, ht, rfl⟩ | ⟨t, ht, hr⟩
  · obtain ⟨_, _, hh⟩ := handshakeOp_spec ht
    exact ⟨_, hw.ran.trans hh.ran⟩
  · obtain ⟨_, _, hh⟩ := handshakeOp_spec ht
    obtain ⟨_, _, _, _, hs⟩ := sendRealFrame_spec hr
    exact ⟨_, (hw.ran.trans hh.ran).trans hs.ran⟩

theorem receiveFilter_ran {f : Frame} {s : State} {a : Bool × State} (h : receiveFilter f s = .ok a) :
    ∃ calls, Ran s a.2 calls := by
  rcases receiveFilter_cases h with ⟨_, h⟩ | ⟨_, rfl⟩
  · exact ⟨_, (dfCheckOp_spec h).1⟩
  · exact ⟨_, .refl s⟩

/-- R2 to R6 of RECEIVE make their calls, and number a packet value at the end. -/
theorem pollOp_ran {s : State} {r : OpResult × State} (h : pollOp s = .ok r) :
    ∃ u calls, Ran s u calls ∧ r.2 = useFree u := by
  have hc := (checkReceiveAvailable_plain s).ran
  have hf := (readFrame_plain (checkReceiveAvailable s).2).ran
  rcases pollOp_cases h with ⟨_, t, ht, rfl⟩ | ⟨_, _, rfl⟩ | ⟨_, f, _, hd⟩
  · obtain ⟨_, _, hm⟩ := maybeAutosleepOp_spec ht
    exact ⟨t, _, hc.trans hm.ran, rfl⟩
  · exact ⟨_, _, hc.trans hf, rfl⟩
  · obtain ⟨a, ha, hr⟩ := deliverOp_cases hd
    obtain ⟨_, hk⟩ := receiveFilter_ran ha
    exact ⟨a.2, _, (hc.trans hf).trans hk, by rcases hr with ⟨_, rfl⟩ | ⟨_, rfl⟩ <;> rfl⟩

/-- What every instruction that answers leaves alone, the calls it made, that each call took one turn of the environment, and what the
calls did to the mode and to the pins. -/
theorem exec_ran {i : Instr} {s t : State} (h : exec i s = .next t) :
    ∃ calls, OutsideKept s t ∧ CallsMade s t calls ∧ Timed s.cfg s.env t.env calls ∧ Tracked s.cfg s.env t.env calls := by
  cases i <;>
    simp only [exec, execEncode, execDecode, execDfCheck, execSleep, execWake, execIsSleeping, execMaybeAutosleep, execSetAutosleep,
      execSetStbyPin, execSend, execReceive, execIdBroadcast, execIdMulticast, execIdReserved, execIdUnicast] at h <;>
    obtain ⟨_, h⟩ := whenIdle_next h
  case dfCheck =>
    split at h
    · obtain ⟨r, hr, rfl⟩ := map_ok (outcomeOf_next h)
      exact (dfCheckOp_spec hr).1.ended _ ⟨rfl, rfl, rfl⟩
    · cases h
  case sleep => cases h; exact (sleepOp_spec _).choose_spec.2.ran.ended _ ⟨rfl, rfl, rfl⟩
  case wake => cases h; exact (wakeOp_spec _).choose_spec.2.ran.ended _ ⟨rfl, rfl, rfl⟩
  case isSleeping => cases h; exact (isSleepingOp_plain _).ran.ended _ ⟨rfl, rfl, rfl⟩
  case maybeAutosleep =>
    obtain ⟨r, hr, rfl⟩ := map_ok (outcomeOf_next h)
    exact (maybeAutosleepOp_spec hr).choose_spec.2.ran.ended _ ⟨rfl, rfl, rfl⟩
  case setAutosleep enabled keep _ _ =>
    obtain ⟨r, hr, rfl⟩ := map_ok (outcomeOf_next h)
    obtain ⟨_, _, hm⟩ := maybeAutosleepOp_spec hr
    have hp : Ran (beginOp 0x8#4 s) (setPolicy enabled keep (beginOp 0x8#4 s)) [] := .silent rfl rfl rfl rfl
    exact (hp.trans hm.ran).ended _ ⟨rfl, rfl, rfl⟩
  case setStbyPin ctrl pin _ _ =>
    cases h
    obtain ⟨_, hm⟩ := setStbyPinOp_spec ctrl pin (beginOp 0x9#4 s)
    have hp : Ran (beginOp 0x9#4 s) (setStbyRegisters ctrl pin (beginOp 0x9#4 s)) [] := .silent rfl rfl rfl rfl
    exact (hp.trans hm.ran).ended _ ⟨rfl, rfl, rfl⟩
  case send =>
    split at h
    · obtain ⟨r, hr, rfl⟩ := map_ok (outcomeOf_next h)
      simp only [sendOp] at hr
      split at hr
      · exact (transmitOp_ran hr).choose_spec.ended _ ⟨rfl, rfl, rfl⟩
      · cases hr; exact (Ran.refl _).ended _ ⟨rfl, rfl, rfl⟩
    · cases h
  case receive =>
    obtain ⟨r, hr, rfl⟩ := map_ok (outcomeOf_next h)
    obtain ⟨_, hc⟩ := consumeActivity_ran (beginOp 0xB#4 s)
    obtain ⟨u, _, hp, hu⟩ := pollOp_ran hr
    exact (hc.trans hp).ended _ (by rw [hu]; exact ⟨rfl, rfl, rfl⟩)
  all_goals cases h; exact (Ran.refl _).ended _ ⟨rfl, rfl, rfl⟩

theorem CallsMade.unique {s t : State} {c d : List Call} (h : CallsMade s t c) (h' : CallsMade s t d) : c = d :=
  List.append_cancel_left (h.symm.trans h')

theorem withinTime_next {o : Host.Outcome State Fault Refusal} {t : State} (h : withinTime o = .next t) :
    o = .next t ∧ t.env.timeBroken = false := by
  unfold withinTime at h
  split at h
  · next u =>
    split at h
    · cases h
    · next hb =>
      cases h
      exact ⟨rfl, by simpa using hb⟩
  · cases h
  · cases h

@[simp] theorem withinTime_refused (r : Refusal) : withinTime (.refused r) = .refused r := rfl

theorem withinTime_of {t : State} (h : t.env.timeBroken = false) : withinTime (.next t) = .next t := by simp [withinTime, h]

theorem withinTime_broken {t : State} (h : t.env.timeBroken = true) : withinTime (.next t) = .refused .outsideTimePremise := by
  simp [withinTime, h]

/-- A step that answers stayed within the time premise, and is a wait, a reset, or the instruction of the item presented
(30_encoding.md R80, 70_reset_and_hazards.md R230). -/
theorem step_next {s t : State} (h : step s = .next t) :
    t.env.timeBroken = false
      ∧ (((beginStep s).presented = none ∧ t = beginStep s)
        ∨ ((beginStep s).presented = some .reset ∧ t = blockReset (beginStep s))
        ∨ ∃ p i, (beginStep s).presented = some (.present p) ∧ decode p = .ok i ∧ exec i (takeItem (beginStep s)) = .next t) := by
  unfold step at h
  split at h
  · next hp =>
    obtain ⟨h1, h2⟩ := withinTime_next h
    cases h1
    exact ⟨h2, .inl ⟨hp, rfl⟩⟩
  · next item hp =>
    obtain ⟨h1, h2⟩ := withinTime_next h
    cases item with
    | reset =>
      cases h1
      exact ⟨h2, .inr (.inl ⟨hp, rfl⟩)⟩
    | present p =>
      simp only [runItem] at h1
      split at h1
      · next i hi => exact ⟨h2, .inr (.inr ⟨p, i, hp, hi, h1⟩)⟩
      · cases h1

end Sys2Proof.Machine
end

