-- ==== Sys2Proof/Laws/Words.lean ====
section
/-! SUPPORT. The bits and fields of an identifier word put together from its fields (spec/30_encoding.md R73, R74). -/

namespace Sys2Proof

theorem groupWord_getLsbD (t : BitVec 2) (m z y : BitVec 1) (g : BitVec 16) (s : BitVec 11) (i : Nat) :
    (groupWord t m z y g s).getLsbD i =
      if i < 11 then s.getLsbD i else if i < 27 then g.getLsbD (i - 11) else if i < 28 then y.getLsbD (i - 27)
      else if i < 30 then t.getLsbD (i - 28) else if i < 31 then z.getLsbD (i - 30) else m.getLsbD (i - 31) := by
  unfold groupWord
  rw [show ∀ x : BitVec (1 + 1 + 2 + 1 + 16 + 11),
    BitVec.getLsbD (w := 32) x i = BitVec.getLsbD (w := 1 + 1 + 2 + 1 + 16 + 11) x i from fun _ => rfl]
  repeat rw [BitVec.getLsbD_append]
  repeat' split
  all_goals first | rfl | omega

theorem unicastWord_getLsbD (m z : BitVec 1) (p : BitVec 5) (y : BitVec 1) (g s : BitVec 11) (i : Nat) :
    (unicastWord m z p y g s).getLsbD i =
      if i < 11 then s.getLsbD i else if i < 22 then g.getLsbD (i - 11) else if i < 23 then y.getLsbD (i - 22)
      else if i < 28 then p.getLsbD (i - 23) else if i < 30 then (3#2).getLsbD (i - 28)
      else if i < 31 then z.getLsbD (i - 30) else m.getLsbD (i - 31) := by
  unfold unicastWord
  rw [show ∀ x : BitVec (1 + 1 + 2 + 5 + 1 + 11 + 11),
    BitVec.getLsbD (w := 32) x i = BitVec.getLsbD (w := 1 + 1 + 2 + 5 + 1 + 11 + 11) x i from fun _ => rfl]
  repeat rw [BitVec.getLsbD_append]
  repeat' split
  all_goals first | rfl | omega

/-- The fields of a group format word, at their bit positions (30_encoding.md R74). -/
theorem groupWord_fields (t : BitVec 2) (m z y : BitVec 1) (g : BitVec 16) (s : BitVec 11) :
    (groupWord t m z y g s).extractLsb' 28 2 = t ∧ (groupWord t m z y g s).extractLsb' 31 1 = m
    ∧ (groupWord t m z y g s).extractLsb' 30 1 = z ∧ (groupWord t m z y g s).extractLsb' 27 1 = y
    ∧ (groupWord t m z y g s).extractLsb' 11 16 = g ∧ (groupWord t m z y g s).extractLsb' 0 11 = s := by
  refine ⟨?_, ?_, ?_, ?_, ?_, ?_⟩ <;> apply BitVec.eq_of_getLsbD_eq <;> intro i hi <;>
    rw [BitVec.getLsbD_extractLsb', groupWord_getLsbD] <;> simp only [hi, decide_true, Bool.true_and] <;>
    repeat' split
  all_goals first | omega | (congr 1; omega)

/-- The fields of a unicast format word, at their bit positions (30_encoding.md R73). -/
theorem unicastWord_fields (m z : BitVec 1) (p : BitVec 5) (y : BitVec 1) (g s : BitVec 11) :
    (unicastWord m z p y g s).extractLsb' 28 2 = 3#2 ∧ (unicastWord m z p y g s).extractLsb' 31 1 = m
    ∧ (unicastWord m z p y g s).extractLsb' 30 1 = z ∧ (unicastWord m z p y g s).extractLsb' 23 5 = p
    ∧ (unicastWord m z p y g s).extractLsb' 22 1 = y
    ∧ (unicastWord m z p y g s).extractLsb' 11 11 = g ∧ (unicastWord m z p y g s).extractLsb' 0 11 = s := by
  refine ⟨?_, ?_, ?_, ?_, ?_, ?_, ?_⟩ <;> apply BitVec.eq_of_getLsbD_eq <;> intro i hi <;>
    rw [BitVec.getLsbD_extractLsb', unicastWord_getLsbD] <;> simp only [hi, decide_true, Bool.true_and] <;>
    repeat' split
  all_goals first | omega | (congr 1; omega)

end Sys2Proof
end

