-- ==== Sys2Proof/Laws/PerInstr.lean ====
section
/-! SUPPORT. The opcode table, instruction by instruction: what the encoder presents for an instruction lies in the row of
spec/opcode_table.json that the instruction is, and in no other row (spec/30_encoding.md R72 to R74, R81). -/

namespace Sys2Proof.Laws.Row

/-- The row of an instruction (30_encoding.md R73, R74, R81). -/
def rowOf : Instr → OpcodeRow
  | .encode _ _ _ _ => ⟨"ENCODE", 4, 0xF, 0x1⟩
  | .decode _ => ⟨"DECODE", 4, 0xF, 0x2⟩
  | .dfCheck _ _ _ => ⟨"DF_CHECK", 4, 0xF, 0x3⟩
  | .sleep => ⟨"SLEEP", 4, 0xF, 0x4⟩
  | .wake => ⟨"WAKE", 4, 0xF, 0x5⟩
  | .isSleeping => ⟨"IS_SLEEPING", 4, 0xF, 0x6⟩
  | .maybeAutosleep => ⟨"MAYBE_AUTOSLEEP", 4, 0xF, 0x7⟩
  | .setAutosleep _ _ => ⟨"SET_AUTOSLEEP", 4, 0xF, 0x8⟩
  | .setStbyPin _ _ => ⟨"SET_STBY_PIN", 4, 0xF, 0x9⟩
  | .send _ _ _ _ _ _ => ⟨"SEND", 4, 0xF, 0xA⟩
  | .receive => ⟨"RECEIVE", 4, 0xF, 0xB⟩
  | .idBroadcast _ _ _ _ _ => ⟨"ID.BROADCAST", 32, 0x30000000, 0x00000000⟩
  | .idMulticast _ _ _ _ _ => ⟨"ID.MULTICAST", 32, 0x30000000, 0x10000000⟩
  | .idReserved _ _ _ _ _ => ⟨"ID.RESERVED", 32, 0x30000000, 0x20000000⟩
  | .idUnicast _ _ _ _ _ _ => ⟨"ID.UNICAST", 32, 0x30000000, 0x30000000⟩

/-- The rows an item of the input belongs to: a command's by its code, an identifier word's by its bits. -/
def rowsOf : Presented → List OpcodeRow
  | .command op _ => commandRows.filter fun r => r.accepts op.toNat
  | .idWord w => idFormatRows.filter fun r => r.accepts w.toNat

/-- What the encoder presents for the instruction belongs to its row and to no other. -/
def Statement (i : Instr) : Prop := rowsOf (encode i) = [rowOf i]

/-- An identifier word's type bits under the mask of the table (30_encoding.md R72). -/
theorem type_masked (w : IdWord) : w.toNat &&& 0x30000000 = (w.extractLsb' 28 2).toNat * 2 ^ 28 := by
  apply Nat.eq_of_testBit_eq
  intro j
  rw [BitVec.extractLsb'_toNat, Nat.testBit_mul_two_pow, Nat.testBit_mod_two_pow, Nat.testBit_shiftRight, Nat.testBit_and,
    show (0x30000000 : Nat) = (2 ^ 2 - 1) * 2 ^ 28 from rfl, Nat.testBit_mul_two_pow, Nat.testBit_two_pow_sub_one]
  by_cases h : 28 ≤ j
  · simp [h, show 28 + (j - 28) = j by omega, Bool.and_comm]
  · simp [h]

theorem rows_of_type {w : IdWord} {type : BitVec 2} (h : w.extractLsb' 28 2 = type) :
    rowsOf (.idWord w) = idFormatRows.filter fun r => type.toNat * 2 ^ 28 &&& r.mask == r.pattern := by
  have hm : ∀ r ∈ idFormatRows, r.accepts w.toNat = (type.toNat * 2 ^ 28 &&& r.mask == r.pattern) := by
    intro r hr
    have hmask : r.mask = 0x30000000 := by
      simp only [idFormatRows, List.mem_cons, List.not_mem_nil, or_false] at hr
      rcases hr with rfl | rfl | rfl | rfl <;> rfl
    rw [OpcodeRow.accepts, hmask, type_masked, h]
    congr 1
    have := type.isLt
    interval_cases type.toNat <;> rfl
  exact List.filter_congr hm

theorem encode (type : BitVec 8) (target source : BitVec 32) (port : BitVec 8) :
    Statement (.encode type target source port) := rfl
theorem decode (id : IdWord) : Statement (.decode id) := rfl
theorem dfCheck (id : IdWord) (length : LenField) (payload : Payload) : Statement (.dfCheck id length payload) := rfl
theorem sleep : Statement .sleep := rfl
theorem wake : Statement .wake := rfl
theorem isSleeping : Statement .isSleeping := rfl
theorem maybeAutosleep : Statement .maybeAutosleep := rfl
theorem setAutosleep (enabled : Bool) (keep : Time) : Statement (.setAutosleep enabled keep) := rfl
theorem setStbyPin (ctrl : Bool) (pin : PinNum) : Statement (.setStbyPin ctrl pin) := rfl
theorem send (type : BitVec 8) (target source : BitVec 32) (port : BitVec 8) (length : LenField) (payload : Payload) :
    Statement (.send type target source port length payload) := rfl
theorem receive : Statement .receive := rfl
theorem idBroadcast (m z y : BitVec 1) (g : BitVec 16) (s : BitVec 11) : Statement (.idBroadcast m z y g s) :=
  (rows_of_type (groupWord_fields 0 m z y g s).1).trans (by simp [idFormatRows, rowOf])
theorem idMulticast (m z y : BitVec 1) (g : BitVec 16) (s : BitVec 11) : Statement (.idMulticast m z y g s) :=
  (rows_of_type (groupWord_fields 1 m z y g s).1).trans (by simp [idFormatRows, rowOf])
theorem idReserved (m z y : BitVec 1) (g : BitVec 16) (s : BitVec 11) : Statement (.idReserved m z y g s) :=
  (rows_of_type (groupWord_fields 2 m z y g s).1).trans (by simp [idFormatRows, rowOf])
theorem idUnicast (m z : BitVec 1) (p : BitVec 5) (y : BitVec 1) (g s : BitVec 11) : Statement (.idUnicast m z p y g s) :=
  (rows_of_type (unicastWord_fields m z p y g s).1).trans (by simp [idFormatRows, rowOf])

end Sys2Proof.Laws.Row
end

