-- ==== Sys2Proof/Tests/Slice0.lean ====
section
/-! SUPPORT. Tests of one step on small states, their expected values taken from spec/95_test_vectors.md, the words of the opcode table
written out from spec/30_encoding.md, the check of WellFormed, and for each obligation a witness that meets its hypotheses. -/

namespace Sys2Proof.Tests

open Sys2Proof.Machine

/-! ### The states the tests run on -/

/-- A configuration: the filter on, no handshake (its frame and delay named for the tests that turn it on), no self-wake. -/
def cfg : Cfg where
  dupFilterEnabled := true
  dupWindowMs := 20
  wakeupHsEnabled := false
  wakeupHsDelay := 10
  hsId := 0x80000111
  hsExt := true
  hsByte := 0x77
  stbyLevel := true
  dfReset := Config.defaultRecord
  periphSelfWake := false
  sharedActivity := false

/-- Turns without an event that answer as listed, then `true` for the rest of an operation. -/
def turns (answers : List Bool) : List Turn :=
  answers.map (fun ok => ⟨[], ok, true, none⟩) ++ List.replicate 12 ⟨[], true, true, none⟩

/-- A block at reset beside an Awake peripheral at a clock, with the answers of its calls given. -/
def state (clock : Nat) (answers : List Bool := []) : State where
  blk := Block.reset Config.defaultRecord
  env :=
    { mode := .awake, intLine := true, rxQueue := [], ctrlPins := [], hostPins := [], clock := BitVec.ofNat 32 clock,
      history := [], script := turns answers, turns := 0, timeBroken := false }
  cfg := cfg
  seq := .idle
  presented := none
  result := .nothing
  free := 0

/-- The state of vector set V30: the standby pin is host pin 7. -/
def pinned (clock : Nat) (mode : Mode) (answers : List Bool := []) : State :=
  let s := state clock answers
  { s with blk := { s.blk with stbyPinRoute := .host, stbyPinNumber := 7 }, env := { s.env with mode := mode } }

/-- The state of vector set V31: the policy enabled, with a timestamp and a duration. -/
def idling (clock stamp keep : Nat) (answers : List Bool := []) : State :=
  let s := state clock answers
  { s with
    blk := { s.blk with
      autosleepEnabled := true, lastActivityTimestamp := BitVec.ofNat 32 stamp, keepAwakeDuration := BitVec.ofNat 32 keep } }

/-- A payload that begins with two bytes. -/
def bytes (a b : Byte) : Payload := #v[a, b, 0, 0, 0, 0, 0, 0]

/-- The frame of the source's example, and the multicast frame of vector set V41. -/
def frameF : Frame := ⟨0xB1808005, 2, bytes 0xAA 0x55⟩
def frameG : Frame := ⟨0x9091A0AB, 1, bytes 0x01 0⟩

/-- The state of vector set V41: the record holds `frameF` accepted at 290, clock 300. -/
def polling (flag line : Bool) (queue : List Frame) (answers : List Bool := []) : State :=
  let s := state 300 answers
  { s with
    blk := { s.blk with
      activitySignal := flag, dfId := 0xB1808005, dfLen := 2, dfPayload := bytes 0xAA 0x55, dfTime := 290 },
    env := { s.env with intLine := line, rxQueue := queue } }

/-- A block whose environment is given the turns listed. -/
def scripted (s : State) (script : List Turn) : State := { s with env := { s.env with script := script } }

/-- A turn with the steps listed. -/
def eventsTurn (steps : List EnvEvent) : Turn := ⟨steps, true, true, none⟩

/-- A turn with one step. -/
def eventTurn (e : EnvEvent) : Turn := eventsTurn [e]

/-- A state beside the test configuration changed. -/
def withCfg (s : State) (c : Cfg) : State := { s with cfg := c }

/-- A state beside a peripheral that may wake by itself (00_scope.md R8's default), its turns as the state gives them. -/
def selfWaking (s : State) : State := withCfg s { cfg with periphSelfWake := true }

/-- The next state of an outcome. -/
def ended : Host.Outcome State Fault Refusal → Option State
  | .next t => some t
  | .fault _ => none
  | .refused _ => none

/-- The refusal of an outcome. -/
def refusal : Host.Outcome State Fault Refusal → Option Refusal
  | .next _ => none
  | .fault _ => none
  | .refused r => some r

/-- The result ports and the calls of an operation. -/
def seen (o : Host.Outcome State Fault Refusal) : Option (OpResult × List Call) :=
  (ended o).map fun t => (t.result, t.env.history)

/-- What RECEIVE delivered: the address, the length and the meaningful bytes. -/
def delivered : OpResult → Option (AddressMeta × LenField × List Byte)
  | .receive true p => some (p.addr, p.length, p.payload.toList.take p.length.toNat)
  | _ => none

/-! ### WellFormed -/

/-- A length of 9 is outside the contract, 8 is inside (20_memory.md R53). -/
theorem test_wellFormed_dfCheck :
    WellFormed (.dfCheck 0 9 (bytes 0 0)) = false ∧ WellFormed (.dfCheck 0 8 (bytes 0 0)) = true := by decide

theorem test_wellFormed_send :
    WellFormed (.send 0 0 0 0 9 (bytes 0 0)) = false ∧ WellFormed (.send 0 0 0 0 8 (bytes 0 0)) = true := by decide

/-! ### Decoding: words written out from the encodings -/

/-- 30_encoding.md R81: the codes in binary, the operands on their ports. -/
theorem test_decode_commands_codec :
    decodeTableWord 8 0b0001 = some (.encode 0 0 0 0) ∧ decodeTableWord 8 0b0010 = some (.decode 0)
      ∧ decodeTableWord 8 0b0011 = some (.dfCheck 0 0 (Vector.replicate 8 0)) := by decide

theorem test_decode_commands_power :
    decodeTableWord 8 0b0100 = some .sleep ∧ decodeTableWord 8 0b0101 = some .wake
      ∧ decodeTableWord 8 0b0110 = some .isSleeping ∧ decodeTableWord 8 0b0111 = some .maybeAutosleep
      ∧ decodeTableWord 8 0b1000 = some (.setAutosleep false 0) ∧ decodeTableWord 8 0b1001 = some (.setStbyPin false 0) := by decide

theorem test_decode_commands_link :
    decodeTableWord 8 0b1010 = some (.send 0 0 0 0 0 (Vector.replicate 8 0)) ∧ decodeTableWord 8 0b1011 = some .receive := by
  decide

theorem test_decode_command_operands (p : Ports) :
    decode (.command 0xA p) = .ok (.send p.type p.target p.source p.port p.length p.payload) := rfl

/-- 30_encoding.md R86. -/
theorem test_decode_reserved :
    decodeTableWord 8 0x0 = none ∧ decodeTableWord 8 0xC = none ∧ decodeTableWord 8 0xF = none := by decide

/-- 30_encoding.md R73, bit by bit: marker 1, zero 0, type 11, port 00011, zero 0, target 00000010000, source 00000000101. -/
theorem test_decode_unicast_word :
    decodeTableWord 32 0b1_0_11_00011_0_00000010000_00000000101 = some (.idUnicast 1 0 3 0 0x10 0x05) := by decide

/-- 30_encoding.md R74, bit by bit: marker, zero, type, zero, target, source. -/
theorem test_decode_group_words :
    decodeTableWord 32 0b1_0_01_0_0001001000110100_00010101011 = some (.idMulticast 1 0 0 0x1234 0x0AB)
      ∧ decodeTableWord 32 0b1_0_00_0_1111111111111111_11111111111 = some (.idBroadcast 1 0 0 0xFFFF 0x7FF)
      ∧ decodeTableWord 32 0b1_0_10_0_1011111011101111_00100100011 = some (.idReserved 1 0 0 0xBEEF 0x123) := by decide

/-! ### One step from reset -/

/-- A word placed by `withFetchWord` is the first instruction to run: V10 row 9's word for operands of zero. -/
theorem test_first_step_encode :
    ((ended (step (State.reset.withFetchWord 8 0x1))).map fun t => t.result) = some (.encode 0x80000000 true) := by decide

theorem test_first_step_idWord :
    ((ended (step (State.reset.withFetchWord 32 0xB1808005))).map fun t => t.result)
      = some (.decode ⟨.unicast, 0x10, 0x05, 3⟩) := by decide

theorem test_first_step_runs_commands :
    ∀ op ∈ [0x2, 0x3, 0x4, 0x5, 0x6, 0x7, 0x8, 0x9, 0xB], (ended (step (State.reset.withFetchWord 8 op))).isSome = true := by
  simp only [List.mem_cons, List.not_mem_nil, or_false]
  rintro op (rfl | rfl | rfl | rfl | rfl | rfl | rfl | rfl | rfl) <;> rfl

/-! ### The instructions, one step each -/

/-- V10 rows 1 and 8. -/
theorem test_encode :
    seen (exec (.encode 3 0x10 0x05 3) (state 0)) = some (.encode 0xB1808005 true, [])
      ∧ seen (exec (.encode 3 0x001 0x002 0x80) (state 0)) = some (.encode 0 false, []) := by decide

/-- V11 rows 4 and 19. -/
theorem test_decode :
    seen (exec (.decode 0xB1C08005) (state 0)) = some (.decode ⟨.unicast, 0x10, 0x05, 3⟩, [])
      ∧ seen (exec (.decode 0x11808005) (state 0)) = some (.decode ⟨.multicast, 0x3010, 0x05, 0xFF⟩, []) := by decide

/-- V20 lines 2 and 3. -/
theorem test_dfCheck_window :
    let s := { polling false true [] with env := (state 310).env }
    let t := { polling false true [] with env := (state 311).env }
    seen (exec (.dfCheck 0xB1808005 2 (bytes 0xAA 0x55)) s) = some (.dfCheck false, [.now 310])
      ∧ seen (exec (.dfCheck 0xB1808005 2 (bytes 0xAA 0x55)) t) = some (.dfCheck true, [.now 311]) := by decide

/-- V20 line 6: only byte 0 is rewritten. -/
theorem test_dfCheck_overwrite :
    (ended (exec (.dfCheck 0xB1808005 1 (bytes 0xAB 0x99)) (polling false true []))).map (fun t => recordOf t.blk)
      = some ⟨0xB1808005, 1, bytes 0xAB 0x55, 300⟩ := by decide

/-- V30 lines 1 and 2. -/
theorem test_sleep :
    seen (exec .sleep (pinned 100 .awake [true, false])) = some (.sleep .fail, [.getMode .awake, .sleep .fail])
      ∧ seen (exec .sleep (pinned 100 .awake)) = some (.sleep .ok, [.getMode .awake, .sleep .ok, .digitalWrite .host 7 true]) := by
  decide

/-- V30 line 3; and a peripheral that wakes by itself before it is asked and then refuses to sleep is left Awake (42_power_controller.md
R136). -/
theorem test_sleep_again :
    let s := scripted (selfWaking (pinned 100 .sleeping)) [eventTurn .selfWake, ⟨[], false, true, none⟩]
    seen (exec .sleep (pinned 100 .sleeping)) = some (.sleep .ok, [.getMode .sleeping])
      ∧ ((ended (exec .sleep s)).map fun t => (t.result, t.env.mode)) = some (.sleep .fail, .awake) := by decide

/-- V30 lines 4 and 5. -/
theorem test_wake :
    seen (exec .wake (pinned 250 .sleeping [true, false])) = some (.wake .fail, [.now 250, .wake .fail])
      ∧ seen (exec .wake (pinned 260 .sleeping)) = some (.wake .ok, [.now 260, .wake .ok, .digitalWrite .host 7 false]) := by decide

/-- V30 line 4: the timestamp is refreshed although the wake failed, and the mode is as it was. -/
theorem test_wake_refreshes :
    (ended (exec .wake (pinned 250 .sleeping [true, false]))).map (fun t => (t.blk.lastActivityTimestamp, t.env.mode))
      = some (250, .sleeping) := by decide

/-- V30 line 13. -/
theorem test_isSleeping :
    seen (exec .isSleeping (pinned 1271 .sleeping)) = some (.isSleeping true, [.getMode .sleeping])
      ∧ seen (exec .isSleeping (pinned 1271 .awake)) = some (.isSleeping false, [.getMode .awake]) := by decide

/-- V31 lines 1 and 2: the threshold is strict. -/
theorem test_maybeAutosleep :
    seen (exec .maybeAutosleep (idling 6000 5000 1000)) = some (.maybeAutosleep, [.checkReceiveAvailable false, .now 6000])
      ∧ seen (exec .maybeAutosleep (idling 6001 5000 1000))
        = some (.maybeAutosleep, [.checkReceiveAvailable false, .now 6001, .getMode .awake, .sleep .ok]) := by decide

/-- V30 line 8: a frame pending. -/
theorem test_maybeAutosleep_pending :
    let s := idling 9999 270 1000
    seen (exec .maybeAutosleep { s with env := { s.env with rxQueue := [frameF] } })
      = some (.maybeAutosleep, [.checkReceiveAvailable true]) := by decide

/-- V30 line 11, and program 1 (V60) step 2. -/
theorem test_setAutosleep :
    seen (exec (.setAutosleep false 0) (idling 1271 270 1000)) = some (.setAutosleep, [])
      ∧ seen (exec (.setAutosleep true 500) (pinned 1000 .awake))
        = some (.setAutosleep,
            [.checkReceiveAvailable false, .now 1000, .getMode .awake, .sleep .ok, .digitalWrite .host 7 true]) := by decide

/-- V30 line 12. -/
theorem test_setStbyPin :
    seen (exec (.setStbyPin true 3) (pinned 1271 .sleeping))
      = some (.setStbyPin, [.setPinMode .ctrl 3 .output, .getMode .sleeping, .digitalWrite .ctrl 3 true]) := by decide

theorem test_setStbyPin_pin :
    (ended (exec (.setStbyPin true 3) (pinned 1271 .sleeping))).map (fun t => (t.env.ctrlPins, t.env.hostPins))
      = some ([(3, ⟨.output, true⟩)], []) := by decide

/-- V40 lines 3 and 5: a failed wake does not decide. -/
theorem test_send :
    seen (exec (.send 3 0x10 0x05 3 2 (bytes 0xAA 0x55)) (state 200 [true, false]))
      = some (.send true, [.now 200, .wake .fail, .sendFrame 0xB1808005 true 2 [0xAA, 0x55] .ok]) := by decide

/-- V40 line 7: the handshake, its delay, and a failed real frame. -/
theorem test_send_handshake :
    let s := { state 200 [true, true, true, true, false] with cfg := { cfg with wakeupHsEnabled := true } }
    seen (exec (.send 1 0x1234 0x0AB 0xFF 1 (bytes 0x42 0)) s)
      = some (.send false, [.now 200, .wake .ok, .sendFrame 0x80000111 true 1 [0x77] .ok, .delay 10,
          .sendFrame 0x9091A0AB true 1 [0x42] .fail]) := by decide

/-- V41 line 2: an available frame is delivered and recorded. -/
theorem test_receive_delivers :
    let o := ended (exec .receive (polling false true [frameG]))
    (o.bind fun t => delivered t.result) = some (⟨.multicast, 0x1234, 0x0AB, 0xFF⟩, 1, [0x01])
      ∧ (o.map fun t => (t.env.history, t.env.rxQueue, t.blk.dfPayload))
        = some ([.checkReceiveAvailable true, .readFrame (some frameG), .now 300], [], bytes 0x01 0x55) := by decide

/-- V41 line 6: the flag stays set while the line is low; and with a pin configured the wake drives it to the active level before the line
is sampled, at either level (43_link_driver.md R166, R168). -/
theorem test_receive_flag :
    let s := polling true false [frameG]
    let u := fun line => { polling true line [] with blk := { (pinned 300 .awake).blk with activitySignal := true } }
    ((ended (exec .receive s)).map fun t => (t.blk.activitySignal, t.blk.lastActivityTimestamp, t.env.history))
        = some (true, 300,
            [.now 300, .wake .ok, .intLine false, .checkReceiveAvailable true, .readFrame (some frameG), .now 300])
      ∧ ∀ line ∈ [true, false],
        ((ended (exec .receive (u line))).map fun t => (t.env.history, t.env.hostPins.map fun e => (e.1, e.2.level)))
          = some ([.now 300, .wake .ok, .digitalWrite .host 7 false, .intLine line, .checkReceiveAvailable false], [(7, false)]) := by
  decide

/-- 30_encoding.md R73 and R74, rows "DECODE reads"; the words are V11 rows 1, 9, 10 and 11. -/
theorem test_idBroadcast :
    seen (exec (.idBroadcast 1 0 1 0xFFFF 0x7FF) (state 0)) = some (.decode ⟨.broadcast, 0xFFFF, 0x7FF, 0xFF⟩, []) := by decide

theorem test_idMulticast :
    seen (exec (.idMulticast 1 0 0 0x1234 0x0AB) (state 0)) = some (.decode ⟨.multicast, 0x1234, 0x0AB, 0xFF⟩, []) := by decide

theorem test_idReserved :
    seen (exec (.idReserved 1 0 0 0xBEEF 0x11B) (state 0)) = some (.decode ⟨.reserved, 0xBEEF, 0x11B, 0xFF⟩, []) := by decide

theorem test_idUnicast :
    seen (exec (.idUnicast 1 0 3 0 0x10 0x05) (state 0)) = some (.decode ⟨.unicast, 0x10, 0x05, 3⟩, []) := by decide

/-! ### Witnesses: for each obligation with hypotheses, states and operands that meet them -/

/-- The first and the last reserved codes, and the first and the last that select an operation. -/
theorem test_witness_ReservedCodesRefused :
    (∀ op ∈ [0x0#4, 0xC#4, 0xF#4],
        (op.toNat = 0 ∨ 0xC ≤ op.toNat)
          ∧ { state 0 with presented := some (.present (.command op Ports.zero)) }.presented
            = some (.present (.command op Ports.zero)))
      ∧ ∀ op ∈ [0x1#4, 0xB#4], 1 ≤ op.toNat ∧ op.toNat ≤ 0xB := by decide

/-- Operands just inside each range, and just outside each (V10). -/
theorem test_witness_EncodeResult :
    (state 0).seq = .idle
      ∧ (¬ OutOfRange 3 0x7FF 0x7FF 0x1F ∧ ¬ OutOfRange 3 0 0 0 ∧ ¬ OutOfRange 2 0xFFFF 0x7FF 0x80)
      ∧ OutOfRange 4 0 0 0 ∧ OutOfRange 0 0 0x800 0 ∧ OutOfRange 3 0x800 0 0 ∧ OutOfRange 3 0 0 0x20 ∧ OutOfRange 3 0 0 0xFF
      ∧ OutOfRange 0 0x10000 0 0 := by
  unfold OutOfRange
  refine ⟨rfl, ⟨?_, ?_, ?_⟩, ?_, ?_, ?_, ?_, ?_, ?_⟩ <;> decide

/-- A word of each type: both of the codec's two formats. -/
theorem test_witness_DecodeResult :
    (state 0).seq = .idle ∧ (decodeAddress 0xB1808005#32).type = .unicast ∧ (decodeAddress 0x9091A0AB#32).type ≠ .unicast := by
  decide

/-- Every unused bit flipped, in each format. -/
theorem test_witness_DecodeIgnoresUnusedBits :
    0xC0400000#32 &&& (if (0xB1808005#32).extractLsb' 28 2 = 3#2 then 0x3FBFFFFF#32 else 0x37FFFFFF#32) = 0#32
      ∧ 0xC8000000#32 &&& (if (0x9091A0AB#32).extractLsb' 28 2 = 3#2 then 0x3FBFFFFF#32 else 0x37FFFFFF#32) = 0#32 := by
  decide

theorem test_witness_DecodeKeepsAddressInvariant :
    (state 0).seq = .idle ∧ (decodeAddress 0xFFFFFFFF#32).type = .unicast ∧ (decodeAddress 0xEFFFFFFF#32).type ≠ .unicast := by decide

/-- The largest operands of each format. -/
theorem test_witness_EncodeThenDecodeGivesOperands :
    (∃ t w, exec (.encode 3 0x7FF 0x7FF 0x1F) (state 0) = .next t ∧ t.result = .encode w true)
      ∧ ∃ t w, exec (.encode 2 0xFFFF 0x7FF 0x80) (state 0) = .next t ∧ t.result = .encode w true :=
  ⟨⟨_, 0xBFBFFFFF, rfl, by decide⟩, ⟨_, 0xA7FFFFFF, rfl, by decide⟩⟩

/-- A word with every unused bit set, in each format. -/
theorem test_witness_ReencodeSetsMarkerClearsUnused :
    (∃ t m, exec (.decode 0xFFFFFFFF) (state 0) = .next t ∧ t.result = .decode m)
      ∧ ∃ t m, exec (.decode 0x5FFFFFFF) (state 0) = .next t ∧ t.result = .decode m :=
  ⟨⟨_, _, rfl, rfl⟩, ⟨_, _, rfl, rfl⟩⟩

theorem test_witness_IdentifierFormatsReadAsDecode : (state 0).seq = .idle := rfl

/-- A length of 8 and a record accepted at the clock's value; the frame of the record is rejected there, another accepted. -/
theorem test_witness_DfCheckResult :
    let s := polling false true []
    s.seq = .idle ∧ (8 : LenField).toNat ≤ 8 ∧ (polling false true []).blk.dfTime.toNat ≤ s.env.clock.toNat
      ∧ { s with env := (state 290).env }.blk.dfTime.toNat ≤ { s with env := (state 290).env }.env.clock.toNat
      ∧ ((ended (exec (.dfCheck 0xB1808005 2 (bytes 0xAA 0x55)) s)).map fun t => t.result) = some (.dfCheck false)
      ∧ ((ended (exec (.dfCheck 0xB1808005 8 (bytes 0xAA 0x55)) s)).map fun t => t.result) = some (.dfCheck true) := by decide

theorem test_witness_DfCheckRefusesLongLength : (state 0).seq = .idle ∧ 8 < (9 : LenField).toNat ∧ 8 < (15 : LenField).toNat := by
  decide

/-- Buffers that differ from the first meaningless byte on, and with no meaningful byte. -/
theorem test_witness_DfCheckSeesMeaningfulBytesOnly :
    (SameMeaningful 1 (bytes 1 2) (bytes 1 3) ∧ bytes 1 2 ≠ bytes 1 3) ∧ SameMeaningful 0 (bytes 1 2) (bytes 3 4) := by
  unfold SameMeaningful; decide

/-- The frame is accepted at 300; the repeat is 20 ms after it in one run, 21 in the other. -/
theorem test_witness_RepeatAcceptedAfterWindowOnly :
    ∀ ms ∈ [20, 21],
      ∃ t, exec (.dfCheck 7 1 (bytes 1 0)) (scripted (state 300) [⟨[], true, true, none⟩, eventTurn (.advance ms)]) = .next t
        ∧ t.result = .dfCheck true ∧ cfg.dupFilterEnabled = true := by
  simp only [List.mem_cons, List.not_mem_nil, or_false]
  rintro ms (rfl | rfl) <;> exact ⟨_, rfl, by decide, rfl⟩

/-- No self-wake in the turns, with and without its being admitted; and one in the last turn, which the turns before it do not see. -/
theorem test_witness_NoSelfWake :
    (∀ s ∈ [pinned 0 .awake, selfWaking (pinned 0 .awake)], NoSelfWake s.cfg s.env 12)
      ∧ NoSelfWake (selfWaking (state 0)).cfg (scripted (state 0) [quietTurn, eventTurn .selfWake]).env 1
      ∧ ¬ NoSelfWake (selfWaking (state 0)).cfg (scripted (state 0) [quietTurn, eventTurn .selfWake]).env 2 := by
  unfold NoSelfWake; decide

/-- An idle block beside a peripheral in either mode that may wake by itself and does not, answering either way. -/
theorem test_witness_SleepResult :
    ∀ m ∈ [Mode.awake, .sleeping], ∀ b ∈ [true, false],
      let s := selfWaking (pinned 100 m [true, b])
      s.seq = .idle ∧ s.cfg.periphSelfWake = true
        ∧ ∃ t calls, exec .sleep s = .next t ∧ CallsMade s t calls ∧ NoSelfWake s.cfg s.env calls.length := by
  simp only [List.mem_cons, List.not_mem_nil, or_false]
  rintro m (rfl | rfl) b (rfl | rfl) <;> exact ⟨rfl, rfl, _, _, rfl, rfl, by unfold NoSelfWake; decide⟩

theorem test_witness_WakeResult :
    ∀ m ∈ [Mode.awake, .sleeping], ∀ b ∈ [true, false],
      let s := selfWaking (pinned 100 m [true, b])
      s.seq = .idle ∧ s.cfg.periphSelfWake = true
        ∧ ∃ t calls, exec .wake s = .next t ∧ CallsMade s t calls ∧ NoSelfWake s.cfg s.env (calls.length + 1) := by
  simp only [List.mem_cons, List.not_mem_nil, or_false]
  rintro m (rfl | rfl) b (rfl | rfl) <;> exact ⟨rfl, rfl, _, _, rfl, rfl, by unfold NoSelfWake; decide⟩

/-- Either mode; and a self-wake in the turn after the call, which the answer does not see. -/
theorem test_witness_IsSleepingResult :
    (∀ m ∈ [Mode.awake, .sleeping],
        let s := selfWaking (pinned 0 m)
        s.seq = .idle ∧ s.cfg.periphSelfWake = true ∧ NoSelfWake s.cfg s.env 2)
      ∧ let s := scripted (selfWaking (pinned 0 .sleeping)) [quietTurn, eventTurn .selfWake]
        NoSelfWake s.cfg s.env 1 ∧ seen (exec .isSleeping s) = some (.isSleeping true, [.getMode .sleeping]) := by
  unfold NoSelfWake; decide

/-- The largest sum the premise admits, and a larger one with the policy off; a run that sleeps, beside a peripheral that may wake by itself
and does not. -/
theorem test_witness_MaybeAutosleepResult :
    ((idling 6000 5000 0xFFFFEC77).seq = .idle ∧ AutosleepDefined (idling 6000 5000 0xFFFFEC77).blk
        ∧ 5000 + 0xFFFFEC77 = 2 ^ 32 - 1
        ∧ AutosleepDefined { (idling 6000 5000 0xFFFFEC78).blk with autosleepEnabled := false })
      ∧ let s := selfWaking (idling 6001 5000 1000)
        AutosleepDefined s.blk ∧ ∃ t calls, exec .maybeAutosleep s = .next t ∧ CallsMade s t calls
          ∧ Call.sleep .ok ∈ calls ∧ NoSelfWake s.cfg s.env calls.length := by
  unfold AutosleepDefined NoSelfWake
  exact ⟨by decide, by decide, _, _, rfl, rfl, by decide, by decide⟩

theorem test_witness_SetAutosleepResult :
    ((idling 6000 5000 0).seq = .idle
        ∧ AutosleepDefined { (idling 6000 5000 0).blk with autosleepEnabled := true, keepAwakeDuration := 0xFFFFEC77 }
        ∧ AutosleepDefined { (idling 6000 5000 0).blk with autosleepEnabled := false, keepAwakeDuration := 0xFFFFFFFF })
      ∧ let s := selfWaking (idling 6000 5000 0)
        ∃ t calls, exec (.setAutosleep true 999) s = .next t ∧ CallsMade s t calls ∧ Call.sleep .ok ∈ calls
          ∧ NoSelfWake s.cfg s.env calls.length := by
  unfold AutosleepDefined NoSelfWake
  exact ⟨by decide, _, _, rfl, rfl, by decide, by decide⟩

/-- The smallest sum that wraps. -/
theorem test_witness_AutosleepRefusesWrappingSum :
    let s := idling 6000 5000 0xFFFFEC78
    s.seq = .idle ∧ s.blk.autosleepEnabled = true
      ∧ 2 ^ 32 ≤ s.blk.lastActivityTimestamp.toNat + s.blk.keepAwakeDuration.toNat ∧ calm s 1 ∧ s.env.rxQueue = [] := by
  unfold calm; decide

theorem test_witness_SetStbyPinResult :
    (pinned 0 .sleeping).seq = .idle ∧ (state 0).seq = .idle
      ∧ NoSelfWake (selfWaking (pinned 0 .sleeping)).cfg (selfWaking (pinned 0 .sleeping)).env 2 := by
  unfold NoSelfWake; decide

/-- A SLEEP that succeeds, beside a peripheral that may wake by itself and does not until the second one has asked. -/
theorem test_witness_SecondSleepOnlyAsksMode :
    let s := scripted (selfWaking (pinned 100 .awake)) [quietTurn, quietTurn, quietTurn, quietTurn, eventTurn .selfWake]
    ∃ t calls, exec .sleep s = .next t ∧ CallsMade s t calls ∧ t.result = .sleep .ok
      ∧ NoSelfWake s.cfg s.env (calls.length + 1) :=
  ⟨_, _, rfl, rfl, by decide, by unfold NoSelfWake; decide⟩

/-- SLEEP with either answer, WAKE, IS_SLEEPING and SET_STBY_PIN, and a SEND that wakes and sleeps again: each clause has a run beside a
peripheral that may wake by itself and does not. -/
theorem test_witness_PowerTransitions :
    let sleeper := selfWaking (pinned 100 .sleeping)
    (∀ b ∈ [true, false], ∀ i ∈ [Instr.sleep, .wake],
        let s := selfWaking (pinned 100 .awake [true, b])
        ∃ t calls, exec i s = .next t ∧ CallsMade s t calls ∧ NoSelfWake s.cfg s.env calls.length)
      ∧ (∀ i ∈ [Instr.isSleeping, .setStbyPin true 0xFF],
        ∃ t calls, exec i sleeper = .next t ∧ CallsMade sleeper t calls ∧ NoSelfWake sleeper.cfg sleeper.env calls.length)
      ∧ let s := selfWaking (scripted (idling 5000 0 0) (List.replicate 4 quietTurn ++ [eventTurn (.advance 1)] ++ turns []))
        ∃ t calls, exec (.send 3 0x10 0x05 3 2 (bytes 0xAA 0x55)) s = .next t ∧ CallsMade s t calls
          ∧ Call.wake .ok ∈ calls ∧ Call.sleep .ok ∈ calls ∧ NoSelfWake s.cfg s.env calls.length := by
  simp only [List.mem_cons, List.not_mem_nil, or_false]
  refine ⟨?_, ?_, _, _, rfl, rfl, by decide, by decide, by unfold NoSelfWake; decide⟩
  · rintro b (rfl | rfl) i (rfl | rfl) <;> exact ⟨_, _, rfl, rfl, by unfold NoSelfWake; decide⟩
  · rintro i (rfl | rfl) <;> exact ⟨_, _, rfl, rfl, by unfold NoSelfWake; decide⟩

/-- Sleeping beside a standby pin that agrees; the step wakes the peripheral. -/
def agreeing (mode : Mode) (level : Bool) (i : Instr) : State :=
  let s := pinned 100 mode
  { s with env := { s.env with hostPins := [(7, ⟨.output, level⟩)] }, presented := some (.present (encode i)) }

theorem test_witness_EveryStepKeepsPinAgreement :
    ∀ c ∈ [(Mode.sleeping, true, Instr.wake), (.awake, false, .sleep)],
      let s := selfWaking (agreeing c.1 c.2.1 c.2.2)
      PinAgrees s ∧ s.cfg.periphSelfWake = true
        ∧ ∃ t calls, step s = .next t ∧ CallsMade s t calls ∧ NoSelfWake s.cfg s.env (calls.length + 1) := by
  simp only [List.mem_cons, List.not_mem_nil, or_false]
  rintro c (rfl | rfl) <;>
  · refine ⟨?_, rfl, _, _, rfl, rfl, by unfold NoSelfWake; decide⟩
    intro pin h; cases h; rfl

/-- A configuration with the wakeup handshake. -/
def handshake : Cfg := { cfg with wakeupHsEnabled := true }

/-- An address out of range and one in range; each way the two time premises can hold, at the largest clock they admit; and an
environment that advances the clock before the calls, up to the last sums the premises admit. -/
theorem test_witness_SendResult :
    (state 0).seq = .idle ∧ (8 : LenField).toNat ≤ 8 ∧ OutOfRange 4 0 0 0 ∧ ¬ OutOfRange 3 0x7FF 0x7FF 0x1F
      ∧ (AutosleepDefinedAfterWake (state 0xFFFFFFFF) ∧ AutosleepDefinedAfterWake (idling 0xFFFFFC17 0 1000))
      ∧ DelayDefined (state 0xFFFFFFFF) ∧ DelayDefined (withCfg (state 0xFFFFFFFF) { handshake with wakeupHsDelay := 0 })
      ∧ DelayDefined (withCfg (state 0xFFFFFFF5) handshake)
      ∧ DelayDefined (withCfg (state 0xFFFFFFFF [true, true, false]) handshake) := by
  unfold OutOfRange AutosleepDefinedAfterWake DelayDefined; decide

theorem test_witness_SendResult_advancing :
    let s := scripted (withCfg (idling 0xFFFFFC00 0 1000) handshake)
      [eventTurn (.advance 23), eventTurn (.advance 7), eventTurn (.advance 9)]
    AutosleepDefinedAfterWake s ∧ DelayDefined s ∧ s.env.clock.toNat + 23 + 1000 = 2 ^ 32 - 1
      ∧ DelayDefined (withCfg s { handshake with wakeupHsDelay := 984 }) ∧ 0xFFFFFC00 + 23 + 7 + 9 + 984 = 2 ^ 32 - 1 := by
  unfold AutosleepDefinedAfterWake DelayDefined; decide

theorem test_witness_SendRefusesLongLength : (state 0).seq = .idle ∧ 8 < (9 : LenField).toNat ∧ 8 < (15 : LenField).toNat := by
  decide

theorem test_witness_SendSeesMeaningfulBytesOnly :
    (SameMeaningful 1 (bytes 1 2) (bytes 1 3) ∧ bytes 1 2 ≠ bytes 1 3) ∧ SameMeaningful 0 (bytes 1 2) (bytes 3 4) := by
  unfold SameMeaningful; decide

/-- A SEND with the handshake. -/
theorem test_witness_SendDelayIsLowerBound :
    ∃ t calls, exec (.send 3 0x10 0x05 3 2 (bytes 0xAA 0x55)) (withCfg (state 200) handshake) = .next t
      ∧ CallsMade (withCfg (state 200) handshake) t calls ∧ Call.delay 10 ∈ calls :=
  ⟨_, _, rfl, rfl, by decide⟩

/-- The flag clear and the flag set, the line at each level; the record before the clock; the environment holding still for ten calls;
the policy off, and on with the largest sum it admits. -/
theorem test_witness_ReceiveResult :
    (∀ flag ∈ [true, false], ∀ line ∈ [true, false],
        (polling flag line []).seq = .idle
          ∧ (cfg.dupFilterEnabled = true → (polling flag line []).blk.dfTime.toNat ≤ (polling flag line []).env.clock.toNat)
          ∧ calm (polling flag line []) 10 ∧ (polling flag line []).blk.activitySignal = flag)
      ∧ (∀ flag ∈ [true, false], AutosleepDefinedAfterWake (polling flag true []) ∧ AutosleepDefined (polling flag true []).blk)
      ∧ AutosleepDefinedAfterWake (idling 300 0 0xFFFFFED3) ∧ AutosleepDefined (idling 300 0 0xFFFFFFFF).blk := by
  unfold AutosleepDefinedAfterWake AutosleepDefined calm
  refine ⟨?_, ?_, ?_, ?_⟩ <;> decide

/-- Each of its outcomes, reached: nothing, a read error, a duplicate, a delivered frame. -/
theorem test_witness_ReceiveResult_outcomes :
    ∀ q ∈ [([], []), ([frameG], [true, false]), ([frameF], []), ([frameG], [])],
      (seen (exec .receive (polling false true q.1 q.2))).isSome = true := by decide

theorem test_witness_ReceiveKeepsRecordWithFilterOff :
    let s := withCfg (polling false true [frameG]) { cfg with dupFilterEnabled := false }
    ∃ t, exec .receive s = .next t ∧ s.cfg.dupFilterEnabled = false :=
  ⟨_, rfl, rfl⟩

theorem test_witness_ReceiveClearsFlagIffLineInactive :
    ∀ line ∈ [true, false],
      (∃ t, exec .receive (polling true line []) = .next t) ∧ calm (polling true line []) 10
        ∧ (polling true line []).blk.activitySignal = true := by
  simp only [List.mem_cons, List.not_mem_nil, or_false]
  rintro line (rfl | rfl) <;> exact ⟨⟨_, rfl⟩, by unfold calm; decide, rfl⟩

/-- An edge of each direction alone in its turn; the falling edge of a pulse; and one beside a clock advance to the clock's last
value; before a step of a waiting block. -/
theorem test_witness_FallingEdgeOnlySetsFlag :
    (∀ level ∈ [true, false],
        let s := scripted (polling false (!level) []) [eventTurn (.setLine level)]
        (nextTurn s.env).events = [] ++ .setLine level :: [] ∧ s.presented = none ∧ (nextTurn s.env).item = none
          ∧ TurnInTime s ∧ s.env.intLine = !level)
      ∧ (nextTurn (scripted (state 0) [eventsTurn [.setLine false, .setLine true]]).env).events
          = [] ++ .setLine false :: [.setLine true]
      ∧ (nextTurn (scripted (state 0) [eventsTurn [.advance 0xFFFFFFFF, .setLine false]]).env).events
          = [.advance 0xFFFFFFFF] ++ .setLine false :: []
      ∧ TurnInTime (scripted (state 0) [eventsTurn [.advance 0xFFFFFFFF, .setLine false]]) := by
  unfold TurnInTime; decide

/-- SLEEP with the flag set. -/
theorem test_witness_OnlyReceiveClearsFlag :
    Instr.sleep ≠ .receive ∧ (∃ t, exec .sleep (polling true true []) = .next t)
      ∧ (polling true true []).blk.activitySignal = true := by
  refine ⟨by decide, ⟨_, rfl⟩, rfl⟩

/-- Alone in its turn with the line at each level, and after the line was released in the same turn. -/
theorem test_witness_OtherInstanceConsumesIdleFlag :
    (∀ line ∈ [true, false],
        let s := scripted (withCfg (polling true line []) { cfg with sharedActivity := true }) [eventTurn .otherConsume]
        (nextTurn s.env).events = [] ++ .otherConsume :: [] ∧ s.cfg.sharedActivity = true ∧ s.seq = .idle)
      ∧ (nextTurn (scripted (polling true false []) [eventsTurn [.setLine true, .otherConsume]]).env).events
          = [.setLine true] ++ .otherConsume :: [] := by decide

/-- A sleeping peripheral that may and may not wake by itself, the self-wake between two other steps; and a turn without one. -/
theorem test_witness_SelfWakeOnlyMovesMode :
    (∀ self ∈ [true, false],
        let s := scripted (withCfg (pinned 0 .sleeping) { cfg with periphSelfWake := self })
          [eventsTurn [.arrive frameG, .selfWake, .setLine false]]
        (nextTurn s.env).events = [.arrive frameG] ++ .selfWake :: [.setLine false] ∧ s.env.mode = .sleeping
          ∧ s.cfg.periphSelfWake = self)
      ∧ EnvEvent.selfWake ∉ (nextTurn (scripted (pinned 0 .sleeping) [eventTurn (.arrive frameG)]).env).events := by decide

/-- An awake peripheral that SLEEP puts to sleep. -/
theorem test_witness_OnlySleepCallPutsToSleep :
    ∃ t calls, exec .sleep (pinned 100 .awake) = .next t ∧ CallsMade (pinned 100 .awake) t calls
      ∧ (pinned 100 .awake).env.mode = .awake ∧ t.env.mode = .sleeping :=
  ⟨_, _, rfl, rfl, rfl, by decide⟩

/-- MAYBE_AUTOSLEEP past the idle time, a frame pending. -/
theorem test_witness_NoAutosleepWhileAvailable :
    let s := { idling 9999 270 1000 with env := (polling false true [frameF]).env }
    ∃ t calls, exec .maybeAutosleep s = .next t ∧ CallsMade s t calls ∧ Call.checkReceiveAvailable true ∈ calls
      ∧ Instr.maybeAutosleep ≠ .sleep :=
  ⟨_, _, rfl, rfl, by decide, by decide⟩

theorem test_witness_BusyBlockRefuses : { state 0 with seq := .executing 0xA }.seq = .executing 0xA := rfl

/-- A SEND with the handshake, the policy on and the pin configured makes eleven calls. -/
theorem test_witness_OperationMakesBoundedCalls :
    let i := idling 5000 0 0
    let s := { withCfg i handshake with blk := { i.blk with stbyPinRoute := .host } }
    ∃ t, exec (.send 3 0x10 0x05 3 2 (bytes 0xAA 0x55)) s = .next t ∧ t.env.history.length = 11 :=
  ⟨_, rfl, by decide⟩

theorem test_witness_StepRunsDecodedInstruction :
    ∀ i ∈ [Instr.sleep, .decode 0xB1808005, .idUnicast 1 0 3 0 0x10 0x05],
      { state 0 with presented := some (.present (encode i)) }.presented = some (.present (encode i))
        ∧ (match decode (encode i) with | .ok j => decide (j = i) | .error _ => false) = true := by decide

/-- A turn that brings the host's item, and one that brings none, at the clock's last value. -/
theorem test_witness_IdleBlockTakesItemOrWaits :
    (state 0).presented = none ∧ (state 0).seq = .idle
      ∧ (nextTurn (scripted (state 0) [⟨[], true, true, some .reset⟩]).env).item = some .reset
      ∧ (nextTurn (state 0xFFFFFFFF).env).item = none ∧ TurnInTime (state 0xFFFFFFFF) := by
  unfold TurnInTime; decide

/-- Reset beside an environment that advances the clock to its last value. -/
theorem test_witness_ResetSetsRegistersOnly :
    let s := { scripted (polling true true []) [eventTurn (.advance 0xFFFFFED3)] with presented := some .reset }
    s.presented = some .reset ∧ TurnInTime s := by
  unfold TurnInTime; decide

/-- A state that meets the invariant, and a step of it. -/
theorem test_witness_EveryStepKeepsInvariant :
    Inv (agreeing .sleeping true .wake) ∧ ∃ t, step (agreeing .sleeping true .wake) = .next t :=
  ⟨⟨rfl, by decide, by decide, by decide, by decide, by decide, rfl, by decide, by decide⟩, _, rfl⟩

theorem test_witness_ClockAndHistoryOnlyGrow : ∃ t, step (agreeing .sleeping true .wake) = .next t := ⟨_, rfl⟩

theorem test_witness_ConfigurationIsConstant : ∃ t, step (agreeing .awake false .sleep) = .next t := ⟨_, rfl⟩

/-- WAKE, which writes the timestamp, and SLEEP, which calls no `P.wake`. -/
theorem test_witness_OnlyWakeWritesTimestamp :
    (∃ t calls, exec .wake (pinned 250 .sleeping) = .next t ∧ CallsMade (pinned 250 .sleeping) t calls)
      ∧ ∃ t calls, exec .sleep (pinned 250 .awake) = .next t ∧ CallsMade (pinned 250 .awake) t calls
        ∧ ∀ r, Call.wake r ∉ calls :=
  ⟨⟨_, _, rfl, rfl⟩, _, _, rfl, rfl, by rintro (_ | _) <;> decide⟩

theorem test_witness_OnlyFilterWritesRecord :
    (∃ t, exec .wake (polling true true []) = .next t) ∧ Instr.wake ≠ .receive
      ∧ ∀ id length payload, Instr.wake ≠ .dfCheck id length payload :=
  ⟨⟨_, rfl⟩, by decide, fun _ _ _ => nofun⟩

theorem test_witness_OnlySetAutosleepWritesPolicy :
    (∃ t, exec .receive (idling 6000 5000 1000) = .next t) ∧ ∀ enabled keep, Instr.receive ≠ .setAutosleep enabled keep :=
  ⟨⟨_, rfl⟩, fun _ _ => nofun⟩

/-- WAKE beside a configured pin, and SET_STBY_PIN over one. -/
theorem test_witness_OnlySetStbyPinWritesRoute :
    ((∃ t, exec .wake (pinned 250 .sleeping) = .next t) ∧ ∀ ctrl p, Instr.wake ≠ .setStbyPin ctrl p)
      ∧ (∃ t, exec (.setStbyPin true 3) (pinned 250 .sleeping) = .next t)
      ∧ (pinned 250 .sleeping).blk.stbyPinRoute ≠ .absent :=
  ⟨⟨⟨_, rfl⟩, fun _ _ => nofun⟩, ⟨_, rfl⟩, by decide⟩

/-- A SEND whose wake fails and whose real frame succeeds, and one the other way round. -/
theorem test_witness_PeripheralAnswersAreTheTurns :
    ∀ answers ∈ [[true, false, true], [true, true, true, false]],
      ∃ t calls, exec (.send 3 0x10 0x05 3 2 (bytes 0xAA 0x55)) (pinned 200 .awake answers) = .next t
        ∧ CallsMade (pinned 200 .awake answers) t calls := by
  simp only [List.mem_cons, List.not_mem_nil, or_false]
  rintro answers (rfl | rfl) <;> exact ⟨_, _, rfl, rfl⟩

/-- MAYBE_AUTOSLEEP beside an environment that advances the clock before both of its calls, to the clock's last value. -/
theorem test_witness_ClockReadsAreTheTurns :
    let s := scripted (idling 0xFFFFFF00 0 1000) ([eventTurn (.advance 0x80), eventTurn (.advance 0x7F)] ++ turns [])
    ∃ t calls n, exec .maybeAutosleep s = .next t ∧ CallsMade s t calls ∧ calls[1]? = some (.now n)
      ∧ delaySum (calls.take 1) = 0 ∧ s.env.clock.toNat + advanceSum s.env 2 = 2 ^ 32 - 1 :=
  ⟨_, _, _, rfl, rfl, rfl, rfl, by decide⟩

/-- Nothing queued and two frames queued; the flag clear and set; the read succeeding, failing with the frame consumed, and failing
with it kept. -/
theorem test_witness_ReceiveTakesQueueHead :
    (∃ t calls, exec .receive (polling false true []) = .next t ∧ CallsMade (polling false true []) t calls)
      ∧ (∀ flag ∈ [true, false], ∀ answer ∈ [(true, true), (false, true), (false, false)],
          let s := scripted (polling flag true [frameG, frameF])
            (List.replicate (if flag then 4 else 1) quietTurn ++ [⟨[], answer.1, answer.2, none⟩] ++ turns [])
          (ended (exec .receive s)).isSome = true ∧ calm s 10
            ∧ turnAt s.env ((if flag then wakeCount s + 1 else 0) + 1) = ⟨[], answer.1, answer.2, none⟩)
      ∧ calm (polling false true []) 10 := by
  refine ⟨⟨_, _, rfl, rfl⟩, ?_, ?_⟩ <;> unfold calm <;> decide

theorem test_witness_OnlyReceiveConsumesFrames :
    let s := { idling 9999 270 1000 with env := (polling false true [frameF]).env }
    ∃ t calls, exec .maybeAutosleep s = .next t ∧ CallsMade s t calls ∧ Call.checkReceiveAvailable true ∈ calls
      ∧ Instr.maybeAutosleep ≠ .receive ∧ calm s 11 :=
  ⟨_, _, rfl, rfl, by decide, by decide, by unfold calm; decide⟩

/-- A pulse before a step of an idle block, and one inside an operation of a shared instance. -/
theorem test_witness_EdgeInTurnIsNotLost :
    let turn := eventsTurn [.advance 1, .setLine false, .setLine true]
    let s := scripted (state 0) [turn]
    let u := { scripted (withCfg (state 0) { cfg with sharedActivity := true }) [turn] with seq := .executing 0xB }
    (nextTurn s.env).events = [.advance 1] ++ .setLine false :: [.setLine true] ∧ (worldAfter s [.advance 1]).1.intLine = true
      ∧ s.cfg.sharedActivity = false ∧ (worldAfter u [.advance 1]).1.intLine = true ∧ u.seq ≠ .idle := by decide

/-- The record is from one millisecond after the clock, with the filter on and off; a frame that is the record's and one that is not. -/
theorem test_witness_DfCheckRefusesClockBeforeRecord :
    ∀ enabled ∈ [true, false],
      let s := { withCfg (state 289) { cfg with dupFilterEnabled := enabled } with blk := (polling false true []).blk }
      s.seq = .idle ∧ (now s).1.toNat < s.blk.dfTime.toNat ∧ s.blk.dfTime = 290
        ∧ refusal (exec (.dfCheck 7 8 (bytes 0 0)) s) = some .clockBeforeRecord
        ∧ refusal (exec (.dfCheck 0xB1808005 2 (bytes 0xAA 0x55)) s) = some .clockBeforeRecord := by decide

/-- A WAKE whose three turns and the step's own advance the clock to its last value. -/
def advancing (clock ms : Nat) : State :=
  { scripted (pinned clock .sleeping) (List.replicate 4 (eventTurn (.advance ms)) ++ turns []) with
    presented := some (.present (encode .wake)) }

theorem test_witness_StepAnswersWithinTime :
    let s := advancing 0xFFFFFFF7 2
    ∃ t calls, exec .wake (takeItem (beginStep s)) = .next t ∧ CallsMade s t calls ∧ s.env.timeBroken = false
      ∧ s.cfg.dfReset.timestamp.toNat ≤ s.env.clock.toNat
      ∧ s.env.clock.toNat + advanceSum s.env (calls.length + 1) + delaySum calls = 2 ^ 32 - 1 :=
  ⟨_, _, rfl, rfl, rfl, by decide, by decide⟩

/-- A clock that wraps by one millisecond in the last turn of a WAKE; one that wraps in the step's own turn; a reset record from one
millisecond after the clock read. -/
theorem test_witness_StepRefusesOutsideTime :
    let s := advancing 0xFFFFFFF8 2
    let u := withCfg (advancing 0 2) { cfg with dfReset := { Config.defaultRecord with timestamp := 5 } }
    (∃ t calls, exec .wake (takeItem (beginStep s)) = .next t ∧ CallsMade s t calls
        ∧ s.env.clock.toNat + advanceSum s.env (calls.length + 1) = 2 ^ 32)
      ∧ 2 ^ 32 = (scripted (state 1) [eventTurn (.advance 0xFFFFFFFF)]).env.clock.toNat
          + turnAdvance (nextTurn (scripted (state 1) [eventTurn (.advance 0xFFFFFFFF)]).env)
      ∧ ∃ t calls, exec .wake (takeItem (beginStep u)) = .next t ∧ CallsMade u t calls ∧ Call.now 4 ∈ calls
        ∧ (4 : Time).toNat < u.cfg.dfReset.timestamp.toNat :=
  ⟨⟨_, _, rfl, rfl, by decide⟩, by decide, _, _, rfl, rfl, by decide, by decide⟩

end Sys2Proof.Tests
end

section
/-! PROOFS. AddressCodec (spec/40_address_codec.md): the range checks of ENCODE are R105's, the word it assembles is the sum of its
fields (R100, 30_encoding.md R78), DECODE's fields are the word's bits (R102, 30_encoding.md R77), and what the two instructions
answer. -/

namespace Sys2Proof.Machine

/-! ### What the two instructions answer -/

theorem exec_encode (type : BitVec 8) (target source : BitVec 32) (port : BitVec 8) {s : State} (h : s.seq = .idle) :
    exec (.encode type target source port) s
      = .next { s with
          result := .encode (encodeAddress type target source port).1 (encodeAddress type target source port).2 } := by
  simp only [exec, execEncode, whenIdle_idle h, finish_beginOp _ _ h]

theorem exec_decode (id : IdWord) {s : State} (h : s.seq = .idle) :
    exec (.decode id) s = .next { s with result := .decode (decodeAddress id) } := by
  simp only [exec, execDecode, whenIdle_idle h, finish_beginOp _ _ h]

/-! ### The range checks -/

/-- ENCODE's checks fail exactly on operands out of range (40_address_codec.md R105). -/
theorem encodeFails_iff (type : BitVec 8) (target source : BitVec 32) (port : BitVec 8) :
    encodeFails type target source port = true ↔ OutOfRange type target source port := by
  unfold encodeFails OutOfRange
  by_cases unicast : type.toNat = 3
  · simp only [if_pos unicast, Bool.or_eq_true, decide_eq_true_eq]
    omega
  · simp only [if_neg unicast, Bool.or_eq_true, decide_eq_true_eq]
    omega

/-- A port that is at least 0 as a signed byte is that number as an unsigned one. -/
theorem toNat_le_of_port_range {port : BitVec 8} (h0 : 0 ≤ port.toInt) (h1 : port.toInt ≤ 0x1F) : port.toNat ≤ 0x1F := by
  have h := BitVec.toInt_eq_toNat_cond port
  split at h <;> omega

/-- Operands in range fit the fields of a unicast word or those of a group word (30_encoding.md R73, R74). -/
theorem fields_fit_of_not_outOfRange {type : BitVec 8} {target source : BitVec 32} {port : BitVec 8}
    (h : ¬ OutOfRange type target source port) :
    source.toNat < 2 ^ 11
      ∧ ((type.toNat = 3 ∧ target.toNat < 2 ^ 11 ∧ port.toNat < 2 ^ 5) ∨ (type.toNat ≤ 2 ∧ target.toNat < 2 ^ 16)) := by
  unfold OutOfRange at h
  refine ⟨by omega, ?_⟩
  by_cases unicast : type.toNat = 3
  · have hport : port.toNat ≤ 0x1F := toNat_le_of_port_range (by omega) (by omega)
    exact .inl ⟨unicast, by omega, by omega⟩
  · exact .inr ⟨by omega, by omega⟩

/-! ### The assembled word -/

/-- A field put above the bits that are in use is added to them: it and they share no bit. -/
theorem toNat_shiftLeft_or (x y : BitVec 32) (k : Nat) (hx : x.toNat * 2 ^ k < 2 ^ 32) (hy : y.toNat < 2 ^ k) :
    (x <<< k ||| y).toNat = x.toNat * 2 ^ k + y.toNat := by
  rw [BitVec.toNat_or, BitVec.toNat_shiftLeft, Nat.shiftLeft_eq, Nat.mod_eq_of_lt hx, Nat.mul_comm,
    ← Nat.two_pow_add_eq_or_of_lt hy]

/-- The marker and the type over the fields below bit 28, as a sum (30_encoding.md R71, R72). -/
theorem toNat_marker_type_or {type : BitVec 8} {low : BitVec 32} (htype : type.toNat ≤ 3) (hlow : low.toNat < 2 ^ 28) :
    (markerBit ||| (type.setWidth 32 <<< 28 ||| low)).toNat = 0x80000000 + type.toNat * 2 ^ 28 + low.toNat := by
  have hwidth : (type.setWidth 32).toNat = type.toNat := BitVec.toNat_setWidth_of_le (by decide)
  have htyped := toNat_shiftLeft_or (type.setWidth 32) low 28 (by omega) hlow
  rw [show markerBit = 1#32 <<< 31 from rfl, toNat_shiftLeft_or _ _ 31 (by decide) (by omega), htyped, hwidth,
    BitVec.toNat_ofNat]
  omega

theorem assembleWord_of_unicast {type : BitVec 8} (target source : BitVec 32) (port : BitVec 8) (h : type.toNat = 3) :
    assembleWord type target source port
      = markerBit ||| (type.setWidth 32 <<< 28 ||| (port.setWidth 32 <<< 23 ||| (target <<< 11 ||| source))) := by
  unfold assembleWord
  rw [if_pos h]
  simp only [BitVec.or_assoc]
  rw [← BitVec.or_assoc (target <<< 11), BitVec.or_comm (target <<< 11 ||| source)]

theorem assembleWord_of_not_unicast {type : BitVec 8} (target source : BitVec 32) (port : BitVec 8) (h : type.toNat ≠ 3) :
    assembleWord type target source port = markerBit ||| (type.setWidth 32 <<< 28 ||| (target <<< 11 ||| source)) := by
  unfold assembleWord
  rw [if_neg h]
  simp only [BitVec.or_assoc]

/-- Operands in range: the OR of the shifted fields is their sum, no two fields sharing a bit (30_encoding.md R78). -/
theorem assembleWord_eq_addressSum {type : BitVec 8} {target source : BitVec 32} {port : BitVec 8}
    (h : ¬ OutOfRange type target source port) :
    assembleWord type target source port = addressSum type target source port := by
  apply BitVec.eq_of_toNat_eq
  obtain ⟨hsource, ⟨htype, htarget, hport⟩ | ⟨htype, htarget⟩⟩ := fields_fit_of_not_outOfRange h
  · have hlow := toNat_shiftLeft_or target source 11 (by omega) hsource
    have hwidth : (port.setWidth 32).toNat = port.toNat := BitVec.toNat_setWidth_of_le (by decide)
    have hported := toNat_shiftLeft_or (port.setWidth 32) (target <<< 11 ||| source) 23 (by omega) (by omega)
    rw [assembleWord_of_unicast _ _ _ htype, toNat_marker_type_or (by omega) (by omega), addressSum, if_pos htype,
      BitVec.toNat_ofNat]
    omega
  · have hlow := toNat_shiftLeft_or target source 11 (by omega) hsource
    rw [assembleWord_of_not_unicast _ _ _ (by omega), toNat_marker_type_or (by omega) (by omega), addressSum,
      if_neg (by omega), BitVec.toNat_ofNat]
    omega

/-- ENCODE's results on operands out of range: the INVALID word (30_encoding.md R85). -/
theorem encodeAddress_of_outOfRange {type : BitVec 8} {target source : BitVec 32} {port : BitVec 8}
    (h : OutOfRange type target source port) : encodeAddress type target source port = (0#32, false) :=
  if_pos ((encodeFails_iff ..).2 h)

theorem encodeAddress_of_not_outOfRange {type : BitVec 8} {target source : BitVec 32} {port : BitVec 8}
    (h : ¬ OutOfRange type target source port) :
    encodeAddress type target source port = (addressSum type target source port, true) := by
  rw [encodeAddress, if_neg (mt (encodeFails_iff ..).1 h), assembleWord_eq_addressSum h]

/-! ### The fields DECODE extracts -/

/-- A mask of the low `k` bits takes the remainder by `2 ^ k`. -/
theorem toNat_and_lowMask {n : Nat} (x mask : BitVec n) (k : Nat) (h : mask.toNat = 2 ^ k - 1) :
    (x &&& mask).toNat = x.toNat % 2 ^ k := by
  rw [BitVec.toNat_and, h, Nat.and_two_pow_sub_one_eq_mod]

/-- A field of `k` bits at bit `i`, cut out by shift and mask and put in a wide enough result, is zero-extended (30_encoding.md
R77). -/
theorem toNat_field {n : Nat} (x mask : BitVec n) (i k w : Nat) (h : mask.toNat = 2 ^ k - 1) (hw : k ≤ w) :
    (((x >>> i) &&& mask).setWidth w).toNat = x.toNat / 2 ^ i % 2 ^ k := by
  have hfits : x.toNat / 2 ^ i % 2 ^ k < 2 ^ w :=
    (Nat.mod_lt _ (Nat.two_pow_pos k)).trans_le (Nat.pow_le_pow_right (by decide) hw)
  rw [BitVec.toNat_setWidth, toNat_and_lowMask _ _ k h, BitVec.toNat_ushiftRight, Nat.shiftRight_eq_div_pow,
    Nat.mod_eq_of_lt hfits]

theorem msgTypeCode_msgTypeOf (code : BitVec 2) : msgTypeCode (msgTypeOf code) = code := by
  revert code
  decide

theorem decodeAddress_type (id : IdWord) :
    (decodeAddress id).type = msgTypeOf (((id >>> 28) &&& 0x3#32).setWidth 2) := by
  simp only [decodeAddress, apply_ite AddressMeta.type, ite_self]

theorem decodeAddress_source (id : IdWord) : (decodeAddress id).source = (id &&& 0x7FF#32).setWidth 11 := by
  simp only [decodeAddress, apply_ite AddressMeta.source, ite_self]

theorem decodeAddress_of_unicast {id : IdWord} (h : (decodeAddress id).type = .unicast) :
    (decodeAddress id).port = ((id >>> 23) &&& 0x1F#32).setWidth 8
      ∧ (decodeAddress id).target = ((id >>> 11) &&& 0xFFFF#32).setWidth 16 &&& 0x7FF#16 := by
  rw [decodeAddress_type] at h
  simp only [decodeAddress, if_pos h, and_self]

theorem decodeAddress_of_not_unicast {id : IdWord} (h : (decodeAddress id).type ≠ .unicast) :
    (decodeAddress id).port = portAbsent ∧ (decodeAddress id).target = ((id >>> 11) &&& 0xFFFF#32).setWidth 16 := by
  rw [decodeAddress_type] at h
  simp only [decodeAddress, if_neg h, and_self]

theorem toNat_decodeAddress_typeCode (id : IdWord) :
    (msgTypeCode (decodeAddress id).type).toNat = id.toNat / 2 ^ 28 % 4 := by
  rw [decodeAddress_type, msgTypeCode_msgTypeOf]
  exact toNat_field _ _ 28 2 2 rfl le_rfl

theorem toNat_decodeAddress_source (id : IdWord) : (decodeAddress id).source.toNat = id.toNat % 2 ^ 11 := by
  rw [decodeAddress_source, BitVec.toNat_setWidth, toNat_and_lowMask _ _ 11 rfl, Nat.mod_mod]

theorem toNat_decodeAddress_of_unicast {id : IdWord} (h : (decodeAddress id).type = .unicast) :
    (decodeAddress id).port.toNat = id.toNat / 2 ^ 23 % 2 ^ 5
      ∧ (decodeAddress id).target.toNat = id.toNat / 2 ^ 11 % 2 ^ 11 := by
  obtain ⟨hport, htarget⟩ := decodeAddress_of_unicast h
  rw [hport, htarget, toNat_field _ _ 23 5 8 rfl (by decide), toNat_and_lowMask _ _ 11 rfl,
    toNat_field _ _ 11 16 16 rfl le_rfl, Nat.mod_mod_of_dvd _ (by decide)]
  exact ⟨rfl, rfl⟩

theorem decodeAddress_fields_of_not_unicast {id : IdWord} (h : (decodeAddress id).type ≠ .unicast) :
    (decodeAddress id).port = portAbsent ∧ (decodeAddress id).target.toNat = id.toNat / 2 ^ 11 % 2 ^ 16 := by
  obtain ⟨hport, htarget⟩ := decodeAddress_of_not_unicast h
  exact ⟨hport, by rw [htarget, toNat_field _ _ 11 16 16 rfl le_rfl]⟩

/-! ### The obligations -/

/-- Settles O5: the range checks are R105's, and inside the ranges the assembled word is the sum of its fields. -/
theorem encodeResult : Obligations.EncodeResult := by
  refine ⟨fun _ => rfl, fun type target source port s hidle => ⟨fun hout => ?_, fun hin => ?_⟩⟩
  · rw [exec_encode _ _ _ _ hidle, encodeAddress_of_outOfRange hout]
  · rw [exec_encode _ _ _ _ hidle, encodeAddress_of_not_outOfRange hin]

/-- Settles O6: every field DECODE answers is a shift and a mask of the word. -/
theorem decodeResult : Obligations.DecodeResult :=
  ⟨fun _ => rfl, fun id _ hidle =>
    ⟨decodeAddress id, exec_decode id hidle, toNat_decodeAddress_typeCode id, toNat_decodeAddress_source id,
      toNat_decodeAddress_of_unicast, decodeAddress_fields_of_not_unicast⟩⟩

end Sys2Proof.Machine
end

section
/-! PROOFS. DuplicateFilter (spec/41_duplicate_filter.md): what DF_CHECK answers as a command, when it completes (R120), and what the
record it has just written decides about the same frame (R123). -/

namespace Sys2Proof.Machine

/-! ### What the command answers -/

/-- What DF_CHECK as a command does, its clock read being `now s` (41_duplicate_filter.md R120, R124, R125). -/
structure DfChecked (id : IdWord) (length : LenField) (payload : Payload) (s t : State) (accept : Bool) : Prop where
  result : t.result = .dfCheck accept
  calls : CallsMade s t [.now (now s).1]
  clock : t.env.clock = (now s).1
  ground : accept = true ↔ AcceptGround s.cfg s.blk (now s).1 id length payload
  regs : SameRegisters (checkedBlock accept s.blk (now s).1 id length payload) t.blk
  flag : FlagKept s t
  outside : OutsideKept s t
  pins : PinsKept s t

theorem dfChecked_of_dfCheckOp {id : IdWord} {length : LenField} {payload : Payload} {s : State} {r : Bool × State}
    (h : dfCheckOp id length payload (beginOp 0x3#4 s) = .ok r) :
    DfChecked id length payload s (finish (.dfCheck r.1) r.2) r.1 := by
  obtain ⟨hran, hregs, hflag, hpins, -, henv, hground⟩ := dfCheckOp_spec h
  rw [now_beginOp] at hran hregs hground
  obtain ⟨houtside, hcalls⟩ := hran.finished (.dfCheck r.1)
  have hclock : r.2.env.clock = (now s).1 := by rw [henv, now_clock, now_beginOp]
  exact ⟨rfl, hcalls, hclock, hground, hregs, hflag (beginOp_busy _ _), houtside, hpins⟩

theorem exec_dfCheck_of_ok {id : IdWord} {length : LenField} {payload : Payload} {s : State} {r : Bool × State}
    (hidle : s.seq = .idle) (hlength : length.toNat ≤ 8) (h : dfCheckOp id length payload (beginOp 0x3#4 s) = .ok r) :
    exec (.dfCheck id length payload) s = .next (finish (.dfCheck r.1) r.2) := by
  have hcontract : lengthInContract length = true := decide_eq_true hlength
  simp only [exec, execDfCheck, whenIdle_idle hidle, if_pos hcontract, h]
  rfl

/-- DF_CHECK completes when the record is not from after the clock (00_scope.md R13). -/
theorem exec_dfCheck_completes {id : IdWord} {length : LenField} {payload : Payload} {s : State} (hidle : s.seq = .idle)
    (hlength : length.toNat ≤ 8) (htime : s.blk.dfTime.toNat ≤ s.env.clock.toNat) :
    ∃ t accept, exec (.dfCheck id length payload) s = .next t ∧ DfChecked id length payload s t accept := by
  obtain ⟨r, hr⟩ := dfCheckOp_ok (s := beginOp 0x3#4 s) htime id length payload
  exact ⟨_, _, exec_dfCheck_of_ok hidle hlength hr, dfChecked_of_dfCheckOp hr⟩

/-- A DF_CHECK that answers was given a length in contract, and did what DF_CHECK does. -/
theorem exec_dfCheck_next {id : IdWord} {length : LenField} {payload : Payload} {s t : State}
    (h : exec (.dfCheck id length payload) s = .next t) :
    length.toNat ≤ 8 ∧ ∃ accept, DfChecked id length payload s t accept := by
  simp only [exec, execDfCheck] at h
  obtain ⟨-, h⟩ := whenIdle_next h
  split at h
  · next hcontract =>
    obtain ⟨r, hr, rfl⟩ := map_ok (outcomeOf_next h)
    exact ⟨of_decide_eq_true hcontract, r.1, dfChecked_of_dfCheckOp hr⟩
  · cases h

/-! ### The record -/

theorem overwriteRecord_holds (b : Block) (n : Time) (id : IdWord) (length : LenField) (payload : Payload) :
    RecordHolds (overwriteRecord b n id length payload) n id length payload :=
  ⟨rfl, rfl, rfl, fun i hi => (overlay_getElem _ _ _ i.val i.isLt).trans (if_pos hi)⟩

/-- The record is none of the registers the environment may write. -/
theorem RecordHolds.of_sameRegisters {b c : Block} {n : Time} {id : IdWord} {length : LenField} {payload : Payload}
    (h : RecordHolds b n id length payload) (hbc : SameRegisters b c) : RecordHolds c n id length payload := by
  rw [hbc]
  exact h

theorem SameRegisters.sameButRecord_of_overwriteRecord {b c : Block} {n : Time} {id : IdWord} {length : LenField}
    {payload : Payload} (h : SameRegisters (overwriteRecord b n id length payload) c) : SameButRecord b c := by
  rw [h]
  rfl

theorem DfChecked.recordHolds {id : IdWord} {length : LenField} {payload : Payload} {s t : State}
    (h : DfChecked id length payload s t true) : RecordHolds t.blk (now s).1 id length payload :=
  (overwriteRecord_holds ..).of_sameRegisters h.regs

/-- A frame the record holds differs from it in its time alone (41_duplicate_filter.md R120, R123). -/
theorem RecordHolds.acceptGround_iff {cfg : Cfg} {b : Block} {m : Time} {id : IdWord} {length : LenField} {payload : Payload}
    (h : RecordHolds b m id length payload) (hfilter : cfg.dupFilterEnabled = true) (n : Time) :
    AcceptGround cfg b n id length payload ↔ n.toNat - b.dfTime.toNat > cfg.dupWindowMs.toNat := by
  obtain ⟨hid, hlength, -, hbytes⟩ := h
  constructor
  · rintro (hoff | hne | hne | hwindow | ⟨i, hi, hne⟩)
    · exact absurd hfilter (by simp [hoff])
    · exact absurd hid.symm hne
    · exact absurd hlength.symm hne
    · exact hwindow
    · exact absurd (hbytes i hi).symm hne
  · exact fun hwindow => .inr (.inr (.inr (.inl hwindow)))

/-! ### The obligations -/

/-- Settles O12: DF_CHECK reads the clock, which is not before the record's time, and decides on its five grounds. -/
theorem dfCheckResult : Obligations.DfCheckResult := by
  refine ⟨fun _ => rfl, fun id length payload s hidle hlength htime => ?_⟩
  obtain ⟨t, accept, hexec, hdone⟩ := exec_dfCheck_completes (id := id) (payload := payload) hidle hlength htime
  refine ⟨t, accept, (now s).1, hexec, hdone.result, hdone.calls, le_now s, hdone.ground, ?_, ?_, hdone.flag, hdone.outside,
    hdone.pins⟩
  · rintro rfl
    exact ⟨hdone.recordHolds, hdone.regs.sameButRecord_of_overwriteRecord⟩
  · rintro rfl
    exact hdone.regs

/-- Settles O15: the repeat is checked against the record its first check wrote, which only the time since can tell from it. -/
theorem repeatAcceptedAfterWindowOnly : Obligations.RepeatAcceptedAfterWindowOnly := by
  intro id length payload s t hfirst hresult hfilter
  obtain ⟨hlength, accept, hdone⟩ := exec_dfCheck_next hfirst
  obtain rfl : accept = true := OpResult.dfCheck.inj (hdone.result.symm.trans hresult)
  obtain ⟨-, -, hstamp, -⟩ := hdone.recordHolds
  have htime : t.blk.dfTime = t.env.clock := hstamp.trans hdone.clock.symm
  obtain ⟨u, again, n, hexec, huresult, hcalls, hclock, hground, -, hreject, -⟩ :=
    dfCheckResult.2 id length payload t hdone.outside.seq hlength (by rw [htime])
  rw [hdone.recordHolds.acceptGround_iff (hdone.outside.cfg ▸ hfilter), hdone.outside.cfg] at hground
  refine ⟨u, n, hexec, hcalls, by rwa [htime], ?_, fun hwithin => ?_⟩
  · rw [huresult, Bool.eq_iff_iff.2 (hground.trans decide_eq_true_iff.symm)]
  · have hrejected : again = false := Bool.eq_false_iff.2 fun hagain => absurd (hground.1 hagain) (Nat.not_lt.2 hwithin)
    rw [hreject hrejected]

end Sys2Proof.Machine
end

section
/-! PROOFS. PowerController (spec/42_power_controller.md): what WAKE (R138) and IS_SLEEPING (R140) answer as commands, and what their
calls do to the mode and to the standby pin. -/

namespace Sys2Proof.Machine

/-! ### What the two commands answer -/

theorem exec_wake {s : State} (h : s.seq = .idle) :
    exec .wake s = .next (finish (.wake (wakeOp (beginOp 0x5#4 s)).1) (wakeOp (beginOp 0x5#4 s)).2) := by
  simp only [exec, execWake, whenIdle_idle h]

theorem exec_isSleeping {s : State} (h : s.seq = .idle) :
    exec .isSleeping s
      = .next (finish (.isSleeping (isSleepingOp (beginOp 0x6#4 s)).1) (isSleepingOp (beginOp 0x6#4 s)).2) := by
  simp only [exec, execIsSleeping, whenIdle_idle h]

/-! ### The standby pin -/

theorem digitalWrite_mem_pinCalls {b : Block} {l level : Bool} {space : PinSpace} {p : PinNum} :
    .digitalWrite space p level ∈ pinCalls b l ↔ standbyPin b = some (space, p) ∧ level = l := by
  unfold pinCalls
  split
  · next hnone => simp [hnone]
  · next hsome => simp [hsome, eq_comm, and_assoc]

/-- Calls that write no pin before `DrivePin` leave its write the only one (42_power_controller.md R135). -/
theorem PinsFollow.pinsDriven {e : Env} {t : State} {calls : List Call} {b : Block} {l : Bool}
    (h : PinsFollow e t.env (calls ++ pinCalls b l)) (hcalls : ∀ space p level, .digitalWrite space p level ∉ calls) :
    PinsDriven t (calls ++ pinCalls b l) := by
  intro space p level hmem
  have hwrite := (List.mem_append.1 hmem).resolve_left (hcalls space p level)
  obtain ⟨hpin, rfl⟩ := digitalWrite_mem_pinCalls.1 hwrite
  rw [pinLevel, h space p, pinAfterCalls_append, pinAfterCalls_pinCalls hpin]

/-! ### The calls of WAKE -/

/-- WAKE leaves the peripheral Awake when `P.wake` answered OK, and as it was when it failed (60_exceptions.md R205). -/
theorem WakeCalls.modeAfterCalls {cfg : Cfg} {b : Block} {n : Time} {r : Result} {calls : List Call}
    (h : WakeCalls cfg b n r calls) (m : Mode) : modeAfterCalls m calls = if r = .ok then .awake else m := by
  rw [h, modeAfterCalls_append]
  cases r with
  | ok => exact modeAfterCalls_pinCalls ..
  | fail => rfl

theorem WakeCalls.pinsDriven {cfg : Cfg} {b : Block} {n : Time} {r : Result} {calls : List Call} {e : Env} {t : State}
    (h : WakeCalls cfg b n r calls) (hpins : PinsFollow e t.env calls) : PinsDriven t calls := by
  subst h
  cases r with
  | ok => exact hpins.pinsDriven (by simp)
  | fail => simp [PinsDriven]

/-! ### The obligations -/

/-- Settles O17: WAKE's calls tell the mode and the pins it leaves, its timestamp is the clock its first call read. -/
theorem wakeResult : Obligations.WakeResult := by
  refine ⟨fun _ => rfl, fun s hidle => ?_⟩
  obtain ⟨calls, hcalls, hwoke⟩ := wakeOp_spec (beginOp 0x5#4 s)
  rw [now_beginOp] at hcalls hwoke
  obtain ⟨houtside, hmade⟩ := hwoke.ran.finished (.wake (wakeOp (beginOp 0x5#4 s)).1)
  have htracked := hwoke.ran.tracked
  have hmode := hcalls.modeAfterCalls s.env.mode
  refine ⟨_, _, (now s).1, calls, exec_wake hidle, rfl, le_now s, hmade, hcalls, hwoke.regs, hwoke.flag (beginOp_busy _ _),
    houtside, hwoke.pins, hcalls.pinsDriven htracked.pins, fun hok => ?_, fun hawake => ?_, fun hquiet => ?_⟩
  · exact htracked.awake (hmode.trans (if_pos hok))
  · exact htracked.awake (hmode.trans (by rw [hawake, ite_self]))
  · exact (htracked.mode (hquiet.mono (Nat.le_succ _))).trans hmode

/-- Settles O18: the one call is answered the mode as its turn left it, and the call itself moves nothing. -/
theorem isSleepingResult : Obligations.IsSleepingResult := by
  refine ⟨fun _ => rfl, fun s hidle => ?_⟩
  have hplain := isSleepingOp_plain (beginOp 0x6#4 s)
  obtain ⟨houtside, hmade⟩ := hplain.ran.finished (.isSleeping (isSleepingOp (beginOp 0x6#4 s)).1)
  obtain ⟨hawake, hquiet⟩ := hplain.ran.tracked.answers 0 _ rfl
  refine ⟨_, (isSleepingOp (beginOp 0x6#4 s)).2.env.mode, exec_isSleeping hidle, ?_, fun hsleeping => ?_, hquiet, id,
    fun _ => rfl, hmade, hplain.regs, hplain.flag (beginOp_busy _ _), houtside, hplain.pins⟩
  · rw [finish_result, isSleepingOp_answer]
  · by_contra hmode
    exact Mode.noConfusion ((hawake (mode_ne_sleeping hmode)).symm.trans hsleeping)

end Sys2Proof.Machine
end

section
/-! PROOFS. The encodings (spec/30_encoding.md): decoding inverts encoding on both sides, and the reserved codes are refused. -/

namespace Sys2Proof

open Machine

/-- A group format word is put together from the fields cut out of it (30_encoding.md R74). -/
theorem groupWord_extract (w : IdWord) :
    groupWord (w.extractLsb' 28 2) (w.extractLsb' 31 1) (w.extractLsb' 30 1) (w.extractLsb' 27 1) (w.extractLsb' 11 16)
      (w.extractLsb' 0 11) = w := by
  apply BitVec.eq_of_getLsbD_eq
  intro i hi
  rw [groupWord_getLsbD]
  simp only [BitVec.getLsbD_extractLsb']
  repeat' split
  all_goals (rw [decide_eq_true (by omega), Bool.true_and]; congr 1; omega)

/-- The same of a word of the unicast type (30_encoding.md R73). -/
theorem unicastWord_extract {w : IdWord} (h : w.extractLsb' 28 2 = 3#2) :
    unicastWord (w.extractLsb' 31 1) (w.extractLsb' 30 1) (w.extractLsb' 23 5) (w.extractLsb' 22 1) (w.extractLsb' 11 11)
      (w.extractLsb' 0 11) = w := by
  apply BitVec.eq_of_getLsbD_eq
  intro i hi
  rw [unicastWord_getLsbD, ← h]
  simp only [BitVec.getLsbD_extractLsb']
  repeat' split
  all_goals (rw [decide_eq_true (by omega), Bool.true_and]; congr 1; omega)

theorem decodeIdWord_groupWord (m z y : BitVec 1) (g : BitVec 16) (s : BitVec 11) :
    decodeIdWord (groupWord 0#2 m z y g s) = .idBroadcast m z y g s
      ∧ decodeIdWord (groupWord 1#2 m z y g s) = .idMulticast m z y g s
      ∧ decodeIdWord (groupWord 2#2 m z y g s) = .idReserved m z y g s := by
  refine ⟨?_, ?_, ?_⟩ <;> simp [decodeIdWord, groupWord_fields]

theorem decodeIdWord_unicastWord (m z : BitVec 1) (p : BitVec 5) (y : BitVec 1) (g s : BitVec 11) :
    decodeIdWord (unicastWord m z p y g s) = .idUnicast m z p y g s := by
  simp [decodeIdWord, unicastWord_fields]

/-! ### The obligations -/

/-- Settles O1: a command's code selects its own row, and an identifier word's fields are where the decoder cuts them out. -/
theorem decodeEncodeGivesInstruction : Obligations.DecodeEncodeGivesInstruction := by
  intro i
  cases i with
  | idBroadcast m z y g s => exact congrArg _ (decodeIdWord_groupWord m z y g s).1
  | idMulticast m z y g s => exact congrArg _ (decodeIdWord_groupWord m z y g s).2.1
  | idReserved m z y g s => exact congrArg _ (decodeIdWord_groupWord m z y g s).2.2
  | idUnicast m z p y g s => exact congrArg _ (decodeIdWord_unicastWord m z p y g s)
  | _ => rfl

/-- Settles O2: the type bits choose the format, whose fields put together are the word. -/
theorem idWordDecodingLosesNoBit : Obligations.IdWordDecodingLosesNoBit := by
  intro w
  have hgroup := groupWord_extract w
  unfold decodeIdWord
  split
  · next h => rw [BitVec.eq_of_toNat_eq (y := 0#2) h] at hgroup; exact congrArg _ hgroup
  · next h => rw [BitVec.eq_of_toNat_eq (y := 1#2) h] at hgroup; exact congrArg _ hgroup
  · next h => rw [BitVec.eq_of_toNat_eq (y := 2#2) h] at hgroup; exact congrArg _ hgroup
  · next h0 h1 h2 =>
    refine congrArg _ (unicastWord_extract (BitVec.eq_of_toNat_eq ?_))
    have := (w.extractLsb' 28 2).isLt
    change _ = 3
    simp only [imp_false] at h0 h1 h2
    omega

theorem decodeCommand_of_reserved {op : BitVec 4} (h : op.toNat = 0 ∨ 0xC ≤ op.toNat) (p : Ports) :
    decodeCommand op p = .error (.reservedCode op) := by
  unfold decodeCommand
  split
  case h_12 => rfl
  all_goals omega

theorem decodeCommand_of_not_reserved {op : BitVec 4} (hlow : 1 ≤ op.toNat) (hhigh : op.toNat ≤ 0xB) (p : Ports) :
    ∃ i, decodeCommand op p = .ok i := by
  unfold decodeCommand
  split
  case h_12 => exfalso; simp only [imp_false] at *; omega
  all_goals exact ⟨_, rfl⟩

/-- Settles O3: the decoder's table has no row for a reserved code, and one for every other. -/
theorem reservedCodesRefused : Obligations.ReservedCodesRefused := by
  refine ⟨fun op p s hop hp => ?_, fun op p hlow hhigh => decodeCommand_of_not_reserved hlow hhigh p⟩
  have hitem : (beginStep s).presented = some (.present (.command op p)) := by simp [beginStep, hp]
  simp [step, hitem, runItem, decode, decodeCommand_of_reserved hop]

/-- Settles O4: the words are read off by evaluation. -/
theorem opcodeTableWordsDecode : Obligations.OpcodeTableWordsDecode := by
  unfold Obligations.OpcodeTableWordsDecode
  decide

end Sys2Proof
end

section
/-! PROOFS. AddressCodec again (spec/40_address_codec.md): DECODE in terms of the word's fields, which bits it reads (R103), the two
round trips with ENCODE (R104, R106), and the identifier formats, which read a word as DECODE does. -/

namespace Sys2Proof.Machine

/-! ### DECODE by the word's fields -/

theorem msgTypeOf_eq_unicast_iff (code : BitVec 2) : msgTypeOf code = .unicast ↔ code = 3#2 := by
  revert code
  decide

theorem toNat_extractLsb' {n : Nat} (x : BitVec n) (i k : Nat) : (x.extractLsb' i k).toNat = x.toNat / 2 ^ i % 2 ^ k := by
  rw [BitVec.extractLsb'_toNat, Nat.shiftRight_eq_div_pow]

theorem toNat_extractLsb'_setWidth {n i k w : Nat} (x : BitVec n) (h : k ≤ w) :
    ((x.extractLsb' i k).setWidth w).toNat = x.toNat / 2 ^ i % 2 ^ k := by
  rw [BitVec.toNat_setWidth_of_le h, toNat_extractLsb']

theorem addressMeta_eq {a b : AddressMeta} (htype : a.type = b.type) (htarget : a.target.toNat = b.target.toNat)
    (hsource : a.source.toNat = b.source.toNat) (hport : a.port.toNat = b.port.toNat) : a = b := by
  cases a
  cases b
  simp_all [BitVec.toNat_inj]

theorem decodeAddress_type_eq (id : IdWord) : (decodeAddress id).type = msgTypeOf (id.extractLsb' 28 2) := by
  rw [decodeAddress_type]
  congr 1
  apply BitVec.eq_of_toNat_eq
  rw [toNat_field _ _ 28 2 2 rfl le_rfl, toNat_extractLsb']

theorem decodeAddress_source_eq (id : IdWord) : (decodeAddress id).source = id.extractLsb' 0 11 := by
  apply BitVec.eq_of_toNat_eq
  rw [toNat_decodeAddress_source, toNat_extractLsb', Nat.pow_zero, Nat.div_one]

/-- DECODE reads a word of the unicast type as the unicast format (40_address_codec.md R102; 30_encoding.md R73). -/
theorem decodeAddress_eq_unicastAddress {id : IdWord} (h : id.extractLsb' 28 2 = 3#2) :
    decodeAddress id = unicastAddress (id.extractLsb' 23 5) (id.extractLsb' 11 11) (id.extractLsb' 0 11) := by
  have htype : (decodeAddress id).type = .unicast := by rw [decodeAddress_type_eq, h]; rfl
  obtain ⟨hport, htarget⟩ := toNat_decodeAddress_of_unicast htype
  refine addressMeta_eq htype ?_ (congrArg _ (decodeAddress_source_eq id)) ?_
  · exact htarget.trans (toNat_extractLsb'_setWidth id (by decide)).symm
  · exact hport.trans (toNat_extractLsb'_setWidth id (by decide)).symm

/-- DECODE reads a word of another type as the group format (40_address_codec.md R102; 30_encoding.md R74). -/
theorem decodeAddress_eq_groupAddress {id : IdWord} (h : id.extractLsb' 28 2 ≠ 3#2) :
    decodeAddress id
      = groupAddress (msgTypeOf (id.extractLsb' 28 2)) (id.extractLsb' 11 16) (id.extractLsb' 0 11) := by
  have htype : (decodeAddress id).type ≠ .unicast := by rwa [decodeAddress_type_eq, ne_eq, msgTypeOf_eq_unicast_iff]
  obtain ⟨hport, htarget⟩ := decodeAddress_fields_of_not_unicast htype
  refine addressMeta_eq (decodeAddress_type_eq id) ?_ (congrArg _ (decodeAddress_source_eq id)) (congrArg _ hport)
  exact htarget.trans (toNat_extractLsb' id 11 16).symm

theorem decodeAddress_unicastWord (m z : BitVec 1) (p : BitVec 5) (y : BitVec 1) (g s : BitVec 11) :
    decodeAddress (unicastWord m z p y g s) = unicastAddress p g s := by
  obtain ⟨htype, -, -, hport, -, htarget, hsource⟩ := unicastWord_fields m z p y g s
  rw [decodeAddress_eq_unicastAddress htype, hport, htarget, hsource]

theorem decodeAddress_groupWord {t : BitVec 2} (h : t ≠ 3#2) (m z y : BitVec 1) (g : BitVec 16) (s : BitVec 11) :
    decodeAddress (groupWord t m z y g s) = groupAddress (msgTypeOf t) g s := by
  obtain ⟨htype, -, -, -, htarget, hsource⟩ := groupWord_fields t m z y g s
  rw [decodeAddress_eq_groupAddress (by rwa [htype]), htype, htarget, hsource]

/-! ### The bits DECODE does not read -/

/-- Flipping no bit of a field leaves the field. -/
theorem extractLsb'_xor_of_masked {n i k : Nat} {x mask : BitVec n} (id : BitVec n) (h : x &&& mask = 0#n)
    (hmask : mask.extractLsb' i k = BitVec.allOnes k) : (id ^^^ x).extractLsb' i k = id.extractLsb' i k := by
  have hx : x.extractLsb' i k = 0#k := by
    have := congrArg (BitVec.extractLsb' i k) h
    rwa [BitVec.extractLsb'_and, hmask, BitVec.and_allOnes, BitVec.extractLsb'_zero] at this
  rw [BitVec.extractLsb'_xor, hx, BitVec.xor_zero]

theorem decodeAddress_xor_of_unused {id x : IdWord}
    (h : x &&& (if id.extractLsb' 28 2 = 3#2 then 0x3FBFFFFF#32 else 0x37FFFFFF#32) = 0#32) :
    decodeAddress (id ^^^ x) = decodeAddress id := by
  split at h
  · next hu =>
    have htype := extractLsb'_xor_of_masked (i := 28) (k := 2) id h (by decide)
    rw [decodeAddress_eq_unicastAddress hu, decodeAddress_eq_unicastAddress (htype.trans hu),
      extractLsb'_xor_of_masked id h (by decide), extractLsb'_xor_of_masked id h (by decide),
      extractLsb'_xor_of_masked id h (by decide)]
  · next hg =>
    have htype := extractLsb'_xor_of_masked (i := 28) (k := 2) id h (by decide)
    rw [decodeAddress_eq_groupAddress hg, decodeAddress_eq_groupAddress (htype ▸ hg), htype,
      extractLsb'_xor_of_masked id h (by decide), extractLsb'_xor_of_masked id h (by decide)]

/-! ### The word ENCODE assembles of what DECODE read -/

/-- DECODE's results are in ENCODE's ranges, or have no port where none is read (40_address_codec.md R103 (f)). -/
theorem decodeAddress_range (id : IdWord) :
    (decodeAddress id).source.toNat ≤ 0x7FF
      ∧ ((decodeAddress id).type = .unicast → (decodeAddress id).target.toNat ≤ 0x7FF ∧ 0 ≤ (decodeAddress id).port.toInt
          ∧ (decodeAddress id).port.toInt ≤ 0x1F)
      ∧ ((decodeAddress id).type ≠ .unicast → (decodeAddress id).target.toNat ≤ 0xFFFF
          ∧ (decodeAddress id).port.toInt = -1) := by
  refine ⟨by have := (decodeAddress id).source.isLt; omega, fun hu => ?_, fun hg => ?_⟩
  · obtain ⟨hport, htarget⟩ := toNat_decodeAddress_of_unicast hu
    have hint := BitVec.toInt_eq_toNat_cond (decodeAddress id).port
    rw [if_pos (by omega)] at hint
    omega
  · obtain ⟨hport, -⟩ := decodeAddress_fields_of_not_unicast hg
    exact ⟨by have := (decodeAddress id).target.isLt; omega, by rw [hport]; decide⟩

/-- The operands ENCODE is given to put back together what DECODE read are in range (40_address_codec.md R106). -/
theorem decodeAddress_not_outOfRange (id : IdWord) :
    ¬ OutOfRange ((msgTypeCode (decodeAddress id).type).setWidth 8) ((decodeAddress id).target.setWidth 32)
      ((decodeAddress id).source.setWidth 32) (decodeAddress id).port := by
  obtain ⟨hsource, hunicast, hgroup⟩ := decodeAddress_range id
  unfold OutOfRange
  rw [BitVec.toNat_setWidth_of_le (by decide), BitVec.toNat_setWidth_of_le (by decide), BitVec.toNat_setWidth_of_le (by decide)]
  cases htype : (decodeAddress id).type with
  | unicast =>
    obtain ⟨h1, h2, h3⟩ := hunicast htype
    simp only [msgTypeCode, BitVec.toNat_ofNat]
    omega
  | broadcast | multicast | reserved =>
    obtain ⟨h1, -⟩ := hgroup (by simp [htype])
    simp only [msgTypeCode, BitVec.toNat_ofNat]
    omega

/-- Setting the marker and clearing the unused bits of a unicast word keeps its fields (40_address_codec.md R106). -/
theorem withUnusedCleared_of_unicast {id : IdWord} (h : id.extractLsb' 28 2 = 3#2) :
    withUnusedCleared id
      = unicastWord 1#1 0#1 (id.extractLsb' 23 5) 0#1 (id.extractLsb' 11 11) (id.extractLsb' 0 11) := by
  rw [withUnusedCleared, if_pos h]
  apply BitVec.eq_of_getLsbD_eq
  intro i hi
  rw [unicastWord_getLsbD, ← h]
  simp only [BitVec.getLsbD_and, BitVec.getLsbD_or, BitVec.getLsbD_extractLsb']
  interval_cases i <;> simp

theorem withUnusedCleared_of_group {id : IdWord} (h : id.extractLsb' 28 2 ≠ 3#2) :
    withUnusedCleared id
      = groupWord (id.extractLsb' 28 2) 1#1 0#1 0#1 (id.extractLsb' 11 16) (id.extractLsb' 0 11) := by
  rw [withUnusedCleared, if_neg h]
  apply BitVec.eq_of_getLsbD_eq
  intro i hi
  rw [groupWord_getLsbD]
  simp only [BitVec.getLsbD_and, BitVec.getLsbD_or, BitVec.getLsbD_extractLsb']
  interval_cases i <;> simp

/-- ENCODE puts unicast fields where the unicast format has them (30_encoding.md R73, R78). -/
theorem assembleWord_eq_unicastWord (p : BitVec 5) (g s : BitVec 11) :
    assembleWord 3#8 ((g.setWidth 16).setWidth 32) (s.setWidth 32) (p.setWidth 8) = unicastWord 1#1 0#1 p 0#1 g s := by
  rw [assembleWord_of_unicast _ _ _ rfl]
  apply BitVec.eq_of_getLsbD_eq
  intro i hi
  rw [unicastWord_getLsbD, markerBit]
  simp only [BitVec.getLsbD_or, BitVec.getLsbD_shiftLeft, BitVec.getLsbD_setWidth]
  interval_cases i <;> simp

/-- ENCODE puts the fields of another type where the group format has them (30_encoding.md R74, R78). -/
theorem assembleWord_eq_groupWord {t : BitVec 2} (h : t ≠ 3#2) (g : BitVec 16) (s : BitVec 11) (port : BitVec 8) :
    assembleWord (t.setWidth 8) (g.setWidth 32) (s.setWidth 32) port = groupWord t 1#1 0#1 0#1 g s := by
  have hne : (t.setWidth 8).toNat ≠ 3 := by
    rw [BitVec.toNat_setWidth_of_le (by decide)]
    exact fun h3 => h (BitVec.eq_of_toNat_eq h3)
  rw [assembleWord_of_not_unicast _ _ _ hne]
  apply BitVec.eq_of_getLsbD_eq
  intro i hi
  rw [groupWord_getLsbD, markerBit]
  simp only [BitVec.getLsbD_or, BitVec.getLsbD_shiftLeft, BitVec.getLsbD_setWidth]
  interval_cases i <;> simp

theorem assembleWord_decodeAddress (id : IdWord) :
    assembleWord ((msgTypeCode (decodeAddress id).type).setWidth 8) ((decodeAddress id).target.setWidth 32)
      ((decodeAddress id).source.setWidth 32) (decodeAddress id).port = withUnusedCleared id := by
  by_cases h : id.extractLsb' 28 2 = 3#2
  · rw [withUnusedCleared_of_unicast h, decodeAddress_eq_unicastAddress h]
    exact assembleWord_eq_unicastWord _ _ _
  · rw [withUnusedCleared_of_group h, decodeAddress_eq_groupAddress h]
    simp only [groupAddress, msgTypeCode_msgTypeOf]
    exact assembleWord_eq_groupWord h _ _ _

/-! ### What DECODE reads of the word ENCODE assembled -/

theorem decodeAddress_type_unicast_iff (id : IdWord) :
    (decodeAddress id).type = .unicast ↔ id.toNat / 2 ^ 28 % 4 = 3 := by
  rw [decodeAddress_type_eq, msgTypeOf_eq_unicast_iff, ← BitVec.toNat_inj, toNat_extractLsb']
  rfl

/-- DECODE of the sum ENCODE forms of operands in range gives them back, the port for unicast only (40_address_codec.md R104). -/
theorem decodeAddress_of_addressSum {type : BitVec 8} {target source : BitVec 32} {port : BitVec 8} {w : IdWord}
    (h : ¬ OutOfRange type target source port) (hw : addressSum type target source port = w) :
    (msgTypeCode (decodeAddress w).type).toNat = type.toNat ∧ (decodeAddress w).target.toNat = target.toNat
      ∧ (decodeAddress w).source.toNat = source.toNat
      ∧ (decodeAddress w).port = if type.toNat = 3 then port else portAbsent := by
  have hcode := toNat_decodeAddress_typeCode w
  have hsource := toNat_decodeAddress_source w
  have hiff := decodeAddress_type_unicast_iff w
  have hsum := congrArg BitVec.toNat hw.symm
  rw [addressSum, BitVec.toNat_ofNat] at hsum
  obtain ⟨hs, ⟨ht, hg, hp⟩ | ⟨ht, hg⟩⟩ := fields_fit_of_not_outOfRange h
  · rw [if_pos ht] at hsum ⊢
    obtain ⟨hport, htarget⟩ := toNat_decodeAddress_of_unicast (hiff.2 (by omega))
    exact ⟨by omega, by omega, by omega, BitVec.eq_of_toNat_eq (by omega)⟩
  · rw [if_neg (by omega)] at hsum ⊢
    obtain ⟨hport, htarget⟩ := decodeAddress_fields_of_not_unicast (mt hiff.1 (by omega))
    exact ⟨by omega, by omega, by omega, hport⟩

/-! ### The identifier formats -/

/-- The four formats answer what DECODE answers of the word their fields make up (log 15). -/
theorem exec_idFormat (op : BitVec 4) (id : IdWord) {m : AddressMeta} (hm : decodeAddress id = m) {s : State} (h : s.seq = .idle) :
    whenIdle op s (fun s => .next (finish (.decode m) s)) = .next { s with result := .decode m }
      ∧ whenIdle op s (fun s => .next (finish (.decode m) s)) = exec (.decode id) s := by
  rw [exec_decode id h, hm, whenIdle_idle h, finish_beginOp _ _ h]
  exact ⟨rfl, rfl⟩

/-! ### The obligations -/

/-- Settles O7: every field DECODE reads is outside the bits flipped. -/
theorem decodeIgnoresUnusedBits : Obligations.DecodeIgnoresUnusedBits := by
  intro id x s hunused
  simp only [exec, execDecode, decodeAddress_xor_of_unused hunused]

/-- Settles O8: the widths of the fields bound them. -/
theorem decodeKeepsAddressInvariant : Obligations.DecodeKeepsAddressInvariant :=
  fun id _ hidle => ⟨decodeAddress id, exec_decode id hidle, decodeAddress_range id⟩

/-- Settles O9: the fields of the sum ENCODE forms are its operands. -/
theorem encodeThenDecodeGivesOperands : Obligations.EncodeThenDecodeGivesOperands := by
  intro type target source port s t w hexec hresult
  have hidle := exec_idle hexec
  obtain ⟨hout, hin⟩ := encodeResult.2 type target source port s hidle
  by_cases h : OutOfRange type target source port
  · rw [hout h] at hexec
    cases hexec
    cases hresult
  · rw [hin h] at hexec
    cases hexec
    cases hresult
    exact ⟨_, _, exec_decode _ hidle, rfl, decodeAddress_of_addressSum h rfl⟩

/-- Settles O10: DECODE's results are in range, and the word assembled of them is the word read but for the bits it does not read. -/
theorem reencodeSetsMarkerClearsUnused : Obligations.ReencodeSetsMarkerClearsUnused := by
  intro id s t m hexec hresult
  have hidle := exec_idle hexec
  rw [exec_decode id hidle] at hexec
  cases hexec
  cases hresult
  have hin := decodeAddress_not_outOfRange id
  rw [← assembleWord_decodeAddress, assembleWord_eq_addressSum hin]
  exact (encodeResult.2 _ _ _ _ _ hidle).2 hin

/-- Settles O11: each format's fields are where DECODE looks for them. -/
theorem identifierFormatsReadAsDecode : Obligations.IdentifierFormatsReadAsDecode :=
  ⟨fun m z30 z27 target source _ hidle =>
    ⟨exec_idFormat _ _ (decodeAddress_groupWord (t := 0) (by decide) m z30 z27 target source) hidle,
      exec_idFormat _ _ (decodeAddress_groupWord (t := 1) (by decide) m z30 z27 target source) hidle,
      exec_idFormat _ _ (decodeAddress_groupWord (t := 2) (by decide) m z30 z27 target source) hidle⟩,
  fun m z30 port z22 target source _ hidle =>
    exec_idFormat _ _ (decodeAddress_unicastWord m z30 port z22 target source) hidle⟩

end Sys2Proof.Machine
end

section
/-! PROOFS. The environment's turn (spec/60_exceptions.md sections 2, 7 and 9): what one of its steps does, wherever it stands in the
turn. -/

namespace Sys2Proof.Machine

theorem applyEvents_append (cfg : Cfg) (idle : Bool) (before after : List EnvEvent) (w : Env × Bool) :
    applyEvents cfg idle (before ++ after) w = applyEvents cfg idle after (applyEvents cfg idle before w) := by
  induction before generalizing w with
  | nil => rfl
  | cons ev rest ih => exact ih _

/-- A turn with a step in it: the steps before it, the step itself, and the steps after it (20_memory.md R58). -/
theorem worldAfterTurn_split {s : State} {before after : List EnvEvent} {ev : EnvEvent}
    (h : (nextTurn s.env).events = before ++ ev :: after) :
    worldAfterTurn s
      = applyEvents s.cfg (s.seq == .idle) after (applyEvent s.cfg (s.seq == .idle) (worldAfter s before) ev) := by
  rw [worldAfterTurn, h, applyEvents_append]
  rfl

theorem envSteps_of_world {s : State} {w : Env × Bool} (h : worldAfterTurn s = w) :
    envSteps s = { s with env := w.1, blk := { s.blk with activitySignal := w.2 } } := by rw [← h]; rfl

theorem flagAfterLine_eq (old new flag : Bool) : flagAfterLine old new flag = (flag || (old && !new)) := by
  cases old <;> cases new <;> cases flag <;> rfl

theorem idle_beq (q : Sequencer) : (q == .idle) = decide (q = .idle) := by
  cases q <;> rfl

/-- Where no other block may consume it, a set flag stays set through the environment's steps (60_exceptions.md R213). -/
theorem applyEvents_flag_kept {cfg : Cfg} {idle : Bool} (hown : (cfg.sharedActivity && idle) = false) (evs : List EnvEvent)
    {w : Env × Bool} (h : w.2 = true) : (applyEvents cfg idle evs w).2 = true := by
  induction evs generalizing w with
  | nil => exact h
  | cons ev rest ih =>
    refine ih ?_
    cases ev with
    | setLine level => simp [applyEvent, flagAfterLine_eq, h]
    | otherConsume => simpa [applyEvent, hown] using h
    | advance | arrive | rebuffer | selfWake => exact h

/-! ### A step with nothing to run -/

theorem beginStep_presented_of_some {s : State} {item : HostItem} (h : s.presented = some item) :
    (beginStep s).presented = some item := by simp [beginStep, h]

theorem beginStep_presented_of_none {s : State} (h : s.presented = none) :
    (beginStep s).presented = if s.seq = .idle then (nextTurn s.env).item else none := by simp [beginStep, h]

theorem step_of_presented {s : State} {item : HostItem} (h : (beginStep s).presented = some item) :
    step s = withinTime (runItem item (beginStep s)) := by simp [step, h]

theorem step_of_none {s : State} (h : (beginStep s).presented = none) : step s = withinTime (.next (beginStep s)) := by
  simp [step, h]

/-- Where a turn brings no item, the beginning of a step is the turn. -/
theorem beginStep_eq_envSteps {s : State} (h : (beginStep s).presented = s.presented) : beginStep s = envSteps s := by
  change { envSteps s with presented := (beginStep s).presented } = envSteps s
  rw [h]
  rfl

theorem wait_presented {s : State} (h : s.presented = none) (hitem : (nextTurn s.env).item = none) :
    (beginStep s).presented = none := by
  rw [beginStep_presented_of_none h, hitem, ite_self]

theorem wait_beginStep {s : State} (h : s.presented = none) (hitem : (nextTurn s.env).item = none) :
    beginStep s = envSteps s :=
  beginStep_eq_envSteps ((wait_presented h hitem).trans h.symm)

theorem TurnInTime.envSteps_timeBroken {s : State} (h : TurnInTime s) : (envSteps s).env.timeBroken = false := by
  obtain ⟨hbroken, hroom⟩ := h
  rw [Machine.envSteps_timeBroken, hbroken, Bool.false_or, decide_eq_false_iff_not, clockLimit]
  omega

/-- A turn within the time premise that brings no item is all a waiting block does (70_reset_and_hazards.md R230). -/
theorem step_wait {s : State} (h : s.presented = none) (hitem : (nextTurn s.env).item = none) (htime : TurnInTime s) :
    step s = .next (envSteps s) := by
  rw [step_of_none (wait_presented h hitem), wait_beginStep h hitem, withinTime_of htime.envSteps_timeBroken]

/-! ### The obligations -/

/-- Settles O33: the line's step among the others, its flag a falling edge's. -/
theorem fallingEdgeOnlySetsFlag : Obligations.FallingEdgeOnlySetsFlag := by
  refine fun s level before after hevents => ⟨envSteps_of_world ?_, step_wait⟩
  rw [worldAfterTurn_split hevents, applyEvent, flagAfterLine_eq]

/-- Settles O35: the other block's step among the others. -/
theorem otherInstanceConsumesIdleFlag : Obligations.OtherInstanceConsumesIdleFlag := by
  refine fun s before after hevents => envSteps_of_world ?_
  have hflag : applyEvent s.cfg (s.seq == .idle) (worldAfter s before) .otherConsume
      = ((worldAfter s before).1, (worldAfter s before).2
          && !(s.cfg.sharedActivity && decide (s.seq = .idle) && (worldAfter s before).1.intLine)) := by
    rw [applyEvent, idle_beq, flagAfterOther]
    cases s.cfg.sharedActivity && decide (s.seq = .idle) <;> cases (worldAfter s before).2 <;>
      cases (worldAfter s before).1.intLine <;> rfl
  rw [worldAfterTurn_split hevents, hflag]

/-- Settles O36: the self-wake's step among the others, and what no turn does. -/
theorem selfWakeOnlyMovesMode : Obligations.SelfWakeOnlyMovesMode := by
  refine fun s => ⟨fun before after hevents => envSteps_of_world (worldAfterTurn_split hevents), fun hnone => ?_, envSteps_regs s,
    (envSteps_moved s).ctrlPins, (envSteps_moved s).hostPins⟩
  refine envSteps_mode (.inr fun k hk => ?_)
  obtain rfl : k = 0 := by omega
  rwa [turnAt_zero]

/-- Settles O57: the edge sets the flag, and the steps after it keep it set where no other block consumes it. -/
theorem edgeInTurnIsNotLost : Obligations.EdgeInTurnIsNotLost := by
  intro s before after hevents hline hown
  rw [envSteps_of_world (worldAfterTurn_split hevents)]
  refine applyEvents_flag_kept ?_ after ?_
  · rw [idle_beq]
    rcases hown with hown | hbusy
    · simp [hown]
    · simp [hbusy]
  · simp [applyEvent, flagAfterLine_eq, hline]

end Sys2Proof.Machine
end

section
/-! PROOFS. The step and reset (spec/10_state.md sections 1 and 6, spec/70_reset_and_hazards.md section 1), and the time premise a step
keeps or leaves (spec/00_scope.md R13). -/

namespace Sys2Proof.Machine

/-! ### The time premise along a step -/

/-- What a step's turns advance the clock: its own turn, then those of its calls. -/
theorem advanceSum_succ_eq (s : State) (n : Nat) :
    advanceSum s.env (n + 1) = turnAdvance (nextTurn s.env) + advanceSum (envSteps s).env n := by
  rw [Nat.add_comm n, advanceSum_shift (envSteps_script s) (envSteps_turns s)]
  simp [advanceSum]

theorem envSteps_timeBroken_iff (s : State) :
    (envSteps s).env.timeBroken = true
      ↔ s.env.timeBroken = true ∨ 2 ^ 32 ≤ s.env.clock.toNat + turnAdvance (nextTurn s.env) := by
  rw [envSteps_timeBroken, Bool.or_eq_true, decide_eq_true_eq, turnAt_zero, clockLimit]
  exact or_congr Iff.rfl (by omega)

/-- A run that left the time premise in the step's own turn stays outside it, whatever the item does. -/
theorem step_next_timeBroken {s t : State} (h : step s = .next t) : (envSteps s).env.timeBroken = false := by
  obtain ⟨htime, ⟨-, rfl⟩ | ⟨-, rfl⟩ | ⟨p, i, -, -, hexec⟩⟩ := step_next h
  · exact htime
  · exact htime
  · obtain ⟨calls, -, -, htimed, -⟩ := exec_ran hexec
    by_contra hbroken
    exact Bool.eq_false_iff.1 htime (htimed.broken (Bool.eq_true_of_not_eq_false hbroken))

/-- The step's own turn makes no call. -/
theorem CallsMade.of_step {s t : State} {calls : List Call} (h : CallsMade s t calls) :
    CallsMade (takeItem (beginStep s)) t calls := by
  unfold CallsMade at *
  rw [h]
  exact congrArg (· ++ calls) (envSteps_moved s).history.symm

/-- An instruction in a step: the step answers as the instruction does, its calls timed from the end of the step's own turn. -/
theorem step_of_exec {s t : State} {p : Presented} {i : Instr} {calls : List Call} (hp : s.presented = some (.present p))
    (hi : decode p = .ok i) (hexec : exec i (takeItem (beginStep s)) = .next t) (hcalls : CallsMade s t calls) :
    step s = withinTime (.next t) ∧ Timed s.cfg (envSteps s).env t.env calls := by
  obtain ⟨made, -, hmade, htimed, -⟩ := exec_ran hexec
  obtain rfl := hmade.unique hcalls.of_step
  exact ⟨by rw [step_of_presented (beginStep_presented_of_some hp), runItem, hi, ← hexec], htimed⟩

/-- Every meaning begins with the check that the block is idle (10_state.md R22). -/
theorem exec_eq_whenIdle (i : Instr) (s : State) : ∃ op run, exec i s = whenIdle op s run := by
  cases i <;>
    simp only [exec, execEncode, execDecode, execDfCheck, execSleep, execWake, execIsSleeping, execMaybeAutosleep, execSetAutosleep,
      execSetStbyPin, execSend, execReceive, execIdBroadcast, execIdMulticast, execIdReserved, execIdUnicast] <;>
    exact ⟨_, _, rfl⟩

/-! ### The obligations -/

/-- Settles O39: every meaning begins with the check that the block is idle. -/
theorem busyBlockRefuses : Obligations.BusyBlockRefuses := by
  intro i s op hbusy
  obtain ⟨op', run, hexec⟩ := exec_eq_whenIdle i s
  rw [hexec, whenIdle_busy hbusy]

/-- Settles O41: the item presented stays presented through the turn. -/
theorem stepRunsDecodedInstruction : Obligations.StepRunsDecodedInstruction := by
  intro s p i hp hi
  refine ⟨?_, envSteps_regs s, rfl, rfl, rfl, (envSteps_moved s).history, rfl⟩
  rw [step_of_presented (beginStep_presented_of_some hp), runItem, hi]

/-- Settles O42: the turn's item, if any, is what the step runs. -/
theorem idleBlockTakesItemOrWaits : Obligations.IdleBlockTakesItemOrWaits := by
  refine fun s hnone hidle => ⟨fun item hitem => step_of_presented ?_, fun hitem htime => ?_⟩
  · rw [beginStep_presented_of_none hnone, if_pos hidle, hitem]
  · have hmoved := envSteps_moved s
    exact ⟨_, step_wait hnone hitem htime, envSteps_regs s, hmoved.history, ⟨hmoved.ctrlPins, hmoved.hostPins⟩, rfl, hidle⟩

/-- Settles O43: reset after the turn writes the registers and nothing of the environment. -/
theorem resetSetsRegistersOnly : Obligations.ResetSetsRegistersOnly := by
  intro s hreset htime
  have hstep : step s = .next (blockReset (beginStep s)) := by
    rw [step_of_presented (beginStep_presented_of_some hreset), runItem]
    exact withinTime_of htime.envSteps_timeBroken
  have hmoved := envSteps_moved s
  exact ⟨_, hstep, rfl, rfl, rfl, rfl, rfl, rfl, rfl, rfl, rfl, rfl, rfl, rfl, hmoved.history, hmoved.ctrlPins, hmoved.hostPins⟩

/-- Settles O44: the reset values are those the state is defined with. -/
theorem resetStateHoldsResetValues : Obligations.ResetStateHoldsResetValues :=
  ⟨rfl, rfl, rfl, rfl, rfl, rfl, rfl, rfl⟩

/-- Settles O45: every time held after reset is 0. -/
theorem invariantHoldsAtReset : Obligations.InvariantHoldsAtReset :=
  ⟨rfl, Nat.zero_le _, Nat.zero_le _, Nat.zero_le _, Nat.zero_le _, Nat.zero_le _, rfl, rfl, rfl⟩

/-- Settles O47: a wait and a reset make no call, and an instruction appends its own. -/
theorem clockAndHistoryOnlyGrow : Obligations.ClockAndHistoryOnlyGrow := by
  intro s t h
  have hmoved := envSteps_moved s
  have hsame : CallsMade s (envSteps s) [] := hmoved.history.trans (List.append_nil _).symm
  obtain ⟨-, ⟨-, rfl⟩ | ⟨-, rfl⟩ | ⟨p, i, -, -, hexec⟩⟩ := step_next h
  · exact ⟨hmoved.clock, [], hsame⟩
  · exact ⟨hmoved.clock, [], hsame⟩
  · obtain ⟨calls, houtside, hmade, -⟩ := exec_ran hexec
    exact ⟨hmoved.clock.trans houtside.clock, calls, hmade.trans (congrArg (· ++ calls) hmoved.history)⟩

/-- Settles O48: neither a turn, nor reset, nor an instruction writes the configuration. -/
theorem configurationIsConstant : Obligations.ConfigurationIsConstant := by
  intro s t h
  obtain ⟨-, ⟨-, rfl⟩ | ⟨-, rfl⟩ | ⟨p, i, -, -, hexec⟩⟩ := step_next h
  · rfl
  · rfl
  · obtain ⟨-, houtside, -⟩ := exec_ran hexec
    exact houtside.cfg

/-- Settles O59: the turns and the delays leave room on the clock, so nothing in the step leaves the premise. -/
theorem stepAnswersWithinTime : Obligations.StepAnswersWithinTime := by
  intro s t p i calls hp hi hexec hcalls hbroken hreset hroom
  obtain ⟨hstep, htimed⟩ := step_of_exec hp hi hexec hcalls
  have hclock := envSteps_clock s
  rw [turnAt_zero] at hclock
  rw [advanceSum_succ_eq] at hroom
  have hturn : (envSteps s).env.timeBroken = false :=
    TurnInTime.envSteps_timeBroken ⟨hbroken, by rw [turnAt_zero]; omega⟩
  rw [hstep, withinTime_of (htimed.inTime ((envSteps_moved s).clock.trans' hreset) hturn ?_)]
  unfold clockLimit at *
  omega

/-- Settles O60: whatever leaves the premise is kept in the field a step looks at. -/
theorem stepRefusesOutsideTime : Obligations.StepRefusesOutsideTime := by
  refine fun s => ⟨fun hout => ⟨fun t h => ?_, fun hnone hitem => ?_⟩, fun t p i calls hp hi hexec hcalls hout => ?_⟩
  · exact Bool.eq_false_iff.1 (step_next_timeBroken h) ((envSteps_timeBroken_iff s).2 hout)
  · rw [step_of_none (wait_presented hnone hitem)]
    exact withinTime_broken ((envSteps_timeBroken_iff s).2 hout)
  · obtain ⟨hstep, htimed⟩ := step_of_exec hp hi hexec hcalls
    have hclock := envSteps_clock s
    rw [turnAt_zero] at hclock
    rw [hstep]
    apply withinTime_broken
    rcases hout with hbroken | hwrap | ⟨n, hn, hearly⟩
    · exact htimed.broken ((envSteps_timeBroken_iff s).2 (.inl hbroken))
    · rw [advanceSum_succ_eq] at hwrap
      by_cases hturn : 2 ^ 32 ≤ s.env.clock.toNat + turnAdvance (nextTurn s.env)
      · exact htimed.broken ((envSteps_timeBroken_iff s).2 (.inr hturn))
      · refine htimed.wraps ?_
        unfold clockLimit at *
        omega
    · exact htimed.early n hn hearly

end Sys2Proof.Machine
end

section
/-! PROOFS. DuplicateFilter again (spec/41_duplicate_filter.md): when DF_CHECK is refused (R127 (g); 00_scope.md R13), and that it sees
the meaningful bytes alone (R122). -/

namespace Sys2Proof.Machine

theorem acceptsFrame_congr (cfg : Cfg) (b : Block) (n : Time) (id : IdWord) {length : LenField} {p q : Payload}
    (h : SameMeaningful length p q) : acceptsFrame cfg b n id length p = acceptsFrame cfg b n id length q := by
  simp only [acceptsFrame, sameAsRecord, payloadDiffers_congr b.dfPayload h]

theorem checkedBlock_congr (accept : Bool) (b : Block) (n : Time) (id : IdWord) {length : LenField} {p q : Payload}
    (h : SameMeaningful length p q) : checkedBlock accept b n id length p = checkedBlock accept b n id length q := by
  simp only [checkedBlock, overwriteRecord, overlay_congr b.dfPayload h]

theorem dfCheckOp_congr (id : IdWord) {length : LenField} {p q : Payload} (s : State) (h : SameMeaningful length p q) :
    dfCheckOp id length p s = dfCheckOp id length q s := by
  simp only [dfCheckOp_eq, acceptsFrame_congr _ _ _ _ h, checkedBlock_congr _ _ _ _ h]

/-! ### The obligations -/

/-- Settles O13: the length is looked at before anything else. -/
theorem dfCheckRefusesLongLength : Obligations.DfCheckRefusesLongLength := by
  intro id length payload s hidle hlong
  have hout : lengthInContract length = false := decide_eq_false (Nat.not_le.2 hlong)
  simp [exec, execDfCheck, whenIdle_idle hidle, hout]

/-- Settles O14: neither the decision nor what an acceptance writes looks at a byte of index >= length. -/
theorem dfCheckSeesMeaningfulBytesOnly : Obligations.DfCheckSeesMeaningfulBytesOnly := by
  intro id length p q s h
  simp only [exec, execDfCheck, dfCheckOp_congr id _ h]

/-- Settles O58: the clock read is compared with the record's time whatever the decision. -/
theorem dfCheckRefusesClockBeforeRecord : Obligations.DfCheckRefusesClockBeforeRecord := by
  intro id length payload s hidle hlength hearly
  have hcontract : lengthInContract length = true := decide_eq_true hlength
  have herror : dfCheckOp id length payload (beginOp 0x3#4 s) = .error .clockBeforeRecord := by
    rw [dfCheckOp_eq, now_beginOp, beginOp_blk, if_pos hearly]
  simp only [exec, execDfCheck, whenIdle_idle hidle, if_pos hcontract, herror]
  rfl

end Sys2Proof.Machine
end

section
/-! PROOFS. Which kinds of calls each operation makes, and how many (spec/00_scope.md R14, spec/70_reset_and_hazards.md R247). -/

namespace Sys2Proof.Machine

/-! ### The kinds of calls -/

/-- The environment calls of 00_scope.md R14 without their arguments and answers. -/
inductive CallKind where
  | now | available | read | frame | sleep | wake | mode | pinMode | write | line | delay
deriving DecidableEq

def kindOf : Call → CallKind
  | .now _ => .now
  | .checkReceiveAvailable _ => .available
  | .readFrame _ => .read
  | .sendFrame _ _ _ _ _ => .frame
  | .sleep _ => .sleep
  | .wake _ => .wake
  | .getMode _ => .mode
  | .setPinMode _ _ _ => .pinMode
  | .digitalWrite _ _ _ => .write
  | .intLine _ => .line
  | .delay _ => .delay

/-- Every call among some is of one of some kinds. -/
def OfKinds (kinds : List CallKind) (calls : List Call) : Prop := ∀ c ∈ calls, kindOf c ∈ kinds

theorem OfKinds.not_mem {kinds : List CallKind} {calls : List Call} (h : OfKinds kinds calls) {c : Call}
    (hc : kindOf c ∉ kinds) : c ∉ calls := fun hmem => hc (h c hmem)

theorem OfKinds.append {k l : List CallKind} {c d : List Call} (hc : OfKinds k c) (hd : OfKinds l d) :
    OfKinds (k ++ l) (c ++ d) := fun x hx =>
  List.mem_append.2 ((List.mem_append.1 hx).imp (hc x) (hd x))

theorem OfKinds.mono {k l : List CallKind} {calls : List Call} (h : OfKinds k calls) (hkl : k ⊆ l) : OfKinds l calls :=
  fun c hc => hkl (h c hc)

theorem ofKinds_singleton (kind : CallKind) (c : Call) (h : kindOf c = kind) : OfKinds [kind] [c] := by simp [OfKinds, h]

theorem pinCalls_kinds (b : Block) (l : Bool) : OfKinds [.write] (pinCalls b l) := by
  unfold pinCalls
  split <;> simp [OfKinds, kindOf]

theorem pinCalls_length (b : Block) (l : Bool) : (pinCalls b l).length ≤ 1 := by
  unfold pinCalls
  split <;> simp

theorem SleepCalls.kinds {cfg : Cfg} {b : Block} {r : Result} {calls : List Call} (h : SleepCalls cfg b r calls) :
    OfKinds [.mode, .sleep, .write] calls ∧ calls.length ≤ 3 := by
  rcases h with ⟨-, rfl⟩ | ⟨-, rfl⟩ | ⟨-, rfl⟩
  · simp [OfKinds, kindOf]
  · simp [OfKinds, kindOf]
  · have := pinCalls_length b cfg.stbyLevel
    refine ⟨OfKinds.append (k := [.mode, .sleep]) (by simp [OfKinds, kindOf]) (pinCalls_kinds _ _), ?_⟩
    simp only [List.length_append, List.length_cons, List.length_nil]
    omega

theorem WakeCalls.kinds {cfg : Cfg} {b : Block} {n : Time} {r : Result} {calls : List Call} (h : WakeCalls cfg b n r calls) :
    OfKinds [.now, .wake, .write] calls ∧ calls.length ≤ 3 := by
  have := pinCalls_length b (!cfg.stbyLevel)
  subst h
  refine ⟨OfKinds.append (k := [.now, .wake]) (by simp [OfKinds, kindOf]) ?_, ?_⟩
  · split
    · exact pinCalls_kinds _ _
    · simp [OfKinds]
  · split <;> simp only [List.length_append, List.length_cons, List.length_nil] <;> omega

theorem AutosleepCalls.kinds {cfg : Cfg} {b : Block} {calls : List Call} (h : AutosleepCalls cfg b calls) :
    OfKinds [.available, .now, .mode, .sleep, .write] calls ∧ calls.length ≤ 5 := by
  rcases h with ⟨-, rfl⟩ | ⟨-, rfl⟩ | ⟨-, n, -, rfl⟩ | ⟨-, n, r, rest, -, hsleep, rfl⟩
  · simp [OfKinds]
  · simp [OfKinds, kindOf]
  · simp [OfKinds, kindOf]
  · obtain ⟨hkinds, hlength⟩ := hsleep.kinds
    refine ⟨OfKinds.append (k := [.available, .now]) (by simp [OfKinds, kindOf]) hkinds, ?_⟩
    simp only [List.length_append, List.length_cons, List.length_nil]
    omega

theorem HandshakeCalls.kinds {cfg : Cfg} {sent : Bool} {calls : List Call} (h : HandshakeCalls cfg sent calls) :
    OfKinds [.frame, .delay] calls ∧ calls.length ≤ 2 := by
  rcases h with ⟨-, -, rfl⟩ | ⟨-, -, rfl⟩ | ⟨-, -, rfl⟩ <;> simp [OfKinds, kindOf]

/-- Once its availability check answered available, MAYBE_AUTOSLEEP does not sleep (42_power_controller.md R142 (b)). -/
theorem AutosleepCalls.no_sleep {cfg : Cfg} {b : Block} {calls : List Call} (h : AutosleepCalls cfg b calls)
    (havailable : Call.checkReceiveAvailable true ∈ calls) (r : Result) : Call.sleep r ∉ calls := by
  rcases h with ⟨-, rfl⟩ | ⟨-, rfl⟩ | ⟨-, n, -, rfl⟩ | ⟨-, n, r', rest, -, hsleep, rfl⟩
  · simp
  · simp
  · simp
  · have : Call.checkReceiveAvailable true ∉ rest := hsleep.kinds.1.not_mem (by simp [kindOf])
    simp [this] at havailable

end Sys2Proof.Machine
end

section
/-! PROOFS. The receive queue while the environment holds still (spec/60_exceptions.md R201, R202): no operation but RECEIVE reads a frame,
and availability is answered from the queue. -/

namespace Sys2Proof.Machine

/-- A stretch of at most `k` calls in a calm environment leaves the receive queue, is answered available exactly when something is
queued, and leaves the rest of the environment's turns calm. -/
def KeepsQueue (k : Nat) (s t : State) (calls : List Call) : Prop :=
  ∀ n, calm s (n + k) → calm t n ∧ t.env.rxQueue = s.env.rxQueue
    ∧ ∀ a, .checkReceiveAvailable a ∈ calls → a = !s.env.rxQueue.isEmpty

theorem KeepsQueue.refl (s : State) : KeepsQueue 0 s s [] := fun _ h => ⟨h, rfl, nofun⟩

theorem KeepsQueue.mono {j k : Nat} {s t : State} {calls : List Call} (h : KeepsQueue j s t calls) (hjk : j ≤ k) :
    KeepsQueue k s t calls := fun n hcalm => h n (calm_mono hcalm (by omega))

theorem KeepsQueue.trans {j k : Nat} {s t u : State} {c d : List Call} (h : KeepsQueue j s t c) (h' : KeepsQueue k t u d) :
    KeepsQueue (j + k) s u (c ++ d) := fun n hcalm => by
  obtain ⟨hcalm', hqueue, hanswers⟩ := h (n + k) (by rwa [Nat.add_assoc, Nat.add_comm k j])
  obtain ⟨hcalm'', hqueue', hanswers'⟩ := h' n hcalm'
  refine ⟨hcalm'', hqueue'.trans hqueue, fun a ha => (List.mem_append.1 ha).elim (hanswers a) fun ha' => ?_⟩
  rw [hanswers' a ha', hqueue]

/-- A stretch that asks for no availability. -/
theorem Holds.keepsQueue {k : Nat} {s t : State} {kinds : List CallKind} {calls : List Call} (h : Holds k s t)
    (hkinds : OfKinds kinds calls) (hnone : CallKind.available ∉ kinds) : KeepsQueue k s t calls := fun n hcalm =>
  have ⟨hcalm', _, _, _, hqueue⟩ := h n hcalm
  ⟨hcalm', hqueue, fun _ ha => absurd ha (hkinds.not_mem hnone)⟩

theorem checkReceiveAvailable_calm {s : State} (h : calm s 1) : (checkReceiveAvailable s).1 = !s.env.rxQueue.isEmpty := by
  obtain ⟨-, -, -, -, hqueue⟩ := envSteps_holds s 0 h
  rw [← hqueue]
  rfl

/-- MAYBE_AUTOSLEEP asks for availability once at most (42_power_controller.md R141). -/
theorem maybeAutosleepOp_available {s t : State} {calls : List Call} (h : maybeAutosleepOp s = .ok t) (hmade : CallsMade s t calls)
    {a : Bool} (ha : .checkReceiveAvailable a ∈ calls) : a = (checkReceiveAvailable s).1 := by
  have hcheck := (checkReceiveAvailable_plain s).ran
  have hread := hcheck.trans (now_plain (checkReceiveAvailable s).2).ran
  rcases maybeAutosleepOp_cases h with ⟨-, rfl⟩ | ⟨-, -, rfl⟩ | ⟨-, -, -, rfl⟩ | ⟨-, -, -, rfl⟩
  · obtain rfl := hmade.unique (Ran.refl _).history
    cases ha
  · obtain rfl := hmade.unique hcheck.history
    simpa using ha
  · obtain rfl := hmade.unique hread.history
    simpa using ha
  · obtain ⟨rest, hsleep, hone⟩ := sleepOp_spec (now (checkReceiveAvailable s).2).2
    obtain rfl := hmade.unique (hread.trans hone.ran).history
    have : .checkReceiveAvailable a ∉ rest := hsleep.kinds.1.not_mem (by simp [kindOf])
    simpa [this] using ha

theorem maybeAutosleepOp_keepsQueue {s t : State} {calls : List Call} (h : maybeAutosleepOp s = .ok t) (hmade : CallsMade s t calls) :
    KeepsQueue 5 s t calls := fun n hcalm =>
  have ⟨hcalm', _, _, _, hqueue⟩ := maybeAutosleepOp_holds h n hcalm
  ⟨hcalm', hqueue, fun _ ha => (maybeAutosleepOp_available h hmade ha).trans
    (checkReceiveAvailable_calm (calm_mono hcalm (by omega)))⟩

theorem handshakeOp_keepsQueue {s : State} {r : Bool × State} (h : handshakeOp s = .ok r) :
    ∃ calls, Ran s r.2 calls ∧ KeepsQueue 2 s r.2 calls := by
  obtain ⟨calls, hcalls, hplain⟩ := handshakeOp_spec h
  have hsent := sendFrame_holds s.cfg.hsId s.cfg.hsExt 1 [s.cfg.hsByte] s
  have hnone : ∀ a, .checkReceiveAvailable a ∉ calls := fun a => hcalls.kinds.1.not_mem (by simp [kindOf])
  refine ⟨calls, hplain.ran, fun n hcalm => ?_⟩
  suffices hq : calm r.2 n ∧ r.2.env.rxQueue = s.env.rxQueue from ⟨hq.1, hq.2, fun a ha => absurd ha (hnone a)⟩
  rcases handshakeOp_cases h with ⟨-, rfl⟩ | ⟨-, -, rfl⟩ | ⟨-, -, t, hdelay, rfl⟩
  · exact ⟨calm_mono hcalm (by omega), rfl⟩
  · obtain ⟨hcalm', -, -, -, hqueue⟩ := hsent (n + 1) hcalm
    exact ⟨calm_mono hcalm' (by omega), hqueue⟩
  · obtain ⟨hcalm', -, -, -, hqueue⟩ := hsent (n + 1) hcalm
    obtain ⟨hcalm'', hqueue'⟩ := delay_queue hdelay hcalm'
    exact ⟨hcalm'', hqueue'.trans hqueue⟩

theorem sendRealFrame_keepsQueue {id : IdWord} {length : LenField} {payload : Payload} {s : State} {r : Bool × State}
    (h : sendRealFrame id length payload s = .ok r) : ∃ calls, Ran s r.2 calls ∧ KeepsQueue 6 s r.2 calls := by
  obtain ⟨t, ht, rfl⟩ := map_ok h
  obtain ⟨rest, -, hrest⟩ := maybeAutosleepOp_spec ht
  have hframe := sendFrame_plain id true length (meaningfulBytes length.toNat payload) s
  exact ⟨_, hframe.ran.trans hrest.ran,
    (Holds.keepsQueue (sendFrame_holds _ _ _ _ s) (ofKinds_singleton .frame _ rfl) (by decide)).trans
      (maybeAutosleepOp_keepsQueue ht hrest.ran.history)⟩

theorem transmitOp_keepsQueue {id : IdWord} {length : LenField} {payload : Payload} {s : State} {r : Bool × State}
    {calls : List Call} (h : transmitOp id length payload s = .ok r) (hmade : CallsMade s r.2 calls) :
    KeepsQueue 11 s r.2 calls := by
  obtain ⟨wake, hwake, hwoke⟩ := wakeOp_spec s
  have hq := (wakeOp_holds s).keepsQueue hwake.kinds.1 (by decide)
  rcases transmitOp_cases h with ⟨t, ht, rfl⟩ | ⟨t, ht, hr⟩ <;> obtain ⟨hs, hran, hqs⟩ := handshakeOp_keepsQueue ht
  · obtain rfl := hmade.unique (hwoke.ran.trans hran).history
    exact (hq.trans hqs).mono (by omega)
  · obtain ⟨rest, hrest, hqr⟩ := sendRealFrame_keepsQueue hr
    obtain rfl := hmade.unique ((hwoke.ran.trans hran).trans hrest).history
    exact (hq.trans hqs).trans hqr

/-- SET_STBY_PIN drives the pin last, at a level of the mode answered (42_power_controller.md R145). -/
theorem setStbyPinOp_eq (ctrl : Bool) (p : PinNum) (s : State) :
    ∃ l, setStbyPinOp ctrl p s
      = drivePin l (isSleepingOp (setPinMode (if ctrl then .ctrl else .host) p .output (setStbyRegisters ctrl p s))).2 :=
  ⟨_, (apply_ite (drivePin · _) _ _ _).symm⟩

theorem setPinMode_holds (space : PinSpace) (p : PinNum) (d : PinDir) (s : State) : Holds 1 s (setPinMode space p d s) := by
  cases space <;> exact holds_of_call rfl rfl rfl rfl rfl

theorem setStbyPinOp_holds (ctrl : Bool) (p : PinNum) (s : State) :
    Holds 3 (setStbyRegisters ctrl p s) (setStbyPinOp ctrl p s) := by
  obtain ⟨l, hl⟩ := setStbyPinOp_eq ctrl p s
  rw [hl]
  exact ((setPinMode_holds _ p .output (setStbyRegisters ctrl p s)).trans (isSleepingOp_holds _)).trans (drivePin_holds _ _)

end Sys2Proof.Machine
end

section
/-! PROOFS. The canonical form of the pin spaces (log 8): every operation keeps it. -/

namespace Sys2Proof.Machine

/-- Both pin spaces are in canonical form. -/
def PinsFormed (e : Env) : Prop := pinsWf e.ctrlPins = true ∧ pinsWf e.hostPins = true

theorem PinsKept.formed {s t : State} (h : PinsKept s t) (hs : PinsFormed s.env) : PinsFormed t.env := by
  obtain ⟨hctrl, hhost⟩ := h
  rw [PinsFormed, hctrl, hhost]
  exact hs

theorem PinsFormed.setPin {e : Env} (h : PinsFormed e) (space : PinSpace) (p : PinNum) (v : Pin) :
    PinsFormed (setPin e space p v) := by
  obtain ⟨hctrl, hhost⟩ := h
  cases space
  · exact ⟨pinsWf_writePin hctrl p.isLt v, hhost⟩
  · exact ⟨hctrl, pinsWf_writePin hhost p.isLt v⟩

theorem PinsFormed.envSteps {s : State} (h : PinsFormed s.env) : PinsFormed (envSteps s).env :=
  PinsKept.formed (t := Machine.envSteps s) ⟨(envSteps_moved s).ctrlPins, (envSteps_moved s).hostPins⟩ h

theorem PinsFormed.digitalWrite {s : State} (h : PinsFormed s.env) (space : PinSpace) (p : PinNum) (l : Bool) :
    PinsFormed (digitalWrite space p l s).env := h.envSteps.setPin space p _

theorem PinsFormed.setPinMode {s : State} (h : PinsFormed s.env) (space : PinSpace) (p : PinNum) (d : PinDir) :
    PinsFormed (setPinMode space p d s).env := h.envSteps.setPin space p _

theorem PinsFormed.drivePin {s : State} (h : PinsFormed s.env) (l : Bool) : PinsFormed (drivePin l s).env := by
  unfold Machine.drivePin
  split
  · exact h
  · exact h.digitalWrite _ _ _
  · exact h.digitalWrite _ _ _

theorem PinsFormed.sleepOp {s : State} (h : PinsFormed s.env) : PinsFormed (sleepOp s).2.env := by
  have hasked := (isSleepingOp_plain s).pins.formed h
  have hslept := (periphSleep_plain (isSleepingOp s).2).pins.formed hasked
  rcases sleepOp_cases s with ⟨-, hr⟩ | ⟨-, -, hr⟩ | ⟨-, -, hr⟩ <;> rw [hr]
  · exact hasked
  · exact hslept
  · exact hslept.drivePin _

theorem PinsFormed.wakeOp {s : State} (h : PinsFormed s.env) : PinsFormed (wakeOp s).2.env := by
  have hread : PinsFormed (refreshActivity s).env := (now_plain s).pins.formed h
  have hwoken := (periphWake_plain (refreshActivity s)).pins.formed hread
  rcases wakeOp_cases s with ⟨-, hr⟩ | ⟨-, hr⟩ <;> rw [hr]
  · exact hwoken
  · exact hwoken.drivePin _

theorem PinsFormed.maybeAutosleepOp {s t : State} (h : PinsFormed s.env) (ht : maybeAutosleepOp s = .ok t) :
    PinsFormed t.env := by
  have hchecked := (checkReceiveAvailable_plain s).pins.formed h
  have hread := (now_plain (checkReceiveAvailable s).2).pins.formed hchecked
  rcases maybeAutosleepOp_cases ht with ⟨-, rfl⟩ | ⟨-, -, rfl⟩ | ⟨-, -, -, rfl⟩ | ⟨-, -, -, rfl⟩
  · exact h
  · exact hchecked
  · exact hread
  · exact hread.sleepOp

theorem PinsFormed.setStbyPinOp {s : State} (h : PinsFormed s.env) (ctrl : Bool) (p : PinNum) :
    PinsFormed (setStbyPinOp ctrl p s).env := by
  obtain ⟨l, hl⟩ := setStbyPinOp_eq ctrl p s
  have hmoded : PinsFormed (Machine.setPinMode (if ctrl then .ctrl else .host) p .output (setStbyRegisters ctrl p s)).env :=
    PinsFormed.setPinMode (s := setStbyRegisters ctrl p s) h _ p .output
  rw [hl]
  exact ((isSleepingOp_plain _).pins.formed hmoded).drivePin l

theorem PinsFormed.sendRealFrame {id : IdWord} {length : LenField} {payload : Payload} {s : State} {r : Bool × State}
    (h : PinsFormed s.env) (hr : sendRealFrame id length payload s = .ok r) : PinsFormed r.2.env := by
  obtain ⟨t, ht, rfl⟩ := map_ok hr
  exact ((sendFrame_plain id true length _ s).pins.formed h).maybeAutosleepOp ht

theorem PinsFormed.transmitOp {id : IdWord} {length : LenField} {payload : Payload} {s : State} {r : Bool × State}
    (h : PinsFormed s.env) (hr : transmitOp id length payload s = .ok r) : PinsFormed r.2.env := by
  rcases transmitOp_cases hr with ⟨t, ht, rfl⟩ | ⟨t, ht, hreal⟩ <;> obtain ⟨_, _, hplain⟩ := handshakeOp_spec ht
  · exact hplain.pins.formed h.wakeOp
  · exact (hplain.pins.formed h.wakeOp).sendRealFrame hreal

theorem PinsFormed.consumeActivity {s : State} (h : PinsFormed s.env) : PinsFormed (consumeActivity s).env := by
  cases hflag : s.blk.activitySignal with
  | false => rwa [consumeActivity_clear hflag]
  | true =>
    obtain ⟨-, -, hpins, -⟩ := sampleAndClear_ran (Machine.wakeOp s).2
    rw [consumeActivity_set hflag]
    exact hpins.formed h.wakeOp

theorem PinsFormed.pollOp {s : State} {r : OpResult × State} (h : PinsFormed s.env) (hr : pollOp s = .ok r) :
    PinsFormed r.2.env := by
  have hchecked := (checkReceiveAvailable_plain s).pins.formed h
  have hread := (readFrame_plain (checkReceiveAvailable s).2).pins.formed hchecked
  rcases pollOp_cases hr with ⟨-, t, ht, rfl⟩ | ⟨-, -, rfl⟩ | ⟨-, f, -, hdeliver⟩
  · exact PinsFormed.maybeAutosleepOp (t := t) hchecked ht
  · exact hread
  · obtain ⟨a, hfilter, hend⟩ := deliverOp_cases hdeliver
    have hfiltered : PinsFormed a.2.env := by
      rcases receiveFilter_cases hfilter with ⟨-, hdf⟩ | ⟨-, rfl⟩
      · obtain ⟨-, -, -, hpins, -⟩ := dfCheckOp_spec hdf
        exact hpins.formed hread
      · exact hread
    rcases hend with ⟨-, rfl⟩ | ⟨-, rfl⟩ <;> exact hfiltered

end Sys2Proof.Machine
end

section
/-! PROOFS. What every command of the PowerController answers (spec/42_power_controller.md): when it completes, the calls it makes and
what it leaves alone. -/

namespace Sys2Proof.Machine

/-! ### An instruction that answered -/

/-- What an instruction that answered did: the calls it made, the registers `b` it left but for the flag, which it did not clear, and that
no pin but `pin` is touched; the rest is what every operation but RECEIVE does. -/
structure Answered (pin : Option (PinSpace × PinNum)) (b : Block) (s t : State) (calls : List Call) : Prop where
  made : CallsMade s t calls
  regs : SameRegisters b t.blk
  flag : FlagKept s t
  outside : OutsideKept s t
  pins : PinsKeptBut pin s t
  timed : Timed s.cfg s.env t.env calls
  tracked : Tracked s.cfg s.env t.env calls
  queue : KeepsQueue 11 s t calls
  formed : PinsFormed s.env → PinsFormed t.env

theorem Ran.answered {op : BitVec 4} {pin : Option (PinSpace × PinNum)} {b : Block} {s t : State} {calls : List Call}
    (h : Ran (beginOp op s) t calls) (hregs : SameRegisters b t.blk) (hflag : FlagRan (beginOp op s) t)
    (hpins : PinsKeptBut pin (beginOp op s) t) (hqueue : KeepsQueue 11 (beginOp op s) t calls)
    (hformed : PinsFormed (beginOp op s).env → PinsFormed t.env) (r : OpResult) : Answered pin b s (finish r t) calls where
  made := h.history
  regs := hregs
  flag := hflag (beginOp_busy op s)
  outside := (h.finished r).1
  pins := hpins
  timed := h.timed
  tracked := h.tracked
  queue := hqueue
  formed := hformed

theorem OnePin.answered {op : BitVec 4} {pin : Option (PinSpace × PinNum)} {s t : State} {calls : List Call}
    (h : OnePin pin (beginOp op s) t calls) (hqueue : KeepsQueue 11 (beginOp op s) t calls)
    (hformed : PinsFormed (beginOp op s).env → PinsFormed t.env) (r : OpResult) : Answered pin s.blk s (finish r t) calls :=
  h.ran.answered h.regs h.flag h.pins hqueue hformed r

theorem Woke.answered {op : BitVec 4} {pin : Option (PinSpace × PinNum)} {n : Time} {s t : State} {calls : List Call}
    (h : Woke pin n (beginOp op s) t calls) (hqueue : KeepsQueue 11 (beginOp op s) t calls)
    (hformed : PinsFormed (beginOp op s).env → PinsFormed t.env) (r : OpResult) :
    Answered pin { s.blk with lastActivityTimestamp := n } s (finish r t) calls :=
  h.ran.answered h.regs h.flag h.pins hqueue hformed r

/-- An operation that first writes registers of the block other than the flag, and nothing else. -/
theorem OnePin.answered_of_written {op : BitVec 4} {pin : Option (PinSpace × PinNum)} {s u t : State} {calls : List Call}
    (h : OnePin pin u t calls) (hu : u = { beginOp op s with blk := u.blk })
    (hflag : u.blk.activitySignal = s.blk.activitySignal) (hqueue : KeepsQueue 11 u t calls)
    (hformed : PinsFormed u.env → PinsFormed t.env) (r : OpResult) : Answered pin u.blk s (finish r t) calls := by
  have henv : u.env = s.env := by rw [hu]; rfl
  have hwritten : Ran (beginOp op s) u [] := .silent (by rw [hu]) (by rw [hu]) (by rw [hu]) henv
  refine (hwritten.trans h.ran).answered h.regs (fun hbusy hf => ?_) (fun space p hp => ?_) (fun n hcalm => ?_)
    (fun hs => hformed (henv ▸ hs)) r
  · exact h.flag (hwritten.seq ▸ hbusy) (hflag.trans hf)
  · exact (h.pins space p hp).trans (by rw [henv]; rfl)
  · have hkept := hqueue n
    unfold calm at hkept
    rw [henv] at hkept
    exact hkept hcalm

/-! ### The commands -/

theorem exec_sleep_answers {s : State} (h : s.seq = .idle) :
    ∃ t r calls, exec .sleep s = .next t ∧ t.result = .sleep r ∧ SleepCalls s.cfg s.blk r calls
      ∧ Answered (standbyPin s.blk) s.blk s t calls := by
  obtain ⟨calls, hcalls, hone⟩ := sleepOp_spec (beginOp 0x4#4 s)
  exact ⟨_, _, calls, by simp only [exec, execSleep, whenIdle_idle h], rfl, hcalls,
    hone.answered (((sleepOp_holds _).keepsQueue hcalls.kinds.1 (by decide)).mono (by omega)) PinsFormed.sleepOp _⟩

theorem exec_wake_answers {s : State} (h : s.seq = .idle) :
    ∃ t r calls, exec .wake s = .next t ∧ t.result = .wake r ∧ WakeCalls s.cfg s.blk (now s).1 r calls
      ∧ Answered (standbyPin s.blk) { s.blk with lastActivityTimestamp := (now s).1 } s t calls := by
  obtain ⟨calls, hcalls, hwoke⟩ := wakeOp_spec (beginOp 0x5#4 s)
  rw [now_beginOp] at hcalls hwoke
  exact ⟨_, _, calls, exec_wake h, rfl, hcalls,
    hwoke.answered (((wakeOp_holds _).keepsQueue hcalls.kinds.1 (by decide)).mono (by omega)) PinsFormed.wakeOp _⟩

theorem exec_isSleeping_answers {s : State} (h : s.seq = .idle) :
    ∃ t, exec .isSleeping s = .next t ∧ t.result = .isSleeping (decide (t.env.mode = .sleeping))
      ∧ Answered none s.blk s t [.getMode t.env.mode] := by
  have hplain := isSleepingOp_plain (beginOp 0x6#4 s)
  have hqueue := (isSleepingOp_holds (beginOp 0x6#4 s)).keepsQueue
    (ofKinds_singleton .mode (.getMode (isSleepingOp (beginOp 0x6#4 s)).2.env.mode) rfl) (by decide)
  exact ⟨_, exec_isSleeping h, rfl, (hplain.onePin none).answered (hqueue.mono (by omega)) hplain.pins.formed _⟩

theorem exec_maybeAutosleep {s : State} (h : s.seq = .idle) :
    exec .maybeAutosleep s = outcomeOf ((maybeAutosleepOp (beginOp 0x7#4 s)).map (finish .maybeAutosleep)) := by
  simp only [exec, execMaybeAutosleep, whenIdle_idle h]

theorem exec_setAutosleep (enabled : Bool) (keep : Time) {s : State} (h : s.seq = .idle) :
    exec (.setAutosleep enabled keep) s
      = outcomeOf ((maybeAutosleepOp (setPolicy enabled keep (beginOp 0x8#4 s))).map (finish .setAutosleep)) := by
  simp only [exec, execSetAutosleep, whenIdle_idle h]

theorem keepAwakeWraps_eq_false_iff (b : Block) :
    keepAwakeWraps b = false ↔ b.lastActivityTimestamp.toNat + b.keepAwakeDuration.toNat < 2 ^ 32 := by
  rw [keepAwakeWraps, decide_eq_false_iff_not, Nat.not_le]

/-- MAYBE_AUTOSLEEP runs where its sum is defined (00_scope.md R13). -/
theorem AutosleepDefined.runs {s : State} (h : AutosleepDefined s.blk) : ∃ t, maybeAutosleepOp s = .ok t :=
  maybeAutosleepOp_ok s (h.imp_right (keepAwakeWraps_eq_false_iff s.blk).2)

theorem exec_maybeAutosleep_completes {s : State} (h : s.seq = .idle) (hsum : AutosleepDefined s.blk) :
    ∃ t, exec .maybeAutosleep s = .next t := by
  obtain ⟨t, ht⟩ := hsum.runs (s := beginOp 0x7#4 s)
  exact ⟨_, by rw [exec_maybeAutosleep h, ht]; rfl⟩

theorem exec_maybeAutosleep_next {s t : State} (h : exec .maybeAutosleep s = .next t) :
    t.result = .maybeAutosleep ∧ ∃ calls, AutosleepCalls s.cfg s.blk calls ∧ Answered (standbyPin s.blk) s.blk s t calls := by
  rw [exec_maybeAutosleep (exec_idle h)] at h
  obtain ⟨u, hu, rfl⟩ := map_ok (outcomeOf_next h)
  obtain ⟨calls, hcalls, hone⟩ := maybeAutosleepOp_spec hu
  exact ⟨rfl, calls, hcalls, hone.answered ((maybeAutosleepOp_keepsQueue hu hone.ran.history).mono (by omega))
    (·.maybeAutosleepOp hu) _⟩

theorem exec_setAutosleep_completes {enabled : Bool} {keep : Time} {s : State} (h : s.seq = .idle)
    (hsum : AutosleepDefined { s.blk with autosleepEnabled := enabled, keepAwakeDuration := keep }) :
    ∃ t, exec (.setAutosleep enabled keep) s = .next t := by
  obtain ⟨t, ht⟩ := hsum.runs (s := setPolicy enabled keep (beginOp 0x8#4 s))
  exact ⟨_, by rw [exec_setAutosleep _ _ h, ht]; rfl⟩

theorem exec_setAutosleep_next {enabled : Bool} {keep : Time} {s t : State} (h : exec (.setAutosleep enabled keep) s = .next t) :
    t.result = .setAutosleep ∧ ∃ calls,
      AutosleepCalls s.cfg { s.blk with autosleepEnabled := enabled, keepAwakeDuration := keep } calls
        ∧ Answered (standbyPin s.blk) { s.blk with autosleepEnabled := enabled, keepAwakeDuration := keep } s t calls := by
  rw [exec_setAutosleep _ _ (exec_idle h)] at h
  obtain ⟨u, hu, rfl⟩ := map_ok (outcomeOf_next h)
  obtain ⟨calls, hcalls, hone⟩ := maybeAutosleepOp_spec hu
  exact ⟨rfl, calls, hcalls, hone.answered_of_written rfl rfl ((maybeAutosleepOp_keepsQueue hu hone.ran.history).mono (by omega))
    (·.maybeAutosleepOp hu) _⟩

theorem exec_setStbyPin_answers (ctrl : Bool) (p : PinNum) {s : State} (h : s.seq = .idle) :
    ∃ t m, exec (.setStbyPin ctrl p) s = .next t ∧ t.result = .setStbyPin
      ∧ Answered (some (if ctrl then .ctrl else .host, p))
          { s.blk with stbyPinRoute := if ctrl then .ctrl else .host, stbyPinNumber := p } s t
          [.setPinMode (if ctrl then .ctrl else .host) p .output, .getMode m,
            .digitalWrite (if ctrl then .ctrl else .host) p (levelFor s.cfg m)] := by
  obtain ⟨m, hone⟩ := setStbyPinOp_spec ctrl p (beginOp 0x9#4 s)
  have hqueue := (setStbyPinOp_holds ctrl p (beginOp 0x9#4 s)).keepsQueue (kinds := [.pinMode, .mode, .write])
    (calls := [.setPinMode (if ctrl then .ctrl else .host) p .output, .getMode m,
      .digitalWrite (if ctrl then .ctrl else .host) p (levelFor s.cfg m)]) (by simp [OfKinds, kindOf]) (by decide)
  exact ⟨_, m, by simp only [exec, execSetStbyPin, whenIdle_idle h], rfl, hone.answered_of_written rfl rfl
    (hqueue.mono (by omega)) (fun hs => PinsFormed.setStbyPinOp (s := beginOp 0x9#4 s) hs ctrl p) _⟩

end Sys2Proof.Machine
end

section
/-! PROOFS. What the calls of SLEEP and MAYBE_AUTOSLEEP tell of the mode and of the standby pin (spec/42_power_controller.md R136, R141,
R148; spec/60_exceptions.md R204 to R208). -/

namespace Sys2Proof.Machine

/-! ### The mode told by the calls -/

/-- Every `P.getMode` among some calls is answered the mode the calls before it leave. -/
def ModeTold : Mode → List Call → Prop
  | _, [] => True
  | m, c :: rest => (∀ a, c = .getMode a → a = m) ∧ ModeTold (modeAfterCall m c) rest

theorem modeTold_append (m : Mode) (c d : List Call) :
    ModeTold m (c ++ d) ↔ ModeTold m c ∧ ModeTold (modeAfterCalls m c) d := by
  induction c generalizing m with
  | nil => simp [ModeTold, modeAfterCalls]
  | cons x rest ih =>
    simp only [List.cons_append, ModeTold, ih, and_assoc]
    rfl

theorem modeTold_of_answers {m : Mode} {calls : List Call}
    (h : ∀ k a, calls[k]? = some (.getMode a) → a = modeAfterCalls m (calls.take k)) : ModeTold m calls := by
  induction calls generalizing m with
  | nil => trivial
  | cons c rest ih => exact ⟨fun a ha => h 0 a (congrArg some ha), ih fun k a hk => h (k + 1) a hk⟩

/-- Where no self-wake happens in the turns of some calls, what `P.getMode` answers among them is the mode (60_exceptions.md R208). -/
theorem Tracked.modeTold {cfg : Cfg} {e e' : Env} {calls : List Call} (h : Tracked cfg e e' calls)
    (hquiet : NoSelfWake cfg e calls.length) : ModeTold e.mode calls := by
  refine modeTold_of_answers fun k a hk => (h.answers k a hk).2 (hquiet.mono ?_)
  have := (List.getElem?_eq_some_iff.1 hk).choose
  omega

/-- SLEEP leaves the mode its result tells (42_power_controller.md R136). -/
theorem SleepCalls.modeAfterCalls {cfg : Cfg} {b : Block} {r : Result} {calls : List Call} (h : SleepCalls cfg b r calls) {m : Mode}
    (htold : ModeTold m calls) : modeAfterCalls m calls = if r = .ok then .sleeping else .awake := by
  rcases h with ⟨rfl, rfl⟩ | ⟨rfl, rfl⟩ | ⟨rfl, rfl⟩
  · exact (htold.1 _ rfl).symm
  · rfl
  · rw [modeAfterCalls_append, modeAfterCalls_pinCalls]
    rfl

/-- A failed SLEEP asked the mode and was answered Awake (42_power_controller.md R136). -/
theorem SleepCalls.awake_of_fail {cfg : Cfg} {b : Block} {calls : List Call} (h : SleepCalls cfg b .fail calls) (m : Mode) :
    Machine.modeAfterCalls m calls = .awake := by
  rcases h with ⟨hr, -⟩ | ⟨-, rfl⟩ | ⟨hr, -⟩
  · cases hr
  · rfl
  · cases hr

/-! ### The pin driven by the calls -/

theorem SleepCalls.pinsDriven_after {cfg : Cfg} {b : Block} {r : Result} {before calls : List Call} {e : Env} {t : State}
    (h : SleepCalls cfg b r calls) (hbefore : ∀ space p level, .digitalWrite space p level ∉ before)
    (hpins : PinsFollow e t.env (before ++ calls)) : PinsDriven t (before ++ calls) := by
  rcases h with ⟨-, rfl⟩ | ⟨-, rfl⟩ | ⟨-, rfl⟩
  · simp [PinsDriven, hbefore]
  · simp [PinsDriven, hbefore]
  · rw [← List.append_assoc] at hpins ⊢
    exact hpins.pinsDriven (by simp [hbefore])

theorem AutosleepCalls.pinsDriven {cfg : Cfg} {b : Block} {calls : List Call} {e : Env} {t : State}
    (h : AutosleepCalls cfg b calls) (hpins : PinsFollow e t.env calls) : PinsDriven t calls := by
  rcases h with ⟨-, rfl⟩ | ⟨-, rfl⟩ | ⟨-, n, -, rfl⟩ | ⟨-, n, r, rest, -, hsleep, rfl⟩
  · simp [PinsDriven]
  · simp [PinsDriven]
  · simp [PinsDriven]
  · exact hsleep.pinsDriven_after (by simp) hpins

/-! ### The agreement of a pin with the mode -/

/-- Some calls keep a pin at the level of the mode (42_power_controller.md R148). -/
def KeepsAgreement (cfg : Cfg) (pin : PinSpace × PinNum) (calls : List Call) : Prop :=
  ∀ (m : Mode) (v : Pin), ModeTold m calls → v.level = levelFor cfg m →
    (pinAfterCalls pin.1 pin.2 v calls).level = levelFor cfg (modeAfterCalls m calls)

theorem KeepsAgreement.nil (cfg : Cfg) (pin : PinSpace × PinNum) : KeepsAgreement cfg pin [] := fun _ _ _ h => h

theorem KeepsAgreement.append {cfg : Cfg} {pin : PinSpace × PinNum} {c d : List Call} (hc : KeepsAgreement cfg pin c)
    (hd : KeepsAgreement cfg pin d) : KeepsAgreement cfg pin (c ++ d) := by
  intro m v htold hv
  obtain ⟨hc', hd'⟩ := (modeTold_append m c d).1 htold
  rw [pinAfterCalls_append, modeAfterCalls_append]
  exact hd _ _ hd' (hc m v hc' hv)

/-- A call that sets no mode and no pin before the others. -/
theorem KeepsAgreement.cons {cfg : Cfg} {pin : PinSpace × PinNum} {c : Call} {calls : List Call}
    (h : KeepsAgreement cfg pin calls) (hmode : ∀ m, modeAfterCall m c = m)
    (hpin : ∀ v, pinAfterCall pin.1 pin.2 v c = v) : KeepsAgreement cfg pin (c :: calls) := by
  intro m v htold hv
  have := h m v (hmode m ▸ htold.2) hv
  simpa only [pinAfterCalls, modeAfterCalls, List.foldl_cons, hmode, hpin] using this

/-- A `P.getMode` that tells the mode moves nothing. -/
theorem keepsAgreement_getMode (cfg : Cfg) (pin : PinSpace × PinNum) (a : Mode) : KeepsAgreement cfg pin [.getMode a] := by
  intro m v htold hv
  obtain rfl := htold.1 a rfl
  cases a <;> exact hv

theorem SleepCalls.keepsAgreement {cfg : Cfg} {b : Block} {r : Result} {calls : List Call} {pin : PinSpace × PinNum}
    (h : SleepCalls cfg b r calls) (hpin : standbyPin b = some pin) : KeepsAgreement cfg pin calls := by
  intro m v htold hv
  rw [h.modeAfterCalls htold]
  rcases h with ⟨rfl, rfl⟩ | ⟨rfl, rfl⟩ | ⟨rfl, rfl⟩
  · obtain rfl := htold.1 _ rfl
    exact hv
  · obtain rfl := htold.1 _ rfl
    exact hv
  · rw [pinAfterCalls_append, pinAfterCalls_pinCalls hpin]
    rfl

theorem WakeCalls.keepsAgreement {cfg : Cfg} {b : Block} {n : Time} {r : Result} {calls : List Call} {pin : PinSpace × PinNum}
    (h : WakeCalls cfg b n r calls) (hpin : standbyPin b = some pin) : KeepsAgreement cfg pin calls := by
  intro m v _ hv
  rw [h.modeAfterCalls]
  subst h
  cases r with
  | ok =>
    rw [if_pos rfl, pinAfterCalls_append, pinAfterCalls_pinCalls hpin]
    rfl
  | fail => exact hv

theorem AutosleepCalls.keepsAgreement {cfg : Cfg} {b : Block} {calls : List Call} {pin : PinSpace × PinNum}
    (h : AutosleepCalls cfg b calls) (hpin : standbyPin b = some pin) : KeepsAgreement cfg pin calls := by
  have hnow : ∀ a n rest, KeepsAgreement cfg pin rest → KeepsAgreement cfg pin ([.checkReceiveAvailable a, .now n] ++ rest) :=
    fun _ _ _ hrest => (hrest.cons (fun _ => rfl) fun _ => rfl).cons (fun _ => rfl) fun _ => rfl
  rcases h with ⟨-, rfl⟩ | ⟨-, rfl⟩ | ⟨-, n, -, rfl⟩ | ⟨-, n, r, rest, -, hsleep, rfl⟩
  · exact .nil cfg pin
  · exact (KeepsAgreement.nil cfg pin).cons (fun _ => rfl) fun _ => rfl
  · exact hnow _ _ _ (.nil cfg pin)
  · exact hnow _ _ _ (hsleep.keepsAgreement hpin)

/-! ### The obligations -/

/-- Settles O16: SLEEP's calls tell its mode and drive its pin last. -/
theorem sleepResult : Obligations.SleepResult := by
  refine ⟨fun _ => rfl, fun s hidle => ?_⟩
  obtain ⟨t, r, calls, hexec, hresult, hcalls, hdone⟩ := exec_sleep_answers hidle
  have htracked := hdone.tracked
  refine ⟨t, r, calls, hexec, hresult, hdone.made, hcalls, hdone.regs, hdone.flag, hdone.outside, hdone.pins,
    hcalls.pinsDriven_after (before := []) (by simp) htracked.pins, fun hfail => ?_, fun hquiet => ?_⟩
  · subst hfail
    exact htracked.awake (hcalls.awake_of_fail _)
  · exact (htracked.mode hquiet).trans (hcalls.modeAfterCalls (htracked.modeTold hquiet))

/-- Settles O19: MAYBE_AUTOSLEEP's calls tell its mode and drive its pin last. -/
theorem maybeAutosleepResult : Obligations.MaybeAutosleepResult := by
  refine ⟨fun _ => rfl, fun s hidle hsum => ?_⟩
  obtain ⟨t, hexec⟩ := exec_maybeAutosleep_completes hidle hsum
  obtain ⟨hresult, calls, hcalls, hdone⟩ := exec_maybeAutosleep_next hexec
  exact ⟨t, calls, hexec, hresult, hdone.made, hcalls, hdone.regs, hdone.flag, hdone.outside, hdone.pins,
    hcalls.pinsDriven hdone.tracked.pins, hdone.tracked.mode⟩

/-- Settles O20: both policy registers are written before MAYBE_AUTOSLEEP runs on them. -/
theorem setAutosleepResult : Obligations.SetAutosleepResult := by
  refine ⟨fun _ => rfl, fun enabled keep s hidle hsum => ?_⟩
  obtain ⟨t, hexec⟩ := exec_setAutosleep_completes hidle hsum
  obtain ⟨hresult, calls, hcalls, hdone⟩ := exec_setAutosleep_next hexec
  exact ⟨t, calls, hexec, hresult, hdone.made, hcalls, hdone.regs, hdone.flag, hdone.outside, hdone.pins,
    hcalls.pinsDriven hdone.tracked.pins, hdone.tracked.mode⟩

/-- Settles O21: the one call before the sum is formed is answered not available. -/
theorem autosleepRefusesWrappingSum : Obligations.AutosleepRefusesWrappingSum := by
  intro s hidle henabled hwraps hcalm hempty
  have hqueue : (envSteps (beginOp 0x7#4 s)).env.rxQueue = [] := by
    obtain ⟨-, -, -, -, hqueue⟩ := envSteps_holds (beginOp 0x7#4 s) 0 hcalm
    exact hqueue.trans hempty
  have hnone : (checkReceiveAvailable (beginOp 0x7#4 s)).1 = false := by simp [checkReceiveAvailable, hqueue]
  have hsum : keepAwakeWraps (now (checkReceiveAvailable (beginOp 0x7#4 s)).2).2.blk = true := decide_eq_true hwraps
  have herror : maybeAutosleepOp (beginOp 0x7#4 s) = .error .keepAwakeSumWraps := by
    simp [maybeAutosleepOp, henabled, hnone, hsum]
  rw [exec_maybeAutosleep hidle, herror]
  rfl

/-- Settles O22: the pin is made an output, then driven to the level of the mode answered. -/
theorem setStbyPinResult : Obligations.SetStbyPinResult := by
  refine ⟨fun _ => rfl, fun ctrl p s hidle => ?_⟩
  obtain ⟨t, m, hexec, hresult, hdone⟩ := exec_setStbyPin_answers ctrl p hidle
  obtain ⟨hawake, hquiet⟩ := hdone.tracked.answers 1 m rfl
  have hpin := hdone.tracked.pins (if ctrl then .ctrl else .host) p
  refine ⟨t, m, hexec, hresult, hdone.made, fun hsleeping => ?_, hquiet, hdone.regs, ?_, ?_, hdone.pins, hdone.flag, hdone.outside⟩
  · by_contra hmode
    exact Mode.noConfusion ((hawake (mode_ne_sleeping hmode)).symm.trans hsleeping)
  · simp [pinDirection, hpin, pinAfterCalls, pinAfterCall]
  · simp [pinLevel, hpin, pinAfterCalls, pinAfterCall, levelFor, activeLevel]

/-- Settles O23: the mode the first SLEEP leaves is the mode the second is answered. -/
theorem secondSleepOnlyAsksMode : Obligations.SecondSleepOnlyAsksMode := by
  intro s t calls hexec hmade hok hquiet
  obtain ⟨t', r, calls', hexec', hresult, hcalls, hdone⟩ := exec_sleep_answers (exec_idle hexec)
  cases hexec.symm.trans hexec'
  obtain rfl := hmade.unique hdone.made
  obtain rfl : r = .ok := OpResult.sleep.inj (hresult.symm.trans hok)
  obtain ⟨hfirst, hsecond⟩ := hquiet.split hdone.timed
  have hmode : t.env.mode = .sleeping :=
    (hdone.tracked.mode hfirst).trans (hcalls.modeAfterCalls (hdone.tracked.modeTold hfirst))
  have hplain := isSleepingOp_plain (beginOp 0x4#4 t)
  have hasked : (isSleepingOp (beginOp 0x4#4 t)).2.env.mode = .sleeping :=
    (envSteps_mode (s := beginOp 0x4#4 t) (hdone.outside.cfg ▸ hsecond)).trans hmode
  have hsleep : sleepOp (beginOp 0x4#4 t) = (.ok, (isSleepingOp (beginOp 0x4#4 t)).2) := by
    rcases sleepOp_cases (beginOp 0x4#4 t) with ⟨-, h⟩ | ⟨hawake, -⟩ | ⟨hawake, -⟩
    · exact h
    · exact Mode.noConfusion (hawake.symm.trans hasked)
    · exact Mode.noConfusion (hawake.symm.trans hasked)
  rw [hasked] at hplain
  refine ⟨finish (.sleep .ok) (isSleepingOp (beginOp 0x4#4 t)).2, ?_, rfl, hplain.ran.history, hplain.pins⟩
  simp only [exec, execSleep, whenIdle_idle hdone.outside.seq, hsleep]

end Sys2Proof.Machine
end

section
/-! PROOFS. SEND (spec/43_link_driver.md R160 to R164): when it completes, the calls it makes and what it leaves alone. -/

namespace Sys2Proof.Machine

/-! ### The stretches of SEND -/

theorem Woke.trans_onePin {n : Time} {s t u : State} {c d : List Call} (h : Woke (standbyPin s.blk) n s t c)
    (h' : OnePin (standbyPin t.blk) t u d) : Woke (standbyPin s.blk) n s u (c ++ d) := by
  rw [h.regs.standbyPin] at h'
  exact h.onePin h'

theorem AutosleepCalls.of_sameRegisters {cfg : Cfg} {b c : Block} {calls : List Call} (h : AutosleepCalls cfg c calls)
    (hbc : SameRegisters b c) : AutosleepCalls cfg b calls := by
  rw [hbc] at h
  exact h

/-- The handshake's delay lasts as configured (43_link_driver.md R162, 60_exceptions.md R199). -/
theorem handshakeOp_delay {s t : State} (h : handshakeOp s = .ok (true, t)) (henabled : s.cfg.wakeupHsEnabled = true) :
    s.env.clock.toNat + s.cfg.wakeupHsDelay.toNat ≤ t.env.clock.toNat := by
  rcases handshakeOp_cases h with ⟨hoff, -⟩ | ⟨-, -, hr⟩ | ⟨-, -, u, hdelay, hr⟩
  · exact absurd henabled (by simp [hoff])
  · cases hr
  · cases hr
    have hframe := (sendFrame_plain s.cfg.hsId s.cfg.hsExt 1 [s.cfg.hsByte] s).ran.clock
    have hlasts := (delay_plain hdelay).2.1
    omega

theorem HandshakeCalls.delay_mem {cfg : Cfg} {sent : Bool} {calls : List Call} (h : HandshakeCalls cfg sent calls) {d : Time}
    (hd : Call.delay d ∈ calls) : sent = true ∧ cfg.wakeupHsEnabled = true ∧ d = cfg.wakeupHsDelay := by
  rcases h with ⟨-, -, rfl⟩ | ⟨-, -, rfl⟩ | ⟨hon, hsent, rfl⟩
  · simp at hd
  · simp at hd
  · exact ⟨hsent, hon, by simpa using hd⟩

/-- S2 to S7 of SEND: its calls in order, that it writes no register but the timestamp and no pin but the standby pin, and that it lasts
at least the delay among its calls (43_link_driver.md R160, R162). -/
theorem transmitOp_spec {id : IdWord} {length : LenField} {payload : Payload} {s : State} {r : Bool × State}
    (h : transmitOp id length payload s = .ok r) :
    ∃ calls, SendCalls s.cfg s.blk (now s).1 id length payload r.1 calls ∧ Woke (standbyPin s.blk) (now s).1 s r.2 calls
      ∧ ∀ d, .delay d ∈ calls → d = s.cfg.wakeupHsDelay ∧ s.env.clock.toNat + d.toNat ≤ r.2.env.clock.toNat := by
  obtain ⟨wake, hwake, hwoke⟩ := wakeOp_spec s
  have hcfg := hwoke.ran.cfg
  have hundelayed : ∀ d, .delay d ∉ wake := fun d => hwake.kinds.1.not_mem (by simp [kindOf])
  rcases transmitOp_cases h with ⟨t, ht, rfl⟩ | ⟨t, ht, hr⟩
  · obtain ⟨hs, hhs, hplain⟩ := handshakeOp_spec ht
    rw [hcfg] at hhs
    refine ⟨_, ⟨_, wake, hs, hwake, .inl ⟨hhs, rfl, rfl⟩⟩, hwoke.trans_onePin (hplain.onePin _), fun d hd => ?_⟩
    have hsent := (hhs.delay_mem ((List.mem_append.1 hd).resolve_left (hundelayed d))).1
    cases hsent
  · obtain ⟨hs, hhs, hplain⟩ := handshakeOp_spec ht
    have hshaken := hwoke.trans_onePin (hplain.onePin _)
    obtain ⟨answer, rest, hsuccess, hrest, hreal⟩ := sendRealFrame_spec hr
    rw [hshaken.ran.cfg] at hrest
    rw [hcfg] at hhs
    refine ⟨_, ⟨_, wake, hs, hwake, .inr ⟨answer, rest, hhs, hrest.of_sameRegisters hshaken.regs, hsuccess, rfl⟩⟩, ?_,
      fun d hd => ?_⟩
    · rw [List.append_assoc]
      exact hshaken.trans_onePin hreal
    · have hrested : .delay d ∉ rest := hrest.kinds.1.not_mem (by simp [kindOf])
      have hmem : .delay d ∈ hs := by simpa [hundelayed d, hrested] using hd
      obtain ⟨-, hon, rfl⟩ := hhs.delay_mem hmem
      have hwaited := handshakeOp_delay ht (hcfg ▸ hon)
      rw [hcfg] at hwaited
      have hwoken := hwoke.ran.clock
      have hsent := hreal.ran.clock
      exact ⟨rfl, by omega⟩

/-! ### The command -/

theorem exec_send {type : BitVec 8} {target source : BitVec 32} {port : BitVec 8} {length : LenField} {payload : Payload} {s : State}
    (h : s.seq = .idle) (hlength : length.toNat ≤ 8) :
    exec (.send type target source port length payload) s
      = outcomeOf ((sendOp type target source port length payload (beginOp 0xA#4 s)).map fun r => finish (.send r.1) r.2) := by
  have hcontract : lengthInContract length = true := decide_eq_true hlength
  simp only [exec, execSend, whenIdle_idle h, if_pos hcontract]

theorem sendOp_of_outOfRange {type : BitVec 8} {target source : BitVec 32} {port : BitVec 8} (h : OutOfRange type target source port)
    (length : LenField) (payload : Payload) (s : State) : sendOp type target source port length payload s = .ok (false, s) := by
  simp [sendOp, encodeAddress_of_outOfRange h]

theorem sendOp_of_not_outOfRange {type : BitVec 8} {target source : BitVec 32} {port : BitVec 8}
    (h : ¬ OutOfRange type target source port) (length : LenField) (payload : Payload) (s : State) :
    sendOp type target source port length payload s = transmitOp (addressSum type target source port) length payload s := by
  simp [sendOp, encodeAddress_of_not_outOfRange h]

theorem exec_send_of_outOfRange {type : BitVec 8} {target source : BitVec 32} {port : BitVec 8} {length : LenField}
    {payload : Payload} {s : State} (h : s.seq = .idle) (hlength : length.toNat ≤ 8) (hout : OutOfRange type target source port) :
    exec (.send type target source port length payload) s = .next { s with result := .send false } := by
  rw [exec_send h hlength, sendOp_of_outOfRange hout, ← finish_beginOp 0xA#4 _ h]
  rfl

theorem exec_send_completes {type : BitVec 8} {target source : BitVec 32} {port : BitVec 8} {length : LenField} {payload : Payload}
    {s : State} (h : s.seq = .idle) (hlength : length.toNat ≤ 8) (hin : ¬ OutOfRange type target source port)
    (hsum : AutosleepDefinedAfterWake s) (hdelay : DelayDefined s) :
    ∃ t, exec (.send type target source port length payload) s = .next t := by
  obtain ⟨r, hr⟩ := transmitOp_ok (s := beginOp 0xA#4 s) ((autosleepDefinedAfterWake_beginOp _ s).2 hsum) hdelay
    (addressSum type target source port) length payload
  exact ⟨_, by rw [exec_send h hlength, sendOp_of_not_outOfRange hin, hr]; rfl⟩

/-- A SEND that answers was given a length in contract, and did nothing on an address out of range, else what SEND does. -/
theorem exec_send_next {type : BitVec 8} {target source : BitVec 32} {port : BitVec 8} {length : LenField} {payload : Payload}
    {s t : State} (h : exec (.send type target source port length payload) s = .next t) :
    (OutOfRange type target source port ∧ t = { s with result := .send false })
      ∨ ¬ OutOfRange type target source port ∧ ∃ success calls, t.result = .send success
        ∧ SendCalls s.cfg s.blk (now s).1 (addressSum type target source port) length payload success calls
        ∧ Answered (standbyPin s.blk) { s.blk with lastActivityTimestamp := (now s).1 } s t calls
        ∧ ∀ d, .delay d ∈ calls → d = s.cfg.wakeupHsDelay ∧ s.env.clock.toNat + d.toNat ≤ t.env.clock.toNat := by
  have hidle := exec_idle h
  have hlength : length.toNat ≤ 8 := by
    by_contra hlong
    have hout : lengthInContract length = false := decide_eq_false hlong
    simp [exec, execSend, whenIdle_idle hidle, hout] at h
  by_cases hrange : OutOfRange type target source port
  · rw [exec_send_of_outOfRange hidle hlength hrange] at h
    cases h
    exact .inl ⟨hrange, rfl⟩
  · rw [exec_send hidle hlength, sendOp_of_not_outOfRange hrange] at h
    obtain ⟨r, hr, rfl⟩ := map_ok (outcomeOf_next h)
    obtain ⟨calls, hcalls, hwoke, hdelay⟩ := transmitOp_spec hr
    rw [now_beginOp] at hcalls hwoke
    exact .inr ⟨hrange, r.1, calls, rfl, hcalls, hwoke.answered (transmitOp_keepsQueue hr hwoke.ran.history)
      (·.transmitOp hr) _, hdelay⟩

/-! ### What SEND sees of the payload -/

theorem meaningfulBytes_congr {length : LenField} {p q : Payload} (h : SameMeaningful length p q) :
    meaningfulBytes length.toNat p = meaningfulBytes length.toNat q := by
  unfold meaningfulBytes
  apply List.ext_getElem
  · simp
  · intro i hp hq
    simp only [List.length_take, Vector.length_toList] at hp
    simpa using h ⟨i, by omega⟩ (by simp only; omega)

theorem sendOp_congr (type : BitVec 8) (target source : BitVec 32) (port : BitVec 8) {length : LenField} {p q : Payload} (s : State)
    (h : SameMeaningful length p q) :
    sendOp type target source port length p s = sendOp type target source port length q s := by
  simp only [sendOp, transmitOp, sendRealFrame, meaningfulBytes_congr h]

/-! ### The obligations -/

/-- Settles O26: an address that encodes is transmitted where its sums are defined. -/
theorem sendResult : Obligations.SendResult := by
  refine ⟨fun _ => rfl, fun type target source port length payload s hidle hlength =>
    ⟨exec_send_of_outOfRange hidle hlength, fun hin hsum hdelay => ?_⟩⟩
  obtain ⟨t, hexec⟩ := exec_send_completes (payload := payload) hidle hlength hin hsum hdelay
  obtain ⟨hout, -⟩ | ⟨-, success, calls, hresult, hcalls, hdone, -⟩ := exec_send_next hexec
  · exact absurd hout hin
  · exact ⟨t, success, (now s).1, calls, hexec, hresult, le_now s, hdone.made, hcalls, hdone.regs, hdone.flag, hdone.outside,
      hdone.pins, hdone.tracked.pins⟩

/-- Settles O27: the length is looked at before the address. -/
theorem sendRefusesLongLength : Obligations.SendRefusesLongLength := by
  intro type target source port length payload s hidle hlong
  have hout : lengthInContract length = false := decide_eq_false (Nat.not_le.2 hlong)
  simp [exec, execSend, whenIdle_idle hidle, hout]

/-- Settles O28: the real frame takes the meaningful bytes, and nothing else looks at the payload. -/
theorem sendSeesMeaningfulBytesOnly : Obligations.SendSeesMeaningfulBytesOnly := by
  intro type target source port length p q s h
  simp only [exec, execSend, sendOp_congr _ _ _ _ _ h]

/-- Settles O29: the delay is the handshake's, and the clock does not go back before or after it. -/
theorem sendDelayIsLowerBound : Obligations.SendDelayIsLowerBound := by
  intro type target source port length payload s t calls d hexec hmade hd
  obtain ⟨-, rfl⟩ | ⟨-, success, calls', -, -, hdone, hdelay⟩ := exec_send_next hexec
  · obtain rfl : calls = [] := hmade.unique (List.append_nil _).symm
    cases hd
  · obtain rfl := hmade.unique hdone.made
    exact hdelay d hd

end Sys2Proof.Machine
end

section
/-! PROOFS. RECEIVE (spec/43_link_driver.md R166 to R170): when it completes, the calls it makes, what they answer while the environment
holds still, and what it leaves alone. -/

namespace Sys2Proof.Machine

/-! ### Step R1 -/

/-- R1 of RECEIVE: its calls, the registers it leaves, and the flag an asserted line leaves set (43_link_driver.md R168). -/
theorem consumeActivity_calls (s : State) :
    ∃ b1 line calls, ActivityCalls s.cfg s.blk b1 line calls ∧ Ran s (consumeActivity s) calls
      ∧ SameRegisters b1 (consumeActivity s).blk ∧ PinsKeptBut (standbyPin s.blk) s (consumeActivity s)
      ∧ (s.seq ≠ .idle → line = some false → (consumeActivity s).blk.activitySignal = true)
      ∧ (s.blk.activitySignal = true → line = some (envSteps (wakeOp s).2).env.intLine) := by
  cases h : s.blk.activitySignal with
  | false =>
    rw [consumeActivity_clear h]
    exact ⟨s.blk, none, [], .inl ⟨h, rfl, rfl, rfl⟩, .refl s, rfl, fun _ _ _ => rfl, nofun, nofun⟩
  | true =>
    obtain ⟨r, wake, line, hwake, hran, hregs, hpins, -, hflag, hline⟩ := consumeActivity_spec h
    refine ⟨_, some line, _, .inr ⟨h, (now s).1, r, wake, line, hwake, rfl, rfl, rfl⟩, hran, hregs, hpins, fun hbusy hlow => ?_,
      fun _ => congrArg some hline⟩
    rw [hflag hbusy, Option.some.inj hlow]
    rfl

theorem ActivityCalls.standbyPin {cfg : Cfg} {b b1 : Block} {line : Option Bool} {calls : List Call}
    (h : ActivityCalls cfg b b1 line calls) : Machine.standbyPin b1 = Machine.standbyPin b := by
  rcases h with ⟨-, rfl, -, -⟩ | ⟨-, n, r, wake, l, -, rfl, -, -⟩ <;> rfl

/-- What R1 of RECEIVE does while the environment holds still: the line sampled is the line as it stood, the flag is kept exactly by an
asserted one, and the clock and the queue are as they were (43_link_driver.md R168). -/
theorem consumeActivity_calm {s : State} {n : Nat} (h : calm s (n + 4)) :
    calm (consumeActivity s) n ∧ (consumeActivity s).env.rxQueue = s.env.rxQueue
      ∧ (consumeActivity s).blk.activitySignal = (s.blk.activitySignal && !s.env.intLine)
      ∧ (envSteps (wakeOp s).2).env.intLine = s.env.intLine := by
  obtain ⟨hwoken, -, hline, hflag, hqueue⟩ := wakeOp_holds s (n + 1) h
  obtain ⟨-, -, hline', hflag', -⟩ := envSteps_holds (wakeOp s).2 n hwoken
  obtain ⟨hsampled, hqueue'⟩ := sampleAndClear_queue hwoken
  refine ⟨?_, ?_, ?_, hline'.trans hline⟩
  all_goals cases hset : s.blk.activitySignal
  case refine_1.false => rw [consumeActivity_clear hset]; exact calm_mono h (by omega)
  case refine_1.true => rwa [consumeActivity_set hset]
  case refine_2.false => rw [consumeActivity_clear hset]
  case refine_2.true => rw [consumeActivity_set hset, hqueue', hqueue]
  case refine_3.false => rw [consumeActivity_clear hset, hset]; rfl
  case refine_3.true =>
    have hsample : (sampleAndClear (wakeOp s).2).blk.activitySignal
        = flagAfterSample (envSteps (wakeOp s).2).env.intLine (envSteps (wakeOp s).2).blk.activitySignal := rfl
    rw [consumeActivity_set hset, hsample, hline', hline, hflag', hflag, hset]
    cases s.env.intLine <;> rfl

/-! ### Steps R2 to R6 -/

/-- The ways steps R2 to R6 of RECEIVE can go on the registers `b`: `got`, the registers they leave, and their calls (43_link_driver.md R166,
R167, R169): nothing available and the autosleep check; a read error; a frame, delivered unchecked with the filter off; a frame,
checked. -/
inductive Polled (cfg : Cfg) (b : Block) : Bool → Block → List Call → Prop where
  | nothing {rest : List Call} (h : AutosleepCalls cfg b rest) : Polled cfg b false b ([.checkReceiveAvailable false] ++ rest)
  | readError : Polled cfg b false b [.checkReceiveAvailable true, .readFrame none]
  | unchecked (f : Frame) (off : cfg.dupFilterEnabled = false) :
      Polled cfg b true b [.checkReceiveAvailable true, .readFrame (some f)]
  | checked (f : Frame) (n : Time) {got : Bool} (on : cfg.dupFilterEnabled = true)
      (ground : got = true ↔ AcceptGround cfg b n f.identifier (frameLength f) f.payload) :
      Polled cfg b got (checkedBlock got b n f.identifier (frameLength f) f.payload)
        [.checkReceiveAvailable true, .readFrame (some f), .now n]

/-- The packet of a frame: DECODE's fields, the frame's length, and its meaningful bytes (43_link_driver.md R170). -/
def PacketHolds (f : Frame) (packet : Packet) : Prop :=
  packet.addr = decodeAddress f.identifier ∧ packet.length = BitVec.ofNat 4 f.length
    ∧ ∀ i : Fin 8, i.val < f.length.val → packet.payload[i] = f.payload[i]

theorem packetOf_holds (f : Frame) (s : State) : PacketHolds f (packetOf f s) :=
  ⟨rfl, rfl, fun i hi => (overlay_getElem _ _ _ i.val i.isLt).trans (if_pos hi)⟩

theorem SameRegisters.checkedBlock {b c : Block} (h : SameRegisters b c) (got : Bool) (n : Time) (id : IdWord) (length : LenField)
    (payload : Payload) : SameRegisters (checkedBlock got b n id length payload) (checkedBlock got c n id length payload) := by
  rw [h]
  cases got <;> rfl

/-- The poll reads none of the registers the environment may write. -/
theorem Polled.of_sameRegisters {cfg : Cfg} {b c c' : Block} {got : Bool} {calls : List Call} (h : Polled cfg c got c' calls)
    (hbc : SameRegisters b c) : ∃ b', Polled cfg b got b' calls ∧ SameRegisters b' c' := by
  cases h with
  | nothing h => exact ⟨b, .nothing (h.of_sameRegisters hbc), hbc⟩
  | readError => exact ⟨b, .readError, hbc⟩
  | unchecked f off => exact ⟨b, .unchecked f off, hbc⟩
  | checked f n on ground =>
    exact ⟨_, .checked f n on (ground.trans (acceptGround_congr hbc _ _ _ _)), hbc.checkedBlock _ _ _ _ _⟩

/-- What steps R2 to R6 of RECEIVE did before the packet's number was used up: their calls, the first of them and, if that was answered
available, the second, the registers `b` they left but for the flag, and what they leave alone. -/
structure PollRan (s u : State) (got : Bool) (packet : Packet) (b : Block) (calls : List Call) : Prop where
  polled : Polled s.cfg s.blk got b calls
  ran : Ran s u calls
  regs : SameRegisters b u.blk
  flag : FlagRan s u
  pins : PinsKeptBut (standbyPin s.blk) s u
  packet : ∀ f, got = true → .readFrame (some f) ∈ calls → PacketHolds f packet
  first : calls[0]? = some (.checkReceiveAvailable (checkReceiveAvailable s).1)
  second : (checkReceiveAvailable s).1 = true → calls[1]? = some (.readFrame (readFrame (checkReceiveAvailable s).2).1)
  asked : calm s 2 → ∀ a, .checkReceiveAvailable a ∈ calls → a = !s.env.rxQueue.isEmpty

/-- The poll with nothing available. -/
theorem pollRan_nothing {s t : State} (ha : (checkReceiveAvailable s).1 = false)
    (ht : maybeAutosleepOp (checkReceiveAvailable s).2 = .ok t) (packet : Packet) :
    ∃ b calls, PollRan s t false packet b calls := by
  have hcheck := checkReceiveAvailable_plain s
  obtain ⟨rest, hrest, hone⟩ := maybeAutosleepOp_spec ht
  rw [ha] at hcheck
  rw [hcheck.regs.standbyPin] at hone
  obtain ⟨hran, hregs, hflag, hpins, -⟩ := (hcheck.onePin _).trans hone
  refine ⟨_, _, .nothing (hrest.of_sameRegisters hcheck.regs), hran, hregs, hflag, hpins, nofun, by rw [ha]; rfl, by simp [ha],
    fun hcalm a hmem => ?_⟩
  rcases List.mem_cons.1 hmem with h | h
  · cases h
    rw [← checkReceiveAvailable_calm (calm_mono hcalm (by omega)), ha]
  · obtain ⟨hcalm', -, -, -, hqueue⟩ := checkReceiveAvailable_holds s 1 hcalm
    rw [← hqueue, ← checkReceiveAvailable_calm hcalm']
    exact maybeAutosleepOp_available ht hone.ran.history h

/-- The poll with a message available. -/
theorem pollRan_available {s u : State} {got : Bool} {packet : Packet} {b : Block} {rest : List Call}
    (ha : (checkReceiveAvailable s).1 = true)
    (hpolled : Polled s.cfg s.blk got b
      ([.checkReceiveAvailable true, .readFrame (readFrame (checkReceiveAvailable s).2).1] ++ rest))
    (hran : Ran (readFrame (checkReceiveAvailable s).2).2 u rest) (hregs : SameRegisters b u.blk)
    (hflag : FlagRan (readFrame (checkReceiveAvailable s).2).2 u) (hpins : PinsKept (readFrame (checkReceiveAvailable s).2).2 u)
    (hpacket : ∀ f, got = true → (readFrame (checkReceiveAvailable s).2).1 = some f → PacketHolds f packet)
    (hrest : OfKinds [.now] rest) :
    PollRan s u got packet b
      ([.checkReceiveAvailable true, .readFrame (readFrame (checkReceiveAvailable s).2).1] ++ rest) := by
  have hboth := (checkReceiveAvailable_plain s).trans (readFrame_plain (checkReceiveAvailable s).2)
  rw [ha] at hboth
  have hquiet : ∀ c, kindOf c ≠ .now → c ∉ rest := fun c hc => hrest.not_mem (by simpa using hc)
  refine ⟨hpolled, hboth.ran.trans hran, hregs, hboth.flag.trans hboth.ran.seq hflag, fun space p _ => ?_, fun f hgot hmem => ?_,
    by rw [ha]; rfl, fun _ => rfl, fun hcalm a hmem => ?_⟩
  · exact pinAt_congr (hpins.1.trans hboth.pins.1) (hpins.2.trans hboth.pins.2) space p
  · exact hpacket f hgot (by simpa [hquiet (.readFrame (some f)) (by simp [kindOf]), eq_comm] using hmem)
  · rw [← checkReceiveAvailable_calm (calm_mono hcalm (by omega)), ha]
    simpa [hquiet (.checkReceiveAvailable a) (by simp [kindOf])] using hmem

/-- Steps R2 to R6 of RECEIVE (43_link_driver.md R166). -/
theorem pollOp_spec {s : State} {r : OpResult × State} (h : pollOp s = .ok r) :
    ∃ u got packet b calls, r = (.receive got packet, useFree u) ∧ PollRan s u got packet b calls := by
  rcases pollOp_cases h with ⟨ha, t, ht, rfl⟩ | ⟨ha, hnone, rfl⟩ | ⟨ha, f, hf, hdeliver⟩
  · obtain ⟨b, calls, hpoll⟩ := pollRan_nothing ha ht (Config.freePacket t.free)
    exact ⟨t, false, _, b, calls, rfl, hpoll⟩
  · have hboth := (checkReceiveAvailable_plain s).trans (readFrame_plain (checkReceiveAvailable s).2)
    exact ⟨_, false, _, _, _, rfl, pollRan_available (rest := []) ha (by rw [hnone]; exact .readError) (.refl _) hboth.regs
      (fun _ h => h) ⟨rfl, rfl⟩ nofun nofun⟩
  · have hboth := (checkReceiveAvailable_plain s).trans (readFrame_plain (checkReceiveAvailable s).2)
    obtain ⟨a, hfilter, hr⟩ := deliverOp_cases hdeliver
    obtain ⟨packet, rfl, hpacket⟩ : ∃ packet, r = (.receive a.1 packet, useFree a.2) ∧ (a.1 = true → PacketHolds f packet) := by
      rcases hr with ⟨haccept, rfl⟩ | ⟨haccept, rfl⟩ <;> rw [haccept]
      · exact ⟨_, rfl, fun _ => packetOf_holds f a.2⟩
      · exact ⟨_, rfl, nofun⟩
    have hread : ∀ g, a.1 = true → (readFrame (checkReceiveAvailable s).2).1 = some g → PacketHolds g packet := fun g hgot hg =>
      Option.some.inj (hf.symm.trans hg) ▸ hpacket hgot
    rcases receiveFilter_cases hfilter with ⟨hon, hdf⟩ | ⟨hoff, rfl⟩
    · obtain ⟨hran, hregs, hflag, hpins, -, -, hground⟩ := dfCheckOp_spec hdf
      have hpolled := Polled.checked f _ hon (hground.trans (acceptGround_congr hboth.regs _ _ _ _))
      exact ⟨a.2, a.1, packet, _, _, rfl, pollRan_available ha (by rw [hf]; exact hpolled) hran
        ((hboth.regs.checkedBlock a.1 _ _ _ _).trans hregs) hflag hpins hread (by simp [OfKinds, kindOf])⟩
    · exact ⟨_, true, packet, _, _, rfl, pollRan_available (rest := []) ha (by rw [hf]; exact .unchecked f hoff) (.refl _)
        hboth.regs (fun _ h => h) ⟨rfl, rfl⟩ hread nofun⟩

/-- Steps R2 to R6 run where the autosleep sum is defined and, with the filter on, the record is not from after the clock (00_scope.md
R13). -/
theorem pollOp_ok {s : State} (hfilter : s.cfg.dupFilterEnabled = true → s.blk.dfTime.toNat ≤ s.env.clock.toNat)
    (hsum : AutosleepDefined s.blk) : ∃ r, pollOp s = .ok r := by
  obtain ⟨t, ht⟩ := AutosleepDefined.runs (s := (checkReceiveAvailable s).2) hsum
  unfold pollOp
  simp only [ht]
  split
  · split
    · exact ⟨_, rfl⟩
    · next f _ =>
      have hclock := ((checkReceiveAvailable_plain s).trans (readFrame_plain _)).ran.clock
      by_cases hon : s.cfg.dupFilterEnabled = true
      · obtain ⟨a, ha⟩ := dfCheckOp_ok (s := (readFrame (checkReceiveAvailable s).2).2) ((hfilter hon).trans hclock) f.identifier
          (frameLength f) f.payload
        exact ⟨_, by rw [deliverOp, receiveFilter, if_pos (by exact hon), ha]; rfl⟩
      · exact ⟨_, by rw [deliverOp, receiveFilter, if_neg (by exact hon)]; rfl⟩
  · exact ⟨_, rfl⟩

theorem receiveFilter_holds {f : Frame} {s : State} {a : Bool × State} (h : receiveFilter f s = .ok a) : Holds 1 s a.2 := by
  rcases receiveFilter_cases h with ⟨-, hdf⟩ | ⟨-, rfl⟩
  · exact dfCheckOp_holds hdf
  · exact (Holds.refl s).mono (by omega)

/-- While the environment holds still the poll leaves the flag alone. -/
theorem pollOp_flag {s : State} {r : OpResult × State} (h : pollOp s = .ok r) (hcalm : calm s 6) :
    r.2.blk.activitySignal = s.blk.activitySignal := by
  have hcheck := checkReceiveAvailable_holds s
  have hread := hcheck.butQueue.trans (readFrame_holds (checkReceiveAvailable s).2).1
  rcases pollOp_cases h with ⟨-, t, ht, rfl⟩ | ⟨-, -, rfl⟩ | ⟨-, f, -, hdeliver⟩
  · obtain ⟨-, -, -, hflag, -⟩ := hcheck.trans (maybeAutosleepOp_holds ht) 0 hcalm
    exact hflag
  · obtain ⟨-, -, -, hflag⟩ := hread 4 hcalm
    exact hflag
  · obtain ⟨a, hfilter, hr⟩ := deliverOp_cases hdeliver
    obtain ⟨-, -, -, hflag⟩ := hread.trans (receiveFilter_holds hfilter).butQueue 3 hcalm
    rcases hr with ⟨-, rfl⟩ | ⟨-, rfl⟩ <;> exact hflag

/-- The one turn the availability check took comes before that of the read (log 2). -/
theorem nextTurn_checkReceiveAvailable (s : State) : nextTurn (checkReceiveAvailable s).2.env = turnAt s.env 1 := by
  have htimed := (checkReceiveAvailable_plain s).ran.timed
  rw [← turnAt_zero, turnAt_shift htimed.script htimed.turns]
  rfl

/-- While the environment holds still the poll finds the receive queue as it stands (60_exceptions.md R201, R202). -/
theorem poll_answers {s : State} (hcalm : calm s 2) :
    (checkReceiveAvailable s).1 = !s.env.rxQueue.isEmpty
      ∧ (readFrame (checkReceiveAvailable s).2).1 = readAnswer (turnAt s.env 1).ok s.env.rxQueue
      ∧ (readFrame (checkReceiveAvailable s).2).2.env.rxQueue
          = queueAfterRead (turnAt s.env 1).ok (turnAt s.env 1).consumed s.env.rxQueue := by
  obtain ⟨-, -, -, -, hturn⟩ := envSteps_holds s 1 hcalm
  obtain ⟨hchecked, -, -, -, hqueue⟩ := checkReceiveAvailable_holds s 1 hcalm
  obtain ⟨hanswer, hafter⟩ := (readFrame_holds (checkReceiveAvailable s).2).2 hchecked
  rw [nextTurn_checkReceiveAvailable, hqueue] at hanswer hafter
  exact ⟨by rw [← hturn]; rfl, hanswer, hafter⟩

/-- The queue the poll leaves while the environment holds still: with nothing queued it stays empty. -/
theorem pollOp_queue {s : State} {r : OpResult × State} (h : pollOp s = .ok r) (hcalm : calm s 6) :
    r.2.env.rxQueue = queueAfterRead (turnAt s.env 1).ok (turnAt s.env 1).consumed s.env.rxQueue := by
  have hcheck := checkReceiveAvailable_holds s
  obtain ⟨havailable, -, hqueue⟩ := poll_answers (calm_mono hcalm (by omega))
  rcases pollOp_cases h with ⟨ha, t, ht, rfl⟩ | ⟨-, -, rfl⟩ | ⟨-, f, -, hdeliver⟩
  · obtain ⟨-, -, -, -, hsame⟩ := hcheck.trans (maybeAutosleepOp_holds ht) 0 hcalm
    have hempty : s.env.rxQueue = [] := by simpa using havailable.symm.trans ha
    exact hsame.trans (by rw [hempty]; rfl)
  · exact hqueue
  · obtain ⟨a, hfilter, hr⟩ := deliverOp_cases hdeliver
    obtain ⟨hread, -⟩ := (hcheck.butQueue.trans (readFrame_holds _).1) 4 hcalm
    obtain ⟨-, -, -, -, hsame⟩ := receiveFilter_holds hfilter 3 hread
    rw [← hqueue, ← hsame]
    rcases hr with ⟨-, rfl⟩ | ⟨-, rfl⟩ <;> rfl

/-! ### The command -/

theorem exec_receive {s : State} (h : s.seq = .idle) :
    exec .receive s = outcomeOf ((pollOp (consumeActivity (beginOp 0xB#4 s))).map fun r => finish r.1 r.2) := by
  simp only [exec, execReceive, whenIdle_idle h]

/-- What a RECEIVE that answered did (43_link_driver.md R166). -/
structure Received (s t : State) (got : Bool) (packet : Packet) (b1 b2 : Block) (line : Option Bool) (c1 c2 : List Call) : Prop where
  result : t.result = .receive got packet
  made : CallsMade s t (c1 ++ c2)
  activity : ActivityCalls s.cfg s.blk b1 line c1
  polled : Polled s.cfg b1 got b2 c2
  regs : SameRegisters b2 t.blk
  asserted : line = some false → t.blk.activitySignal = true
  packet : ∀ f, got = true → .readFrame (some f) ∈ c2 → PacketHolds f packet
  outside : OutsideKept s t
  pins : PinsKeptBut (standbyPin s.blk) s t
  timed : Timed s.cfg s.env t.env (c1 ++ c2)
  tracked : Tracked s.cfg s.env t.env (c1 ++ c2)
  formed : PinsFormed s.env → PinsFormed t.env
  sampled : calm s 10 → s.blk.activitySignal = true → line = some s.env.intLine
  flag : calm s 10 → t.blk.activitySignal = (s.blk.activitySignal && !s.env.intLine)
  answers : calm s 10 → c2[0]? = some (.checkReceiveAvailable !s.env.rxQueue.isEmpty)
    ∧ (∀ a, .checkReceiveAvailable a ∈ c2 → a = !s.env.rxQueue.isEmpty)
    ∧ (s.env.rxQueue ≠ [] → c2[1]? = some (.readFrame (readAnswer (turnAt s.env (c1.length + 1)).ok s.env.rxQueue)))
    ∧ t.env.rxQueue
      = queueAfterRead (turnAt s.env (c1.length + 1)).ok (turnAt s.env (c1.length + 1)).consumed s.env.rxQueue

theorem exec_receive_next {s t : State} (h : exec .receive s = .next t) :
    ∃ got packet b1 b2 line c1 c2, Received s t got packet b1 b2 line c1 c2 := by
  rw [exec_receive (exec_idle h)] at h
  obtain ⟨r, hpoll, rfl⟩ := map_ok (outcomeOf_next h)
  obtain ⟨b1, line, c1, hactivity, hran1, hregs1, hpins1, hlow, hline⟩ := consumeActivity_calls (beginOp 0xB#4 s)
  obtain ⟨u, got, packet, b, c2, hr, ⟨hpolled, hran2, hregs2, hflag2, hpins2, hpacket, hfirst, hsecond, hasked⟩⟩ := pollOp_spec hpoll
  rw [hran1.cfg] at hpolled
  obtain ⟨b2, hpolled, hregs⟩ := hpolled.of_sameRegisters hregs1
  rw [hregs1.standbyPin, hactivity.standbyPin] at hpins2
  have hran := hran1.trans hran2
  have hbusy := hran1.seq ▸ beginOp_busy 0xB#4 s
  have hturn : turnAt (consumeActivity (beginOp 0xB#4 s)).env 1 = turnAt s.env (c1.length + 1) :=
    turnAt_shift hran1.timed.script hran1.timed.turns 1
  obtain rfl : r = (.receive got packet, useFree u) := hr
  refine ⟨got, packet, b1, b2, line, c1, c2, rfl, hran.history, hactivity, hpolled, hregs.trans hregs2, fun hl => ?_, hpacket,
    ⟨hran.cfg, hran.presented, rfl, hran.clock⟩, fun space p hp => ?_, hran.timed, hran.tracked, fun hs => ?_, fun hcalm hset => ?_,
    fun hcalm => ?_, fun hcalm => ?_⟩
  · exact hflag2 hbusy (hlow (beginOp_busy 0xB#4 s) hl)
  · exact (hpins2 space p hp).trans (hpins1 space p hp)
  · exact (PinsFormed.consumeActivity (s := beginOp 0xB#4 s) hs).pollOp hpoll
  · obtain ⟨-, -, -, hstood⟩ := consumeActivity_calm (s := beginOp 0xB#4 s) (n := 6) hcalm
    exact (hline hset).trans (congrArg some hstood)
  · obtain ⟨hcalm', -, hflag, -⟩ := consumeActivity_calm (s := beginOp 0xB#4 s) (n := 6) hcalm
    exact (pollOp_flag hpoll hcalm').trans hflag
  · obtain ⟨hcalm', hqueue, -, -⟩ := consumeActivity_calm (s := beginOp 0xB#4 s) (n := 6) hcalm
    obtain ⟨havailable, hanswer, -⟩ := poll_answers (calm_mono hcalm' (by omega))
    have hafter := pollOp_queue hpoll hcalm'
    rw [hqueue] at havailable hanswer hafter
    rw [havailable] at hfirst hsecond
    have hasked := hasked (calm_mono hcalm' (by omega))
    rw [hqueue] at hasked
    rw [hturn] at hanswer hafter
    refine ⟨hfirst, hasked, fun hne => ?_, hafter⟩
    rw [hsecond (by simpa using hne), hanswer]
    rfl

/-- The sum the poll forms after R1 is the one of the timestamp R1 leaves (00_scope.md R13). -/
theorem autosleepDefined_consumeActivity {s : State}
    (h : if s.blk.activitySignal then AutosleepDefinedAfterWake s else AutosleepDefined s.blk) :
    AutosleepDefined (consumeActivity s).blk := by
  cases hflag : s.blk.activitySignal with
  | false =>
    rw [hflag] at h
    rw [consumeActivity_clear hflag]
    exact h
  | true =>
    rw [hflag] at h
    obtain ⟨-, -, -, -, -, hregs, -⟩ := consumeActivity_spec hflag
    rw [hregs]
    exact h

theorem exec_receive_completes {s : State} (h : s.seq = .idle)
    (hfilter : s.cfg.dupFilterEnabled = true → s.blk.dfTime.toNat ≤ s.env.clock.toNat)
    (hsum : if s.blk.activitySignal then AutosleepDefinedAfterWake s else AutosleepDefined s.blk) :
    ∃ t, exec .receive s = .next t := by
  obtain ⟨b1, line, c1, hactivity, hran, hregs, -⟩ := consumeActivity_calls (beginOp 0xB#4 s)
  have htime : (consumeActivity (beginOp 0xB#4 s)).blk.dfTime = s.blk.dfTime := by
    rw [hregs]
    rcases hactivity with ⟨-, rfl, -, -⟩ | ⟨-, n, r, wake, l, -, rfl, -, -⟩ <;> rfl
  have hdefined : AutosleepDefined (consumeActivity (beginOp 0xB#4 s)).blk :=
    autosleepDefined_consumeActivity (by rwa [autosleepDefinedAfterWake_beginOp])
  obtain ⟨r, hr⟩ := pollOp_ok (fun hon => by rw [htime]; exact (hfilter (hran.cfg ▸ hon)).trans hran.clock) hdefined
  exact ⟨_, by rw [exec_receive h, hr]; rfl⟩

theorem ActivityCalls.length_eq {s : State} {b1 : Block} {line : Option Bool} {calls rest : List Call} {e : Env}
    (h : ActivityCalls s.cfg s.blk b1 line calls) (ht : Timed s.cfg s.env e (calls ++ rest)) :
    calls.length = if s.blk.activitySignal then wakeCount s + 1 else 0 := by
  rcases h with ⟨hflag, -, -, rfl⟩ | ⟨hflag, n, r, wake, l, hwake, -, -, rfl⟩
  · simp [hflag]
  · have hr : r = resultOf (turnAt s.env 1).ok := ht.answers 1 (.wake r) (by rw [hwake]; rfl)
    rw [if_pos hflag, List.length_append, List.length_singleton, hwake, hr, wakeCount]
    cases (turnAt s.env 1).ok <;> cases hp : Machine.standbyPin s.blk <;> simp [resultOf, pinCalls, hp]

theorem ActivityCalls.kinds {cfg : Cfg} {b b1 : Block} {line : Option Bool} {calls : List Call}
    (h : ActivityCalls cfg b b1 line calls) : OfKinds [.now, .wake, .write, .line] calls ∧ calls.length ≤ 4 := by
  rcases h with ⟨-, -, -, rfl⟩ | ⟨-, n, r, wake, l, hwake, -, -, rfl⟩
  · simp [OfKinds]
  · obtain ⟨hkinds, hlength⟩ := hwake.kinds
    exact ⟨hkinds.append (l := [.line]) (by simp [OfKinds, kindOf]), by
      simp only [List.length_append, List.length_singleton]
      omega⟩

theorem ActivityCalls.recordOf {cfg : Cfg} {b b1 : Block} {line : Option Bool} {calls : List Call}
    (h : ActivityCalls cfg b b1 line calls) : recordOf b1 = recordOf b := by
  rcases h with ⟨-, rfl, -, -⟩ | ⟨-, n, r, wake, l, -, rfl, -, -⟩ <;> rfl

/-- Answered not available, the poll reads no frame (43_link_driver.md R167). -/
theorem Polled.reads_nothing {cfg : Cfg} {b b2 : Block} {got : Bool} {calls : List Call} (h : Polled cfg b got b2 calls)
    (hfirst : calls[0]? = some (.checkReceiveAvailable false)) (r : Option Frame) : Call.readFrame r ∉ calls := by
  cases h with
  | nothing hrest => simp [hrest.kinds.1.not_mem (c := .readFrame r) (by simp [kindOf])]
  | readError => simp at hfirst
  | unchecked f off => simp at hfirst
  | checked f n on ground => simp at hfirst

/-! ### The obligations -/

/-- Settles O30: R1's calls and registers, then one of the poll's outcomes. -/
theorem receiveResult : Obligations.ReceiveResult := by
  refine ⟨fun _ => rfl, fun s hidle hfilter hsum => ?_⟩
  obtain ⟨t, hexec⟩ := exec_receive_completes hidle hfilter hsum
  obtain ⟨got, packet, b1, b2, line, c1, c2, hdone⟩ := exec_receive_next hexec
  refine ⟨t, got, packet, b1, line, c1, c2, hexec, hdone.result, hdone.made, hdone.activity, hdone.asserted, hdone.flag,
    hdone.sampled, hdone.outside, hdone.pins, hdone.tracked.pins, ?_⟩
  have hregs := hdone.regs
  cases hdone.polled with
  | nothing hrest => exact .inl ⟨rfl, hregs, _, hrest, rfl⟩
  | readError => exact .inr (.inl ⟨rfl, hregs, rfl⟩)
  | unchecked f off =>
    refine .inr (.inr ⟨f, 0, by rw [off]; rfl, by simp [AcceptGround, off], fun hgot => ?_, ?_⟩)
    · exact hdone.packet f hgot (by simp)
    · rw [if_neg (by simp [off])]
      exact hregs
  | checked f n on ground =>
    refine .inr (.inr ⟨f, n, by rw [on]; rfl, ground, fun hgot => hdone.packet f hgot (by simp), ?_⟩)
    cases got with
    | true =>
      rw [if_pos ⟨rfl, on⟩]
      exact ⟨(overwriteRecord_holds ..).of_sameRegisters hregs, hregs.sameButRecord_of_overwriteRecord⟩
    | false =>
      rw [if_neg (by simp)]
      exact hregs

/-- Settles O31: only a check writes the record, and none is made. -/
theorem receiveKeepsRecordWithFilterOff : Obligations.ReceiveKeepsRecordWithFilterOff := by
  intro s t hexec hoff
  obtain ⟨got, packet, b1, b2, line, c1, c2, hdone⟩ := exec_receive_next hexec
  have hkept : b2 = b1 := by
    cases hdone.polled with
    | nothing | readError | unchecked => rfl
    | checked f n on ground => exact absurd on (by simp [hoff])
  rw [← hdone.activity.recordOf, hdone.regs, hkept]
  rfl

/-- Settles O32: R1 clears it so, and the poll leaves it. -/
theorem receiveClearsFlagIffLineInactive : Obligations.ReceiveClearsFlagIffLineInactive := by
  intro s t hexec hcalm
  obtain ⟨got, packet, b1, b2, line, c1, c2, hdone⟩ := exec_receive_next hexec
  exact hdone.flag hcalm

/-- Settles O55: R1 leaves the queue, and the poll's two calls are answered by it. -/
theorem receiveTakesQueueHead : Obligations.ReceiveTakesQueueHead := by
  intro s t calls hexec hmade hcalm
  obtain ⟨got, packet, b1, b2, line, c1, c2, hdone⟩ := exec_receive_next hexec
  obtain rfl := hmade.unique hdone.made
  obtain ⟨hcheck, hasked, hread, hqueue⟩ := hdone.answers hcalm
  have hlength := hdone.activity.length_eq hdone.timed
  refine ⟨fun hempty => ?_, fun f rest hhead => ?_⟩
  · rw [hempty] at hcheck hasked hqueue
    have hkinds := hdone.activity.kinds.1
    refine ⟨List.mem_append_right _ (List.mem_of_getElem? hcheck), fun hmem => ?_, fun r hmem => ?_, hqueue⟩
    · have hin := (List.mem_append.1 hmem).resolve_left (hkinds.not_mem (by simp [kindOf]))
      exact Bool.noConfusion (hasked true hin)
    · have hin := (List.mem_append.1 hmem).resolve_left (hkinds.not_mem (by simp [kindOf]))
      exact hdone.polled.reads_nothing hcheck r hin
  · intro k answer
    have hk : k = c1.length := hlength.symm
    have hat : ∀ j, (c1 ++ c2)[k + j]? = c2[j]? := fun j => by
      rw [hk, List.getElem?_append_right (by omega), Nat.add_sub_cancel_left]
    rw [hhead, ← hk] at hread hqueue
    rw [hhead] at hcheck
    exact ⟨(hat 0).trans hcheck, (hat 1).trans (hread (by simp)), hqueue⟩

end Sys2Proof.Machine
end

section
/-! PROOFS. What every instruction that answers does, said once: the calls it makes on the registers it began with, the registers it
leaves, and what it keeps; and who writes what (spec/10_state.md sections 3 and 4, spec/60_exceptions.md sections 2, 6 and 7). -/

namespace Sys2Proof.Machine

/-! ### The codec's instructions and DF_CHECK -/

/-- ENCODE, DECODE and the identifier formats change the result ports alone. -/
theorem answered_of_result {s : State} (h : s.seq = .idle) (r : OpResult) : Answered none s.blk s { s with result := r } [] where
  made := (List.append_nil _).symm
  regs := rfl
  flag := id
  outside := ⟨rfl, rfl, h, le_rfl⟩
  pins := fun _ _ _ => rfl
  timed := .refl _ _
  tracked := .refl _ _
  queue := (KeepsQueue.refl s).mono (by omega)
  formed := id

theorem exec_dfCheck_answered {id : IdWord} {length : LenField} {payload : Payload} {s t : State}
    (h : exec (.dfCheck id length payload) s = .next t) :
    length.toNat ≤ 8 ∧ ∃ accept, Answered none (checkedBlock accept s.blk (now s).1 id length payload) s t [.now (now s).1] := by
  obtain ⟨hlength, -⟩ := exec_dfCheck_next h
  have hcontract : lengthInContract length = true := decide_eq_true hlength
  simp only [exec, execDfCheck, whenIdle_idle (exec_idle h), if_pos hcontract] at h
  obtain ⟨r, hr, rfl⟩ := map_ok (outcomeOf_next h)
  obtain ⟨hran, hregs, hflag, hpins, -⟩ := dfCheckOp_spec hr
  rw [now_beginOp] at hran hregs
  have hqueue := (dfCheckOp_holds hr).keepsQueue (ofKinds_singleton .now (.now (now s).1) rfl) (by decide)
  exact ⟨hlength, r.1, hran.answered hregs hflag (fun space p _ => pinAt_congr hpins.1 hpins.2 space p) (hqueue.mono (by omega))
    hpins.formed _⟩

/-! ### Every instruction -/

/-- What an instruction does on the registers `b`: the registers it leaves but for the flag, and the calls it makes. -/
inductive Performs (cfg : Cfg) (b : Block) : Instr → Block → List Call → Prop where
  | encode {type target source port} : Performs cfg b (.encode type target source port) b []
  | decode {id} : Performs cfg b (.decode id) b []
  | dfCheck {id length payload} (accept : Bool) (n : Time) (hlength : length.toNat ≤ 8) :
      Performs cfg b (.dfCheck id length payload) (checkedBlock accept b n id length payload) [.now n]
  | sleep {r calls} (h : SleepCalls cfg b r calls) : Performs cfg b .sleep b calls
  | wake {n r calls} (h : WakeCalls cfg b n r calls) : Performs cfg b .wake { b with lastActivityTimestamp := n } calls
  | isSleeping (m : Mode) : Performs cfg b .isSleeping b [.getMode m]
  | maybeAutosleep {calls} (h : AutosleepCalls cfg b calls) : Performs cfg b .maybeAutosleep b calls
  | setAutosleep {enabled keep calls}
      (h : AutosleepCalls cfg { b with autosleepEnabled := enabled, keepAwakeDuration := keep } calls) :
      Performs cfg b (.setAutosleep enabled keep) { b with autosleepEnabled := enabled, keepAwakeDuration := keep } calls
  | setStbyPin {ctrl p} (m : Mode) :
      Performs cfg b (.setStbyPin ctrl p) { b with stbyPinRoute := if ctrl then .ctrl else .host, stbyPinNumber := p }
        [.setPinMode (if ctrl then .ctrl else .host) p .output, .getMode m,
          .digitalWrite (if ctrl then .ctrl else .host) p (levelFor cfg m)]
  | sendNothing {type target source port length payload} : Performs cfg b (.send type target source port length payload) b []
  | send {type target source port length payload n id success calls} (h : SendCalls cfg b n id length payload success calls) :
      Performs cfg b (.send type target source port length payload) { b with lastActivityTimestamp := n } calls
  | receive {got b1 b2 line c1 c2} (h1 : ActivityCalls cfg b b1 line c1) (h2 : Polled cfg b1 got b2 c2) :
      Performs cfg b .receive b2 (c1 ++ c2)
  | idBroadcast {m z y g s} : Performs cfg b (.idBroadcast m z y g s) b []
  | idMulticast {m z y g s} : Performs cfg b (.idMulticast m z y g s) b []
  | idReserved {m z y g s} : Performs cfg b (.idReserved m z y g s) b []
  | idUnicast {m z p y g s} : Performs cfg b (.idUnicast m z p y g s) b []

/-- What every instruction that answered did. -/
structure Performed (i : Instr) (s t : State) (b : Block) (calls : List Call) : Prop where
  performs : Performs s.cfg s.blk i b calls
  regs : SameRegisters b t.blk
  made : CallsMade s t calls
  outside : OutsideKept s t
  timed : Timed s.cfg s.env t.env calls
  tracked : Tracked s.cfg s.env t.env calls
  formed : PinsFormed s.env → PinsFormed t.env
  flag : i ≠ .receive → FlagKept s t
  queue : i ≠ .receive → KeepsQueue 11 s t calls

theorem Answered.performed {pin : Option (PinSpace × PinNum)} {i : Instr} {s t : State} {b : Block} {calls : List Call}
    (h : Answered pin b s t calls) (hi : Performs s.cfg s.blk i b calls) : Performed i s t b calls :=
  ⟨hi, h.regs, h.made, h.outside, h.timed, h.tracked, h.formed, fun _ => h.flag, fun _ => h.queue⟩

theorem exec_performed {i : Instr} {s t : State} (h : exec i s = .next t) : ∃ b calls, Performed i s t b calls := by
  have hidle := exec_idle h
  have hpure : ∀ {op r}, whenIdle op s (fun u => .next (finish r u)) = .next t → Performs s.cfg s.blk i s.blk [] →
      ∃ b calls, Performed i s t b calls := fun hr hi => by
    rw [whenIdle_idle hidle, finish_beginOp _ _ hidle] at hr
    cases hr
    exact ⟨_, _, (answered_of_result hidle _).performed hi⟩
  cases i with
  | encode => exact hpure h .encode
  | decode => exact hpure h .decode
  | idBroadcast => exact hpure h .idBroadcast
  | idMulticast => exact hpure h .idMulticast
  | idReserved => exact hpure h .idReserved
  | idUnicast => exact hpure h .idUnicast
  | dfCheck id length payload =>
    obtain ⟨hlength, accept, hdone⟩ := exec_dfCheck_answered h
    exact ⟨_, _, hdone.performed (.dfCheck accept _ hlength)⟩
  | sleep =>
    obtain ⟨u, r, calls, hu, -, hcalls, hdone⟩ := exec_sleep_answers hidle
    cases h.symm.trans hu
    exact ⟨_, _, hdone.performed (.sleep hcalls)⟩
  | wake =>
    obtain ⟨u, r, calls, hu, -, hcalls, hdone⟩ := exec_wake_answers hidle
    cases h.symm.trans hu
    exact ⟨_, _, hdone.performed (.wake hcalls)⟩
  | isSleeping =>
    obtain ⟨u, hu, -, hdone⟩ := exec_isSleeping_answers hidle
    cases h.symm.trans hu
    exact ⟨_, _, hdone.performed (.isSleeping _)⟩
  | maybeAutosleep =>
    obtain ⟨-, calls, hcalls, hdone⟩ := exec_maybeAutosleep_next h
    exact ⟨_, _, hdone.performed (.maybeAutosleep hcalls)⟩
  | setAutosleep enabled keep =>
    obtain ⟨-, calls, hcalls, hdone⟩ := exec_setAutosleep_next h
    exact ⟨_, _, hdone.performed (.setAutosleep hcalls)⟩
  | setStbyPin ctrl p =>
    obtain ⟨u, m, hu, -, hdone⟩ := exec_setStbyPin_answers ctrl p hidle
    cases h.symm.trans hu
    exact ⟨_, _, hdone.performed (.setStbyPin m)⟩
  | send type target source port length payload =>
    obtain ⟨-, rfl⟩ | ⟨-, success, calls, -, hcalls, hdone, -⟩ := exec_send_next h
    · exact ⟨_, _, (answered_of_result hidle _).performed .sendNothing⟩
    · exact ⟨_, _, hdone.performed (.send hcalls)⟩
  | receive =>
    obtain ⟨got, packet, b1, b2, line, c1, c2, hdone⟩ := exec_receive_next h
    exact ⟨b2, c1 ++ c2, .receive hdone.activity hdone.polled, hdone.regs, hdone.made, hdone.outside, hdone.timed, hdone.tracked,
      hdone.formed, absurd rfl, absurd rfl⟩

/-- The calls an instruction that answered made are those its history shows. -/
theorem exec_performed_calls {i : Instr} {s t : State} {calls : List Call} (h : exec i s = .next t) (hmade : CallsMade s t calls) :
    ∃ b, Performed i s t b calls := by
  obtain ⟨b, calls', hdone⟩ := exec_performed h
  exact ⟨b, hmade.unique hdone.made ▸ hdone⟩

/-! ### The kinds of calls of every instruction -/

theorem SendCalls.kinds {cfg : Cfg} {b : Block} {n : Time} {id : IdWord} {length : LenField} {payload : Payload} {success : Bool}
    {calls : List Call} (h : SendCalls cfg b n id length payload success calls) :
    OfKinds [.now, .wake, .write, .frame, .delay, .available, .mode, .sleep] calls ∧ calls.length ≤ 11 := by
  obtain ⟨woke, wake, hs, hwake, ⟨hhs, -, rfl⟩ | ⟨answer, rest, hhs, hrest, -, rfl⟩⟩ := h
  · have hkinds := hwake.kinds.1.append hhs.kinds.1
    have hwakes := hwake.kinds.2
    have hshakes := hhs.kinds.2
    refine ⟨hkinds.mono (by decide), ?_⟩
    rw [List.length_append]
    omega
  · have hframe := ofKinds_singleton .frame (.sendFrame id true length (payload.toList.take length.toNat) answer) rfl
    have hkinds := ((hwake.kinds.1.append hhs.kinds.1).append hframe).append hrest.kinds.1
    have hwakes := hwake.kinds.2
    have hshakes := hhs.kinds.2
    have hrests := hrest.kinds.2
    refine ⟨hkinds.mono (by decide), ?_⟩
    simp only [List.length_append, List.length_singleton]
    omega

theorem Polled.kinds {cfg : Cfg} {b b2 : Block} {got : Bool} {calls : List Call} (h : Polled cfg b got b2 calls) :
    OfKinds [.available, .read, .now, .mode, .sleep, .write] calls ∧ calls.length ≤ 6 := by
  cases h with
  | nothing hrest =>
    have hkinds := (ofKinds_singleton .available (.checkReceiveAvailable false) rfl).append hrest.kinds.1
    have hrests := hrest.kinds.2
    refine ⟨hkinds.mono (by decide), ?_⟩
    simp only [List.length_append, List.length_singleton]
    omega
  | readError | unchecked f off | checked f n on ground => simp [OfKinds, kindOf]

end Sys2Proof.Machine
end

section
/-! PROOFS. Who writes what, and what every instruction's calls are (spec/10_state.md sections 3 and 4; spec/60_exceptions.md sections 2, 6,
7; spec/70_reset_and_hazards.md R239, R247). -/

namespace Sys2Proof.Machine

/-! ### The registers an instruction leaves -/

/-- The policy and the standby pin's registers of two blocks are the same. -/
structure SamePolicyAndPin (b c : Block) : Prop where
  keep : c.keepAwakeDuration = b.keepAwakeDuration
  enabled : c.autosleepEnabled = b.autosleepEnabled
  route : c.stbyPinRoute = b.stbyPinRoute
  number : c.stbyPinNumber = b.stbyPinNumber

theorem checkedBlock_lastActivityTimestamp (accept : Bool) (b : Block) (n : Time) (id : IdWord) (length : LenField)
    (payload : Payload) :
    (checkedBlock accept b n id length payload).lastActivityTimestamp = b.lastActivityTimestamp := by cases accept <;> rfl

theorem samePolicyAndPin_checkedBlock (accept : Bool) (b : Block) (n : Time) (id : IdWord) (length : LenField) (payload : Payload) :
    SamePolicyAndPin b (checkedBlock accept b n id length payload) := by
  cases accept <;> exact ⟨rfl, rfl, rfl, rfl⟩

theorem SamePolicyAndPin.standbyPin {b c : Block} (h : SamePolicyAndPin b c) : Machine.standbyPin c = Machine.standbyPin b := by
  simp only [Machine.standbyPin, h.route, h.number]

/-- A RECEIVE writes the timestamp, the record and the flag alone (43_link_driver.md R166). -/
theorem samePolicyAndPin_of_receive {cfg : Cfg} {b b1 b2 : Block} {got : Bool} {line : Option Bool} {c1 c2 : List Call}
    (h1 : ActivityCalls cfg b b1 line c1) (h2 : Polled cfg b1 got b2 c2) : SamePolicyAndPin b b2 := by
  have hpolled : SamePolicyAndPin b1 b2 := by
    cases h2 with
    | nothing | readError | unchecked => exact ⟨rfl, rfl, rfl, rfl⟩
    | checked f n on ground => exact samePolicyAndPin_checkedBlock ..
  rcases h1 with ⟨-, rfl, -, -⟩ | ⟨-, n, r, wake, l, -, rfl, -, -⟩
  · exact hpolled
  · exact ⟨hpolled.keep, hpolled.enabled, hpolled.route, hpolled.number⟩

/-- Every instruction but SET_AUTOSLEEP and SET_STBY_PIN leaves the policy and the standby pin's registers, and each of the two leaves the
other's (10_state.md R31, R32, R35, R36). -/
theorem Performs.policy_and_pin {cfg : Cfg} {b c : Block} {i : Instr} {calls : List Call} (h : Performs cfg b i c calls) :
    ((∀ enabled keep, i ≠ .setAutosleep enabled keep) →
        c.keepAwakeDuration = b.keepAwakeDuration ∧ c.autosleepEnabled = b.autosleepEnabled)
      ∧ ((∀ ctrl p, i ≠ .setStbyPin ctrl p) → c.stbyPinRoute = b.stbyPinRoute ∧ c.stbyPinNumber = b.stbyPinNumber) := by
  cases h with
  | setAutosleep h => exact ⟨fun hi => absurd rfl (hi _ _), fun _ => ⟨rfl, rfl⟩⟩
  | setStbyPin m => exact ⟨fun _ => ⟨rfl, rfl⟩, fun hi => absurd rfl (hi _ _)⟩
  | receive h1 h2 =>
    have h := samePolicyAndPin_of_receive h1 h2
    exact ⟨fun _ => ⟨h.keep, h.enabled⟩, fun _ => ⟨h.route, h.number⟩⟩
  | @dfCheck id length payload accept n hlength =>
    have h := samePolicyAndPin_checkedBlock accept b n id length payload
    exact ⟨fun _ => ⟨h.keep, h.enabled⟩, fun _ => ⟨h.route, h.number⟩⟩
  | _ => exact ⟨fun _ => ⟨rfl, rfl⟩, fun _ => ⟨rfl, rfl⟩⟩

/-- An instruction that writes the timestamp writes the clock its first call read, and its second call is `P.wake` (10_state.md R30). -/
theorem Performs.timestamp {cfg : Cfg} {b c : Block} {i : Instr} {calls : List Call} (h : Performs cfg b i c calls) :
    c.lastActivityTimestamp = b.lastActivityTimestamp
      ∨ ∃ r rest, calls = [.now c.lastActivityTimestamp, .wake r] ++ rest := by
  cases h with
  | wake h => exact .inr ⟨_, _, h⟩
  | send h =>
    obtain ⟨woke, wake, hs, hwake, ⟨-, -, rfl⟩ | ⟨answer, rest, -, -, -, rfl⟩⟩ := h <;> subst hwake <;>
      simp only [List.append_assoc] <;> exact .inr ⟨_, _, rfl⟩
  | @receive got b1 b2 line c1 c2 h1 h2 =>
    have hkept : c.lastActivityTimestamp = b1.lastActivityTimestamp := by
      cases h2 with
      | nothing | readError | unchecked => exact rfl
      | checked f n on ground => exact checkedBlock_lastActivityTimestamp ..
    rw [hkept]
    rcases h1 with ⟨-, rfl, -, -⟩ | ⟨-, n, r, wake, l, hwake, rfl, -, rfl⟩
    · exact .inl rfl
    · subst hwake
      simp only [List.append_assoc]
      exact .inr ⟨_, _, rfl⟩
  | dfCheck accept n hlength => exact .inl (checkedBlock_lastActivityTimestamp ..)
  | _ => exact .inl rfl

/-- The record is written by DF_CHECK and RECEIVE alone, with a length in contract and a clock they read with no delay among their calls
(10_state.md R24 to R27). -/
theorem Performs.record {cfg : Cfg} {b c : Block} {i : Instr} {calls : List Call} (h : Performs cfg b i c calls) :
    recordOf c = recordOf b
      ∨ ((i = .receive ∨ ∃ id length payload, i = .dfCheck id length payload) ∧ c.dfLen.toNat ≤ 8 ∧ .now c.dfTime ∈ calls
        ∧ ∀ d, .delay d ∉ calls) := by
  cases h with
  | dfCheck accept n hlength =>
    cases accept with
    | false => exact .inl rfl
    | true => exact .inr ⟨.inr ⟨_, _, _, rfl⟩, hlength, List.mem_singleton.2 rfl, by simp⟩
  | @receive got b1 b2 line c1 c2 h1 h2 =>
    rw [← h1.recordOf]
    have hundelayed : ∀ d, .delay d ∉ c1 ++ c2 := fun d => (h1.kinds.1.append h2.kinds.1).not_mem (by simp [kindOf])
    cases h2 with
    | nothing | readError | unchecked => exact .inl rfl
    | checked f n on ground =>
      cases got with
      | false => exact .inl rfl
      | true =>
        have hlength : (frameLength f).toNat ≤ 8 := by rw [frameLength_toNat]; omega
        exact .inr ⟨.inl rfl, hlength, by simp [checkedBlock, overwriteRecord], hundelayed⟩
  | _ => exact .inl rfl

theorem Performs.length_le {cfg : Cfg} {b c : Block} {i : Instr} {calls : List Call} (h : Performs cfg b i c calls) :
    calls.length ≤ 11 := by
  cases h with
  | sleep h => exact h.kinds.2.trans (by decide)
  | wake h => exact h.kinds.2.trans (by decide)
  | maybeAutosleep h => exact h.kinds.2.trans (by decide)
  | setAutosleep h => exact h.kinds.2.trans (by decide)
  | send h => exact h.kinds.2
  | receive h1 h2 =>
    have hactivity := h1.kinds.2
    have hpoll := h2.kinds.2
    rw [List.length_append]
    omega
  | _ => simp

/-- No instruction but RECEIVE reads a frame (20_memory.md R55). -/
theorem Performs.reads_nothing {cfg : Cfg} {b c : Block} {i : Instr} {calls : List Call} (h : Performs cfg b i c calls)
    (hi : i ≠ .receive) (r : Option Frame) : .readFrame r ∉ calls := by
  cases h with
  | sleep h => exact h.kinds.1.not_mem (by simp [kindOf])
  | wake h => exact h.kinds.1.not_mem (by simp [kindOf])
  | maybeAutosleep h => exact h.kinds.1.not_mem (by simp [kindOf])
  | setAutosleep h => exact h.kinds.1.not_mem (by simp [kindOf])
  | send h => exact h.kinds.1.not_mem (by simp [kindOf])
  | receive h1 h2 => exact absurd rfl hi
  | _ => simp

/-- Once an availability check among them answered available, some calls do not put the peripheral to sleep. -/
def SleepGuarded (calls : List Call) : Prop := .checkReceiveAvailable true ∈ calls → ∀ r, .sleep r ∉ calls

theorem SleepGuarded.append {c d : List Call} (hd : SleepGuarded d) (havailable : .checkReceiveAvailable true ∉ c)
    (hsleep : ∀ r, .sleep r ∉ c) : SleepGuarded (c ++ d) := fun h r hr =>
  hd ((List.mem_append.1 h).resolve_left havailable) r ((List.mem_append.1 hr).resolve_left (hsleep r))

theorem OfKinds.sleepGuarded {kinds : List CallKind} {calls : List Call} (h : OfKinds kinds calls) (hsleep : .sleep ∉ kinds) :
    SleepGuarded calls := fun _ _ => h.not_mem hsleep

theorem Polled.sleepGuarded {cfg : Cfg} {b b2 : Block} {got : Bool} {calls : List Call} (h : Polled cfg b got b2 calls) :
    SleepGuarded calls := by
  cases h with
  | nothing hrest => exact SleepGuarded.append hrest.no_sleep (by simp) (by simp)
  | readError | unchecked f off | checked f n on ground => simp [SleepGuarded]

theorem SendCalls.sleepGuarded {cfg : Cfg} {b : Block} {n : Time} {id : IdWord} {length : LenField} {payload : Payload}
    {success : Bool} {calls : List Call} (h : SendCalls cfg b n id length payload success calls) : SleepGuarded calls := by
  obtain ⟨woke, wake, hs, hwake, ⟨hhs, -, rfl⟩ | ⟨answer, rest, hhs, hrest, -, rfl⟩⟩ := h <;>
    have hbefore := hwake.kinds.1.append hhs.kinds.1
  · exact hbefore.sleepGuarded (by decide)
  · have hframe := hbefore.append (ofKinds_singleton .frame (.sendFrame id true length (payload.toList.take length.toNat) answer) rfl)
    exact SleepGuarded.append hrest.no_sleep (hframe.not_mem (by simp [kindOf])) fun r => hframe.not_mem (by simp [kindOf])

/-- No instruction but SLEEP sleeps once its availability check answered available (42_power_controller.md R142 (b)). -/
theorem Performs.sleepGuarded {cfg : Cfg} {b c : Block} {i : Instr} {calls : List Call} (h : Performs cfg b i c calls)
    (hi : i ≠ .sleep) : SleepGuarded calls := by
  cases h with
  | sleep h => exact absurd rfl hi
  | wake h => exact h.kinds.1.sleepGuarded (by decide)
  | maybeAutosleep h => exact h.no_sleep
  | setAutosleep h => exact h.no_sleep
  | send h => exact h.sleepGuarded
  | receive h1 h2 =>
    exact h2.sleepGuarded.append (h1.kinds.1.not_mem (by simp [kindOf])) fun r => h1.kinds.1.not_mem (by simp [kindOf])
  | _ => simp [SleepGuarded]

/-! ### The obligations -/

/-- Settles O34: in an operation the flag is only ever set, but for RECEIVE's clear. -/
theorem onlyReceiveClearsFlag : Obligations.OnlyReceiveClearsFlag := by
  intro i s t hi hexec
  obtain ⟨b, calls, hdone⟩ := exec_performed hexec
  exact hdone.flag hi

/-- Calls among which no `P.sleep` answered OK leave an awake peripheral awake. -/
theorem modeAfterCalls_awake_of_not_slept {calls : List Call} (h : .sleep .ok ∉ calls) : modeAfterCalls .awake calls = .awake := by
  induction calls with
  | nil => rfl
  | cons c rest ih =>
    rw [List.mem_cons, not_or] at h
    have hc : modeAfterCall .awake c = .awake := by
      unfold modeAfterCall
      split
      · exact absurd rfl h.1
      all_goals rfl
    rw [modeAfterCalls, List.foldl_cons, hc]
    exact ih h.2

/-- Settles O37: calls with no such `P.sleep` leave the peripheral awake. -/
theorem onlySleepCallPutsToSleep : Obligations.OnlySleepCallPutsToSleep := by
  intro i s t calls hexec hmade hawake hsleeping
  obtain ⟨b, hdone⟩ := exec_performed_calls hexec hmade
  by_contra hnone
  have hmode := hdone.tracked.awake (hawake ▸ modeAfterCalls_awake_of_not_slept hnone)
  exact Mode.noConfusion (hmode.symm.trans hsleeping)

/-- Settles O38: after that answer MAYBE_AUTOSLEEP returns, and nothing but MAYBE_AUTOSLEEP sleeps. -/
theorem noAutosleepWhileAvailable : Obligations.NoAutosleepWhileAvailable := by
  intro i s t calls r hi hexec hmade havailable
  obtain ⟨b, hdone⟩ := exec_performed_calls hexec hmade
  exact hdone.performs.sleepGuarded hi havailable r

/-- Settles O40: the longest is a SEND of a WAKE with its pin, a handshake, the frame and an autosleep with its pin. -/
theorem operationMakesBoundedCalls : Obligations.OperationMakesBoundedCalls := by
  intro i s t hexec
  obtain ⟨b, calls, hdone⟩ := exec_performed hexec
  exact ⟨calls, hdone.made, hdone.performs.length_le⟩

/-- Settles O49: what is written is WAKE's clock read, with its `P.wake` after it. -/
theorem onlyWakeWritesTimestamp : Obligations.OnlyWakeWritesTimestamp := by
  intro i s t calls hexec hmade
  obtain ⟨b, hdone⟩ := exec_performed_calls hexec hmade
  have hb : t.blk.lastActivityTimestamp = b.lastActivityTimestamp := by rw [hdone.regs]
  rw [hb]
  rcases hdone.performs.timestamp with hkept | ⟨r, rest, rfl⟩
  · exact ⟨.inl hkept, fun _ => hkept⟩
  · exact ⟨.inr ⟨by simp, r, by simp⟩, fun hnone => absurd (by simp) (hnone r)⟩

/-- Settles O50: no other instruction writes the record. -/
theorem onlyFilterWritesRecord : Obligations.OnlyFilterWritesRecord := by
  intro i s t hexec hreceive hcheck
  obtain ⟨b, calls, hdone⟩ := exec_performed hexec
  have hb : recordOf t.blk = recordOf b := by rw [hdone.regs]; rfl
  rcases hdone.performs.record with hkept | ⟨hi | ⟨id, length, payload, hi⟩, -⟩
  · exact hb.trans hkept
  · exact absurd hi hreceive
  · exact absurd hi (hcheck id length payload)

/-- Settles O51: no other instruction writes the policy. -/
theorem onlySetAutosleepWritesPolicy : Obligations.OnlySetAutosleepWritesPolicy := by
  intro i s t hexec hi
  obtain ⟨b, calls, hdone⟩ := exec_performed hexec
  rw [hdone.regs]
  exact hdone.performs.policy_and_pin.1 hi

/-- Settles O52: no other instruction writes the standby pin's registers, and SET_STBY_PIN writes a route. -/
theorem onlySetStbyPinWritesRoute : Obligations.OnlySetStbyPinWritesRoute := by
  intro i s t hexec
  obtain ⟨b, calls, hdone⟩ := exec_performed hexec
  have hperforms := hdone.performs
  rw [hdone.regs]
  refine ⟨hperforms.policy_and_pin.2, fun hrouted => ?_⟩
  by_cases hi : ∀ ctrl p, i ≠ .setStbyPin ctrl p
  · exact (hperforms.policy_and_pin.2 hi).1 ▸ hrouted
  · push Not at hi
    obtain ⟨ctrl, p, rfl⟩ := hi
    cases hperforms with
    | setStbyPin m => cases ctrl <;> simp

/-- Settles O53: each call's answer is its turn's. -/
theorem peripheralAnswersAreTheTurns : Obligations.PeripheralAnswersAreTheTurns := by
  intro i s t calls hexec hmade
  obtain ⟨b, hdone⟩ := exec_performed_calls hexec hmade
  exact hdone.timed.answers

/-- Settles O54: with no delay before it the clock read is where the turns advance the clock, which has room for it. -/
theorem clockReadsAreTheTurns : Obligations.ClockReadsAreTheTurns := by
  intro i s t calls k n hexec hmade hread hundelayed hroom
  obtain ⟨b, hdone⟩ := exec_performed_calls hexec hmade
  have hclock := hdone.timed.reads k n hread hundelayed
  unfold clockLimit at hclock
  omega

/-- Settles O56: no other instruction reads a frame, and eleven calm turns are all its calls take. -/
theorem onlyReceiveConsumesFrames : Obligations.OnlyReceiveConsumesFrames := by
  intro i s t calls hi hexec hmade
  obtain ⟨b, hdone⟩ := exec_performed_calls hexec hmade
  exact ⟨hdone.performs.reads_nothing hi, fun hcalm => (hdone.queue hi 0 hcalm).2⟩

end Sys2Proof.Machine
end

section
/-! PROOFS. The power state and the standby pin along every instruction and every step (spec/42_power_controller.md R147, R148). -/

namespace Sys2Proof.Machine

/-! ### The mode -/

/-- A SLEEP that failed was told the peripheral was Awake (42_power_controller.md R136). -/
theorem SleepCalls.awake_before_fail {cfg : Cfg} {b : Block} {calls : List Call} (h : SleepCalls cfg b .fail calls) {m : Mode}
    (htold : ModeTold m calls) : m = .awake := by
  rcases h with ⟨hr, -⟩ | ⟨-, rfl⟩ | ⟨hr, -⟩
  · cases hr
  · exact (htold.1 _ rfl).symm
  · cases hr

theorem modeAfterCalls_getMode {m a : Mode} (h : a = m) : modeAfterCalls m [.getMode a] = m := by
  subst h
  cases a <;> rfl

/-- SLEEP ends Awake on FAIL, and where no self-wake happens Sleeping on OK and Awake, as it began, on FAIL (42_power_controller.md
R147). -/
theorem sleep_transition {s t : State} {calls : List Call} (h : exec .sleep s = .next t) (hmade : CallsMade s t calls) :
    (t.result = .sleep .fail → t.env.mode = .awake)
      ∧ (NoSelfWake s.cfg s.env calls.length →
        (t.result = .sleep .ok ∧ t.env.mode = .sleeping)
          ∨ (t.result = .sleep .fail ∧ s.env.mode = .awake ∧ t.env.mode = .awake)) := by
  obtain ⟨u, r, made, hexec, hresult, hcalls, hdone⟩ := exec_sleep_answers (exec_idle h)
  cases h.symm.trans hexec
  obtain rfl := hmade.unique hdone.made
  refine ⟨fun hfail => ?_, fun hquiet => ?_⟩
  · obtain rfl : r = .fail := OpResult.sleep.inj (hresult.symm.trans hfail)
    exact hdone.tracked.awake (hcalls.awake_of_fail _)
  · have htold := hdone.tracked.modeTold hquiet
    have hmode := (hdone.tracked.mode hquiet).trans (hcalls.modeAfterCalls htold)
    cases r with
    | ok => exact .inl ⟨hresult, hmode⟩
    | fail => exact .inr ⟨hresult, hcalls.awake_before_fail htold, hmode⟩

/-- WAKE ends Awake on OK, and where no self-wake happens where it was on FAIL (42_power_controller.md R147). -/
theorem wake_transition {s t : State} {calls : List Call} (h : exec .wake s = .next t) (hmade : CallsMade s t calls) :
    (t.result = .wake .ok → t.env.mode = .awake)
      ∧ (NoSelfWake s.cfg s.env calls.length →
        (t.result = .wake .ok ∧ t.env.mode = .awake) ∨ (t.result = .wake .fail ∧ t.env.mode = s.env.mode)) := by
  obtain ⟨u, r, made, hexec, hresult, hcalls, hdone⟩ := exec_wake_answers (exec_idle h)
  cases h.symm.trans hexec
  obtain rfl := hmade.unique hdone.made
  have hafter := hcalls.modeAfterCalls s.env.mode
  refine ⟨fun hok => ?_, fun hquiet => ?_⟩
  · obtain rfl : r = .ok := OpResult.wake.inj (hresult.symm.trans hok)
    exact hdone.tracked.awake hafter
  · have hmode := (hdone.tracked.mode hquiet).trans hafter
    cases r with
    | ok => exact .inl ⟨hresult, hmode⟩
    | fail => exact .inr ⟨hresult, hmode⟩

/-- IS_SLEEPING reports the mode it ends in, which without a self-wake is the mode it began with (42_power_controller.md R140). -/
theorem isSleeping_transition {s t : State} {calls : List Call} (h : exec .isSleeping s = .next t) (hmade : CallsMade s t calls) :
    t.result = .isSleeping (decide (t.env.mode = .sleeping))
      ∧ (NoSelfWake s.cfg s.env calls.length →
        t.env.mode = s.env.mode ∧ t.result = .isSleeping (decide (s.env.mode = .sleeping))) := by
  obtain ⟨u, hexec, hresult, hdone⟩ := exec_isSleeping_answers (exec_idle h)
  cases h.symm.trans hexec
  obtain rfl := hmade.unique hdone.made
  refine ⟨hresult, fun hquiet => ?_⟩
  have hmode : t.env.mode = s.env.mode := (hdone.tracked.modeTold hquiet).1 _ rfl
  exact ⟨hmode, hmode ▸ hresult⟩

/-- SET_STBY_PIN moves no mode (42_power_controller.md R145). -/
theorem setStbyPin_transition {ctrl : Bool} {p : PinNum} {s t : State} {calls : List Call} (h : exec (.setStbyPin ctrl p) s = .next t)
    (hmade : CallsMade s t calls) (hquiet : NoSelfWake s.cfg s.env calls.length) : t.env.mode = s.env.mode := by
  obtain ⟨u, m, hexec, -, hdone⟩ := exec_setStbyPin_answers ctrl p (exec_idle h)
  cases h.symm.trans hexec
  obtain rfl := hmade.unique hdone.made
  have htold : m = s.env.mode := (hdone.tracked.modeTold hquiet).2.1 m rfl
  exact (hdone.tracked.mode hquiet).trans (modeAfterCalls_getMode htold)

/-! ### The standby pin -/

theorem keepsAgreement_of_kinds {cfg : Cfg} {pin : PinSpace × PinNum} {calls : List Call}
    (h : OfKinds [.now, .available, .read, .frame, .line, .delay] calls) : KeepsAgreement cfg pin calls := by
  induction calls with
  | nil => exact .nil cfg pin
  | cons c rest ih =>
    have hc := h c List.mem_cons_self
    have hrest := ih fun x hx => h x (List.mem_cons_of_mem c hx)
    cases c with
    | now | checkReceiveAvailable | readFrame | sendFrame | intLine | delay => exact hrest.cons (fun _ => rfl) fun _ => rfl
    | sleep | wake | getMode | setPinMode | digitalWrite => simp [kindOf] at hc

theorem SendCalls.keepsAgreement {cfg : Cfg} {b : Block} {n : Time} {id : IdWord} {length : LenField} {payload : Payload}
    {success : Bool} {calls : List Call} {pin : PinSpace × PinNum} (h : SendCalls cfg b n id length payload success calls)
    (hpin : standbyPin b = some pin) : KeepsAgreement cfg pin calls := by
  obtain ⟨woke, wake, hs, hwake, ⟨hhs, -, rfl⟩ | ⟨answer, rest, hhs, hrest, -, rfl⟩⟩ := h <;>
    have hbefore := (hwake.keepsAgreement hpin).append (keepsAgreement_of_kinds (hhs.kinds.1.mono (by decide)))
  · exact hbefore
  · have hframe := ofKinds_singleton .frame (.sendFrame id true length (payload.toList.take length.toNat) answer) rfl
    exact (hbefore.append (keepsAgreement_of_kinds (hframe.mono (by decide)))).append (hrest.keepsAgreement hpin)

theorem ActivityCalls.keepsAgreement {cfg : Cfg} {b b1 : Block} {line : Option Bool} {calls : List Call} {pin : PinSpace × PinNum}
    (h : ActivityCalls cfg b b1 line calls) (hpin : Machine.standbyPin b = some pin) : KeepsAgreement cfg pin calls := by
  rcases h with ⟨-, -, -, rfl⟩ | ⟨-, n, r, wake, l, hwake, -, -, rfl⟩
  · exact .nil cfg pin
  · exact (hwake.keepsAgreement hpin).append (keepsAgreement_of_kinds (by simp [OfKinds, kindOf]))

theorem Polled.keepsAgreement {cfg : Cfg} {b b2 : Block} {got : Bool} {calls : List Call} {pin : PinSpace × PinNum}
    (h : Polled cfg b got b2 calls) (hpin : standbyPin b = some pin) : KeepsAgreement cfg pin calls := by
  cases h with
  | nothing hrest => exact (keepsAgreement_of_kinds (by simp [OfKinds, kindOf])).append (hrest.keepsAgreement hpin)
  | readError | unchecked f off | checked f n on ground => exact keepsAgreement_of_kinds (by simp [OfKinds, kindOf])

/-- SET_STBY_PIN brings its pin into agreement (42_power_controller.md R145). -/
theorem setStbyPin_agrees {cfg : Cfg} {m a : Mode} {space : PinSpace} {p : PinNum} {v : Pin}
    (h : ModeTold m [.setPinMode space p .output, .getMode a, .digitalWrite space p (levelFor cfg a)]) :
    (pinAfterCalls space p v [.setPinMode space p .output, .getMode a, .digitalWrite space p (levelFor cfg a)]).level
      = levelFor cfg
        (modeAfterCalls m [.setPinMode space p .output, .getMode a, .digitalWrite space p (levelFor cfg a)]) := by
  have htold : a = m := h.2.1 a rfl
  have hmode : modeAfterCalls m [.setPinMode space p .output, .getMode a, .digitalWrite space p (levelFor cfg a)] = m :=
    modeAfterCalls_getMode htold
  rw [hmode, ← htold]
  simp [pinAfterCalls, pinAfterCall]

/-- Every instruction leaves the standby pin it leaves configured in agreement with the mode, if one configured before agreed. -/
theorem Performs.agrees {cfg : Cfg} {b c : Block} {i : Instr} {calls : List Call} {pin : PinSpace × PinNum} {m : Mode} {v : Pin}
    (h : Performs cfg b i c calls) (hpin : standbyPin c = some pin) (htold : ModeTold m calls)
    (hv : standbyPin b = some pin → v.level = levelFor cfg m) :
    (pinAfterCalls pin.1 pin.2 v calls).level = levelFor cfg (modeAfterCalls m calls) := by
  cases h with
  | @setStbyPin ctrl p a =>
    obtain rfl : (if ctrl then PinSpace.ctrl else .host, p) = pin := by cases ctrl <;> exact Option.some.inj hpin
    exact setStbyPin_agrees htold
  | @dfCheck id length payload accept n hlength =>
    rw [(samePolicyAndPin_checkedBlock accept b n id length payload).standbyPin] at hpin
    exact (keepsAgreement_of_kinds (by simp [OfKinds, kindOf])) m v htold (hv hpin)
  | sleep h => exact h.keepsAgreement hpin m v htold (hv hpin)
  | wake h => exact h.keepsAgreement hpin m v htold (hv hpin)
  | isSleeping a => exact keepsAgreement_getMode cfg pin a m v htold (hv hpin)
  | maybeAutosleep h => exact h.keepsAgreement hpin m v htold (hv hpin)
  | setAutosleep h => exact h.keepsAgreement hpin m v htold (hv hpin)
  | send h => exact h.keepsAgreement hpin m v htold (hv hpin)
  | receive h1 h2 =>
    rw [(samePolicyAndPin_of_receive h1 h2).standbyPin] at hpin
    exact (h1.keepsAgreement hpin).append (h2.keepsAgreement (h1.standbyPin.trans hpin)) m v htold (hv hpin)
  | encode | decode | sendNothing | idBroadcast | idMulticast | idReserved | idUnicast => exact hv hpin

/-- An instruction in whose turns no self-wake happens keeps the agreement. -/
theorem exec_keepsPinAgreement {i : Instr} {s t : State} {calls : List Call} (h : exec i s = .next t) (hmade : CallsMade s t calls)
    (hquiet : NoSelfWake s.cfg s.env calls.length) (hagrees : PinAgrees s) : PinAgrees t := by
  obtain ⟨b, hdone⟩ := exec_performed_calls h hmade
  intro pin hpin
  rw [hdone.regs.standbyPin] at hpin
  have hlevel := hdone.performs.agrees hpin (hdone.tracked.modeTold hquiet) (hagrees pin)
  rw [hdone.outside.cfg, hdone.tracked.mode hquiet, ← hlevel]
  exact congrArg Pin.level (hdone.tracked.pins pin.1 pin.2)

theorem NoSelfWake.after_turn {cfg : Cfg} {s : State} {n : Nat} (h : NoSelfWake cfg s.env (n + 1)) :
    NoSelfWake cfg (envSteps s).env n :=
  h.imp_right fun h k hk => by
    rw [turnAt_shift (envSteps_script s) (envSteps_turns s)]
    exact h _ (by omega)

/-- A turn without a self-wake moves neither the mode nor a pin. -/
theorem PinAgrees.after_turn {s : State} (h : PinAgrees s) (hquiet : NoSelfWake s.cfg s.env 1) : PinAgrees (beginStep s) := by
  intro pin hpin
  have hlevel : pinLevel (beginStep s).env pin = pinLevel s.env pin := congrArg Pin.level (envSteps_pinAt s pin.1 pin.2)
  have hmode : (beginStep s).env.mode = s.env.mode := envSteps_mode hquiet
  rw [hlevel, hmode]
  exact h pin hpin

/-! ### The obligations -/

/-- Settles O24: every call's effect on the mode and on the pins, and what the four commands' calls make of it. -/
theorem powerTransitions : Obligations.PowerTransitions := by
  refine ⟨fun i s t calls h hmade => ?_, fun s t calls hmade =>
    ⟨(sleep_transition · hmade), (wake_transition · hmade), (isSleeping_transition · hmade),
      fun ctrl p => (setStbyPin_transition · hmade)⟩⟩
  obtain ⟨b, hdone⟩ := exec_performed_calls h hmade
  exact ⟨hdone.tracked.awake, hdone.tracked.mode, hdone.tracked.answers, hdone.tracked.pins⟩

/-- Settles O25: the step's turn moves neither mode nor pin, reset unconfigures the pin, and an instruction's calls keep the two in
agreement. -/
theorem everyStepKeepsPinAgreement : Obligations.EveryStepKeepsPinAgreement := by
  intro s t calls hagrees hstep hmade hquiet
  have hturned := hagrees.after_turn (hquiet.mono (by omega))
  obtain ⟨-, ⟨-, rfl⟩ | ⟨-, rfl⟩ | ⟨p, i, -, -, hexec⟩⟩ := step_next hstep
  · exact hturned
  · intro pin hpin
    cases hpin
  · exact exec_keepsPinAgreement hexec hmade.of_step hquiet.after_turn hturned

end Sys2Proof.Machine
end

section
/-! PROOFS. The machine's invariant (spec/10_state.md sections 1 and 3; spec/70_reset_and_hazards.md R233): every step keeps it. -/

namespace Sys2Proof.Machine

theorem advanceSum_mono (e : Env) {j k : Nat} (h : j ≤ k) : advanceSum e j ≤ advanceSum e k := by
  induction h with
  | refl => exact le_rfl
  | step _ ih => exact ih.trans (Nat.le_add_right _ _)

theorem delaySum_eq_zero {calls : List Call} (h : ∀ d, .delay d ∉ calls) : delaySum calls = 0 := by
  induction calls with
  | nil => rfl
  | cons c rest ih =>
    have hrest : delaySum rest = 0 := ih fun d hd => h d (List.mem_cons_of_mem c hd)
    have hc : callDelay c = 0 := by
      unfold callDelay
      split
      · next d => exact absurd List.mem_cons_self (h d)
      · rfl
    rw [delaySum, List.map_cons, List.sum_cons, hc, Nat.zero_add]
    exact hrest

/-- A clock value read with no delay before it is not after the clock the calls leave. -/
theorem Timed.read_le_clock {cfg : Cfg} {e e' : Env} {calls : List Call} (h : Timed cfg e e' calls) {k : Nat} {n : Time}
    (hread : calls[k]? = some (.now n)) (hundelayed : delaySum (calls.take k) = 0) : n.toNat ≤ e'.clock.toNat := by
  have hn := h.reads k n hread hundelayed
  have hlt : k < calls.length := (List.getElem?_eq_some_iff.1 hread).choose
  have hsum := advanceSum_mono e (j := k + 1) (Nat.succ_le_of_lt hlt)
  have hclock := h.clockGe
  omega

theorem Timed.read_le_clock_of_undelayed {cfg : Cfg} {e e' : Env} {calls : List Call} (h : Timed cfg e e' calls) {n : Time}
    (hread : .now n ∈ calls) (hundelayed : ∀ d, .delay d ∉ calls) : n.toNat ≤ e'.clock.toNat := by
  obtain ⟨k, hk⟩ := List.getElem?_of_mem hread
  exact h.read_le_clock hk (delaySum_eq_zero fun d hd => hundelayed d (List.mem_of_mem_take hd))

/-- Of the registers an instruction leaves, the timestamp is not after the clock. -/
theorem Performed.activityTime {i : Instr} {s t : State} {b : Block} {calls : List Call} (h : Performed i s t b calls)
    (htime : s.blk.lastActivityTimestamp.toNat ≤ s.env.clock.toNat) : t.blk.lastActivityTimestamp.toNat ≤ t.env.clock.toNat := by
  have hb : t.blk.lastActivityTimestamp = b.lastActivityTimestamp := by rw [h.regs]
  rw [hb]
  rcases h.performs.timestamp with hkept | ⟨r, rest, rfl⟩
  · rw [hkept]
    exact htime.trans h.outside.clock
  · exact h.timed.read_le_clock (k := 0) rfl rfl

/-- Of the registers an instruction leaves, the record has a length in contract and a time that is not after the clock. -/
theorem Performed.record {i : Instr} {s t : State} {b : Block} {calls : List Call} (h : Performed i s t b calls)
    (hlength : s.blk.dfLen.toNat ≤ 8) (htime : s.blk.dfTime.toNat ≤ s.env.clock.toNat) :
    t.blk.dfLen.toNat ≤ 8 ∧ t.blk.dfTime.toNat ≤ t.env.clock.toNat := by
  have hlen : t.blk.dfLen = b.dfLen := by rw [h.regs]
  have hstamp : t.blk.dfTime = b.dfTime := by rw [h.regs]
  rw [hlen, hstamp]
  rcases h.performs.record with hkept | ⟨-, hwritten, hread, hundelayed⟩
  · have hl : b.dfLen = s.blk.dfLen := congrArg LastFrameRecord.length hkept
    have ht : b.dfTime = s.blk.dfTime := congrArg LastFrameRecord.timestamp hkept
    rw [hl, ht]
    exact ⟨hlength, htime.trans h.outside.clock⟩
  · exact ⟨hwritten, h.timed.read_le_clock_of_undelayed hread hundelayed⟩

/-- The invariant but for the time premise, which a turn may leave. -/
theorem Inv.exec {i : Instr} {s t : State} (h : Machine.exec i s = .next t) (hlength : s.blk.dfLen.toNat ≤ 8)
    (hreset : s.cfg.dfReset.length.toNat ≤ 8) (hrecord : s.blk.dfTime.toNat ≤ s.env.clock.toNat)
    (hresetTime : s.cfg.dfReset.timestamp.toNat ≤ s.env.clock.toNat)
    (hactivity : s.blk.lastActivityTimestamp.toNat ≤ s.env.clock.toNat) (hpins : PinsFormed s.env)
    (hinTime : t.env.timeBroken = false) : Inv t := by
  obtain ⟨b, calls, hdone⟩ := exec_performed h
  obtain ⟨hcfg, -, hidle, hclock⟩ := hdone.outside
  obtain ⟨hlen, htime⟩ := hdone.record hlength hrecord
  obtain ⟨hctrl, hhost⟩ := hdone.formed hpins
  exact ⟨hidle, hlen, hcfg ▸ hreset, htime, hcfg ▸ hresetTime.trans hclock, hdone.activityTime hactivity, hinTime, hctrl, hhost⟩

/-- Settles O46: a turn moves the clock forward alone, reset takes the record from the configuration, and an instruction writes clock
values it read and lengths in contract. -/
theorem everyStepKeepsInvariant : Obligations.EveryStepKeepsInvariant := by
  intro s t hinv hstep
  obtain ⟨hidle, hlength, hreset, hrecord, hresetTime, hactivity, -, hctrl, hhost⟩ := hinv
  have hclock := (envSteps_moved s).clock
  have hpins : PinsFormed (envSteps s).env := PinsFormed.envSteps ⟨hctrl, hhost⟩
  obtain ⟨hinTime, ⟨-, rfl⟩ | ⟨-, rfl⟩ | ⟨p, i, -, -, hexec⟩⟩ := step_next hstep
  · exact ⟨hidle, hlength, hreset, hrecord.trans hclock, hresetTime.trans hclock, hactivity.trans hclock, hinTime, hpins.1, hpins.2⟩
  · exact ⟨rfl, hreset, hreset, hresetTime.trans hclock, hresetTime.trans hclock, Nat.zero_le _, hinTime, hpins.1, hpins.2⟩
  · exact .exec hexec hlength hreset (hrecord.trans hclock) (hresetTime.trans hclock) (hactivity.trans hclock) hpins hinTime

end Sys2Proof.Machine
end
